-- ==== Sys2Proof/Word.lean ====
section
/-! DEFINITION. The widths of the QAM symbol mapper block (spec/00_scope.md R7, R9, R16; spec/10_state.md R32).
Bit 0 is the least significant bit (R9). -/

namespace Sys2Proof

/-- A byte of a platform's byte-addressed bus (20_memory.md R76). -/
abbrev Byte := BitVec 8

/-- A 64-bit register word, command word or sample index (R32, R101, `IDX_W` of R7). -/
abbrev Word := BitVec 64

/-- A 32-bit count: `CNT_W` of R7. -/
abbrev Count := BitVec 32

/-- A binary64 value as its bit pattern: bit 63 the sign, 62:52 the biased exponent, 51:0 the fraction (R11, R16). -/
abbrev F64 := BitVec 64

/-- The 9-bit bit-group beat: `LEN` in bits 8:6, `BITS` in bits 5:0 (30_encoding.md R104). -/
abbrev Beat := BitVec 9

/-- A bit group as the abstract sequence of R10, first bit first. -/
abbrev BitGroup := List Bool

end Sys2Proof
end

