-- ==== Sys2Proof/Config.lean ====
section
/-! DEFINITION. What is fixed for the life of a model instance and left open by the spec: the numerics record `NUM`
(00_scope.md R21), the NaN a basic operation returns (R18 item 4), the buffer capacities (R7, 92_eei_decisions.md
D26), and what the text store leaves open (20_memory.md R86). Every open value is a constant without a body, so that
nothing can be proved of it beyond its type. -/

namespace Sys2Proof

/-- `NUM.cos` of 00_scope.md R21: a total function, otherwise OPEN (log entry 3). -/
opaque Config.cos : F64 → F64

/-- `NUM.sin` of 00_scope.md R21: a total function, otherwise OPEN (log entry 3). -/
opaque Config.sin : F64 → F64

/-- `NUM.atan2(y, x)` of 00_scope.md R21: a total function, otherwise OPEN (log entry 3). -/
opaque Config.atan2 : F64 → F64 → F64

/-- The basic operations that can return a NaN (R17). -/
inductive Config.NanOp where
  | add | mul | div
  deriving DecidableEq, Repr

/-- The sign of the NaN an operation returns on its operands: `any value` (R18 item 4; log entry 4). -/
opaque Config.nanSign : Config.NanOp → F64 → F64 → Bool

/-- Selects the fraction of the NaN an operation returns on its operands: `any value` (R18 item 4; log entry 4). -/
opaque Config.nanPayload : Config.NanOp → F64 → F64 → Nat

/-- By how much `BGQ_DEPTH` exceeds 1, its least value (R7; log entry 5). -/
opaque Config.bgqSpare : Nat

/-- `BGQ_DEPTH` of R7: OPEN, at least 1. -/
def Config.bgqDepth : Nat := Config.bgqSpare + 1

/-- Selects `RXBUF_DEPTH` (R7; log entry 6). -/
opaque Config.rxbufSpare : Nat

/-- `RXBUF_DEPTH` of R7: OPEN, at least 1, and countable by the 64-bit `RX_AVAIL` (log entry 6). -/
def Config.rxbufDepth : Nat := Config.rxbufSpare % (2 ^ 64 - 1) + 1

/-- The time field that `STORE_TEXT6` reads back: its text format is not given (R86; log entry 15). -/
opaque Config.text6Time : F64 → F64

/-- The amplitude `STORE_TEXT6` reads back for a NaN or an infinity: not given (R86; log entry 15). -/
opaque Config.text6NonFinite : F64 → F64

end Sys2Proof
end

