-- ==== Sys2Proof/Syntax.lean ====
section
/-! DEFINITION. The sixteen commands of spec/opcode_table.json (30_encoding.md R102), the primitive steps they expand
into (40_control.md R134), the registers of the register map (20_memory.md R72) and the modulation schemes
(00_scope.md R2). No command has an operand (R101). -/

namespace Sys2Proof

/-- The commands, one constructor per row of spec/opcode_table.json. -/
inductive Instr where
  /-- `NOP`, R131 -/
  | nop
  /-- `CONFIGURE`, R132 -/
  | configure
  /-- `SRESET`, R133 -/
  | sreset
  /-- `MAP`, R150 -/
  | map
  /-- `TXINIT`, R170 -/
  | txinit
  /-- `MIX`, R171 -/
  | mix
  /-- `GENSYM`, R172 -/
  | gensym
  /-- `GENRUN`, R173 -/
  | genrun
  /-- `RXINIT`, R190 -/
  | rxinit
  /-- `ACCLR`, R191 -/
  | acclr
  /-- `CORR`, R192 -/
  | corr
  /-- `AVG`, R194 -/
  | avg
  /-- `CORRWIN`, R195 -/
  | corrwin
  /-- `DECIDE`, R210 -/
  | decideCmd
  /-- `DEMSYM`, R230 -/
  | demsym
  /-- `DEMRUN`, R231 -/
  | demrun
  deriving DecidableEq, Repr

/-- The primitive steps of R134: the commands that are not composite (`SRESET` is performed at once and is no step),
and the two internal steps `TXKINC` and `RXKINC`, which have no opcode. -/
inductive Prim where
  | nop | configure | map | txinit | mix | txkinc | rxinit | acclr | corr | avg | decideStep | rxkinc
  deriving DecidableEq, Repr

/-- The twenty-two registers of the register map, 20_memory.md R72, in the order of their offsets. -/
inductive Reg where
  | cmd | status | fault | faultInfo | symbolCount | fc | fs | samplesPerSymbol | modulation | txbits | lvlI | lvlQ
  | txK | txN | rxAvail | rxK | rxJ | isum | qsum | iavg | qavg | rxbits
  deriving DecidableEq, Repr

/-- The closed set of modulation schemes, 00_scope.md R2. -/
inductive Scheme where
  | qpsk | qam16 | qam64
  deriving DecidableEq, Repr

end Sys2Proof
end

