-- ==== Sys2Proof/WellFormed.lean ====
section
/-! DEFINITION. The form checks: an instruction (it has no field, so each one is well formed), a command word's zero
field (30_encoding.md R101), and a beat's length field (R104: a length above 6 describes no group). -/

namespace Sys2Proof

/-- R101: a command has no operand field, no register number, no immediate and no mode field; nothing of an
instruction can be ill formed. -/
def Instr.wellFormed : Instr → Bool
  | .nop | .configure | .sreset | .map | .txinit | .mix | .gensym | .genrun => true
  | .rxinit | .acclr | .corr | .avg | .corrwin | .decideCmd | .demsym | .demrun => true

/-- R101: bits 63:8 of a command word must be zero. -/
def zeroFieldClear (v : Word) : Bool :=
  v.extractLsb' 8 56 == 0

/-- R104: only six bit positions exist, so a length of 7 describes no group. -/
def beatDescribesGroup (b : Beat) : Bool :=
  (b.extractLsb' 6 3).toNat ≤ 6

end Sys2Proof
end

