-- ==== Sys2Proof/Decode.lean ====
section
/-! DEFINITION. The decoder of command words (30_encoding.md R101 to R103), total, rejecting by name, and the encoder
beside it, both written from the opcode map of R102. -/

namespace Sys2Proof

/-- Why a command word is illegal (R103), or why bytes are no command word. -/
inductive DecodeError where
  /-- a 1 in bits 63:8 -/
  | upperBits
  /-- an opcode that is not in the map of R102 -/
  | reservedOpcode
  /-- fewer or more than the eight bytes of a command word -/
  | notOneWord
  deriving DecidableEq, Repr

/-- The opcode map of R102, read from the opcode. -/
def decodeOpcode (op : BitVec 8) : Option Instr :=
  match op.toNat with
  | 0x00 => some .nop
  | 0x01 => some .configure
  | 0x02 => some .sreset
  | 0x10 => some .map
  | 0x20 => some .txinit
  | 0x21 => some .mix
  | 0x22 => some .gensym
  | 0x23 => some .genrun
  | 0x30 => some .rxinit
  | 0x31 => some .acclr
  | 0x32 => some .corr
  | 0x33 => some .avg
  | 0x34 => some .corrwin
  | 0x40 => some .decideCmd
  | 0x50 => some .demsym
  | 0x51 => some .demrun
  | _ => none

/-- The command a 64-bit word stands for: `OPCODE` is bits 7:0 and bits 63:8 are zero (R101). -/
def decode (v : Word) : Except DecodeError Instr :=
  if zeroFieldClear v then
    match decodeOpcode (v.extractLsb' 0 8) with
    | some i => .ok i
    | none => .error .reservedOpcode
  else .error .upperBits

/-- The word that eight bytes hold, the byte at the lowest address carrying bits 7:0 (20_memory.md R76). -/
def wordOfBytes : List Byte → Word
  | [] => 0
  | b :: bs => (wordOfBytes bs <<< 8) ||| b.setWidth 64

/-- The eight bytes of a word, lowest address first (R76). -/
def bytesOfWord (v : Word) : List Byte :=
  (List.range 8).map fun k => v.extractLsb' (8 * k) 8

/-- The command that the bytes of one command word stand for. -/
def decodeBytes (bs : List Byte) : Except DecodeError Instr :=
  if bs.length = 8 then decode (wordOfBytes bs) else .error .notOneWord

/-- The opcode of a command, R102. -/
def Instr.opcode : Instr → BitVec 8
  | .nop => 0x00
  | .configure => 0x01
  | .sreset => 0x02
  | .map => 0x10
  | .txinit => 0x20
  | .mix => 0x21
  | .gensym => 0x22
  | .genrun => 0x23
  | .rxinit => 0x30
  | .acclr => 0x31
  | .corr => 0x32
  | .avg => 0x33
  | .corrwin => 0x34
  | .decideCmd => 0x40
  | .demsym => 0x50
  | .demrun => 0x51

/-- The command word of a command: its opcode, and zeros (R101). -/
def encode (i : Instr) : Word :=
  i.opcode.setWidth 64

/-- The word of an opcode-table row: the low `nbits` bits of `w`, every bit above them 0. -/
def tableWord (nbits w : Nat) : Word :=
  BitVec.ofNat 64 (w % 2 ^ nbits)

/-- What the decoder reads from a table row of `nbits` bits whose bits are `w`: none where it refuses. A command word
has 64 bits (R101), so a longer row is none. -/
def decodeTableWord (nbits w : Nat) : Option Instr :=
  if nbits ≤ 64 then
    match decodeBytes (bytesOfWord (tableWord nbits w)) with
    | .ok i => some i
    | .error _ => none
  else none

end Sys2Proof
end

