-- ==== Sys2Proof/Machine/State.lean ====
section
/-! DEFINITION. The state of the block (spec/10_state.md), the inputs the other agents will supply, the reasons a step
can stop, and the state after power-on reset (R61, R270). -/

namespace Sys2Proof.Machine

/-- A sample `(time, amplitude)`, 30_encoding.md R105. -/
structure Sample where
  time : F64
  amp : F64
  deriving DecidableEq, Repr

/-- A SAMPLE_IN beat `(time, amplitude, err)`, R105. -/
structure InBeat where
  time : F64
  amp : F64
  err : Bool
  deriving DecidableEq, Repr

/-- The receive sample buffer RXBUF: samples by global index from 0 (10_state.md R55, 20_memory.md R71). -/
abbrev Memory := List Sample

/-- RXBUF holds at most `RXBUF_DEPTH` samples (R55). -/
abbrev Memory.wf (m : Memory) : Prop :=
  m.length ≤ Config.rxbufDepth

/-- The values of `FAULT.CODE` that are ever produced, 10_state.md R41 (log entry 8). -/
inductive FaultCode where
  | none | config | store | bitgroupLen | nonfinite | illegalCmd | sequence | access
  deriving DecidableEq, Repr

/-- `CUR`, the command in flight: `op`, none for `IDLE`, and the primitive steps still to make (10_state.md R58). -/
structure Cur where
  op : Option Instr
  todo : List Prim
  deriving DecidableEq, Repr

/-- `(IDLE, empty)` of R58. -/
def Cur.idle : Cur := ⟨none, []⟩

/-- The agents that take turns (10_state.md R30). The sinks act only by the sample sink's answers. -/
inductive Agent where
  | block | host | bitSource | sampleSource
  deriving DecidableEq, Repr

/-- What the host does at one of its turns (R92; the lines of 30_encoding.md R111). -/
inductive HostAction where
  /-- `RegRead`: access size in bits, byte offset -/
  | read (size : Nat) (off : Word)
  /-- `RegWrite`: access size in bits, byte offset, value -/
  | write (size : Nat) (off v : Word)
  /-- a write of `CMD` after which the block works before anyone else acts: the script line `<mnemonic>` (log entry 2) -/
  | command (v : Word)
  /-- `WAIT`: reads `STATUS`, again and again until `BUSY = 0` -/
  | wait
  deriving DecidableEq, Repr

/-- What the sample sink does when a beat is offered to it (20_memory.md R82). -/
inductive SinkReply where
  /-- takes the beat -/
  | ok
  /-- refuses it: "sample store unwritable" -/
  | error
  /-- has not answered yet: the step waits (60_exceptions.md R258) -/
  | pending
  /-- answers this beat never: the step waits for ever, and whatever stands behind in the list is not reached (R258) -/
  | never
  deriving DecidableEq, Repr

/-- Everything the spec gives the machine, and the inputs to come. `BUSY`, `FAULTED`, `CUR_OP` and `RX_AVAIL` are views
(log entry 7). -/
structure State where
  /-- `SYMBOL_COUNT`, R34 -/
  symbolCount : Count
  /-- `FC`, R35 -/
  fc : F64
  /-- `FS`, R36 -/
  fs : F64
  /-- `SAMPLES_PER_SYMBOL`, R37 -/
  samplesPerSymbol : Count
  /-- `MODULATION`, R38 -/
  modulation : BitVec 2
  /-- `STATUS.LOCKED`, R40 -/
  locked : Bool
  /-- `FAULT.CODE`, R41 -/
  faultCode : FaultCode
  /-- `FAULT_INFO`, R42 -/
  faultInfo : Word
  /-- `TXBITS`, R43 -/
  txbits : Beat
  /-- `LVL_I`, R44 -/
  lvlI : F64
  /-- `LVL_Q`, R44 -/
  lvlQ : F64
  /-- `TX_K`, R45 -/
  txK : Count
  /-- `TX_N`, R46 -/
  txN : Word
  /-- `RX_K`, R48 -/
  rxK : Count
  /-- `RX_J`, R49 -/
  rxJ : Count
  /-- `ISUM`, R51 -/
  isum : F64
  /-- `QSUM`, R51 -/
  qsum : F64
  /-- `IAVG`, R52 -/
  iavg : F64
  /-- `QAVG`, R52 -/
  qavg : F64
  /-- `RXBITS`, R53 -/
  rxbits : Beat
  /-- BGQ, oldest beat first, R54 -/
  bgq : List Beat
  /-- RXBUF, R55 -/
  rxbuf : Memory
  /-- TXOUT, oldest first, R56 -/
  txout : List Sample
  /-- BITOUT, oldest first, R57 -/
  bitout : List Bool
  /-- `CUR`, R58 -/
  cur : Cur
  /-- the model's own: whose turn it is, next first; when the list has run out the block acts (log entry 1) -/
  turns : List Agent
  /-- the model's own: what the host will do at its turns (log entry 1) -/
  hostActs : List HostAction
  /-- the model's own: the data of the host's latest register read, none when it was refused (log entry 10) -/
  hostData : Option Word
  /-- the model's own: the beats the bit source will push (R59; log entry 1) -/
  bitSupply : List Beat
  /-- the model's own: the beats the sample source will push (R59; log entry 1) -/
  sampleSupply : List InBeat
  /-- the model's own: the sample sink's answers; `ok` when the list has run out (R82; log entry 9) -/
  sinkReplies : List SinkReply
  /-- the model's own: the length TXOUT had at the last start of a `TXINIT` step, for the script's `LOOPBACK` (R112; log
  entry 15) -/
  runStart : Nat
  deriving DecidableEq, Repr

/-- Reasons the model stops. None of them is one of the block's own faults, which are next states (R248). -/
inductive Fault where
  /-- Raised by a `MAP` or `DECIDE` step that finds `MODULATION = 3`. "`m = 3` cannot occur" (R150, R210): `CONFIGURE`
  refuses code 3 and the register is locked from then on. Safe: no run reaches it (log entry 12). -/
  | reservedModulation
  deriving DecidableEq, Repr

/-- Reasons an instruction has no meaning. -/
inductive Refusal where
  /-- Raised by an arm of `exec` whose instruction has no meaning yet; no arm is left so. Safe: nothing runs. -/
  | notModelled (mnemonic : String)
  deriving DecidableEq, Repr

/-- The machine after power-on reset: the table of 10_state.md R61; the model's own fields are empty. -/
def State.reset : State where
  symbolCount := 0
  fc := 0
  fs := 0
  samplesPerSymbol := 0
  modulation := 0
  locked := false
  faultCode := .none
  faultInfo := 0
  txbits := 0
  lvlI := 0
  lvlQ := 0
  txK := 0
  txN := 0
  rxK := 0
  rxJ := 0
  isum := 0
  qsum := 0
  iavg := 0
  qavg := 0
  rxbits := 0
  bgq := []
  rxbuf := []
  txout := []
  bitout := []
  cur := Cur.idle
  turns := []
  hostActs := []
  hostData := none
  bitSupply := []
  sampleSupply := []
  sinkReplies := []
  runStart := 0

end Sys2Proof.Machine
end

