-- ==== Sys2Proof/Machine/Float.lean ====
section
/-! DEFINITION. Binary64 arithmetic (00_scope.md R11, R16 to R19). A finite value is an integer number of units of
2^-1074, the smallest subnormal; every operation is computed exactly on such integers and narrowed once, by
`roundMag`: to nearest, ties to even, with gradual underflow (R17). -/

namespace Sys2Proof.Machine

/-- The magnitude bits of an infinity: exponent field all ones, fraction 0. -/
def infMag : Nat := 0x7FF0000000000000

/-- Bit 63, the sign (R11). -/
def fsign (x : F64) : Bool := x.getLsbD 63

/-- Bits 62:0, exponent and fraction together. -/
def fmag (x : F64) : Nat := x.toNat % 2 ^ 63

/-- A sign and magnitude bits as a pattern. -/
def pack (s : Bool) (m : Nat) : F64 := BitVec.ofNat 64 ((if s then 2 ^ 63 else 0) + m)

def fzero (s : Bool) : F64 := pack s 0

def finf (s : Bool) : F64 := pack s infMag

/-- `isnan` of R17. -/
def isnan (x : F64) : Bool := infMag < fmag x

/-- An infinity of either sign. -/
def isinf (x : F64) : Bool := fmag x == infMag

/-- `isfinite` of R17: neither an infinity nor a NaN. -/
def isfinite (x : F64) : Bool := fmag x < infMag

/-- A zero of either sign. -/
def iszero (x : F64) : Bool := fmag x == 0

/-- The magnitude of a finite value in units of 2^-1074. -/
def units (x : F64) : Nat :=
  let e := fmag x / 2 ^ 52
  let f := fmag x % 2 ^ 52
  if e = 0 then f else (2 ^ 52 + f) * 2 ^ (e - 1)

/-- A finite value in units of 2^-1074, with its sign. -/
def signedUnits (x : F64) : Int := if fsign x then -(units x : Int) else units x

/-- The number of units in 1.0. -/
def unitsPerOne : Nat := 2 ^ 1074

/-- A quotient rounded to an integer, to nearest, ties to even. -/
def divNearestEven (num den : Nat) : Nat :=
  let m := num / den
  let r := num % den
  if 2 * r < den then m
  else if 2 * r = den then m + m % 2
  else m + 1

/-- How many binary places a whole number of units exceeds the 53 bits of a significand. -/
def excessPlaces (q : Nat) : Nat := if q < 2 ^ 53 then 0 else Nat.log2 q - 52

/-- The magnitude bits of `num / den` units: rounded once to the 53-bit significand of its binade (or to a whole number
of units when it is subnormal), and an infinity from there up. With `k` excess places and a significand `m`, the
pattern is `k * 2^52 + m`, also when the rounding carries `m` to 2^53. -/
def roundMag (num den : Nat) : Nat :=
  let k := excessPlaces (num / den)
  min (k * 2 ^ 52 + divNearestEven num (den * 2 ^ k)) infMag

/-- The NaN an operation returns: some sign and some nonzero fraction, left open (R18 item 4; log entry 4). -/
def nanOf (op : Config.NanOp) (a b : F64) : F64 :=
  pack (Config.nanSign op a b) (infMag + 1 + Config.nanPayload op a b % (2 ^ 52 - 1))

def fneg (x : F64) : F64 := pack (!fsign x) (fmag x)

/-- `fabs` of R17: clears the sign bit. -/
def fabs (x : F64) : F64 := pack false (fmag x)

/-- `fadd` of R17. An exact zero sum is `-0` only when both operands are negative, so both `-0` (R18 item 1). -/
def fadd (a b : F64) : F64 :=
  if isnan a || isnan b then nanOf .add a b
  else if isinf a then (if isinf b && (fsign a != fsign b) then nanOf .add a b else a)
  else if isinf b then b
  else
    let z := signedUnits a + signedUnits b
    if z = 0 then fzero (fsign a && fsign b) else pack (z < 0) (roundMag z.natAbs 1)

/-- `fsub` of R17: the addition of the negated operand. -/
def fsub (a b : F64) : F64 := fadd a (fneg b)

/-- `fmul` of R17; the sign is the exclusive-or of the signs (R18 item 2). -/
def fmul (a b : F64) : F64 :=
  let s := fsign a != fsign b
  if isnan a || isnan b then nanOf .mul a b
  else if isinf a || isinf b then (if iszero a || iszero b then nanOf .mul a b else finf s)
  else pack s (roundMag (units a * units b) unitsPerOne)

/-- `fdiv` of R17 (R18 item 3 for the zeros). -/
def fdiv (a b : F64) : F64 :=
  let s := fsign a != fsign b
  if isnan a || isnan b then nanOf .div a b
  else if isinf a then (if isinf b then nanOf .div a b else finf s)
  else if isinf b then fzero s
  else if iszero b then (if iszero a then nanOf .div a b else finf s)
  else pack s (roundMag (units a * unitsPerOne) (units b))

/-- `u2f` of R17: an unsigned integer, rounded to nearest, ties to even. -/
def u2f (n : Nat) : F64 := pack false (roundMag (n * unitsPerOne) 1)

/-- The binary64 value of an integer (R15: the levels are converted exactly). -/
def i2f (z : Int) : F64 := pack (z < 0) (roundMag (z.natAbs * unitsPerOne) 1)

/-- The order of the values that are not a NaN: magnitude bits with the sign, so that `-0` and `+0` are equal. -/
def orderKey (x : F64) : Int := if fsign x then -(fmag x : Int) else fmag x

/-- `flt` of R17: false on a NaN. -/
def flt (a b : F64) : Bool := !isnan a && !isnan b && decide (orderKey a < orderKey b)

/-- `fle` of R17: false on a NaN. -/
def fle (a b : F64) : Bool := !isnan a && !isnan b && decide (orderKey a ≤ orderKey b)

/-- `fge` of R17: false on a NaN. -/
def fge (a b : F64) : Bool := fle b a

/-- `feq` of R17: false on a NaN. -/
def feq (a b : F64) : Bool := !isnan a && !isnan b && decide (orderKey a = orderKey b)

/-! The constants of R19. -/

def constPI : F64 := 0x400921FB54442D18
def constTWO_PI : F64 := 0x401921FB54442D18
def constHALF_PI : F64 := 0x3FF921FB54442D18
def constTHREE_HALF_PI : F64 := 0x4012D97C7F3321D2
def constSQRT2 : F64 := 0x3FF6A09E667F3BCD
def constPHASE_1 : F64 := 0x3FE921FB54442D18
def constPHASE_3 : F64 := 0x4002D97C7F3321D2
def constPHASE_5 : F64 := 0x400F6A7A2955385E
def constPHASE_7 : F64 := 0x4015FDBBE9BBA775

/-- `NCO(n, fc, fs) = (t, c, s)` of R20, evaluated in that order and no other. -/
def ncoTime (n : Nat) (fs : F64) : F64 := fdiv (u2f n) fs

/-- `theta` of R20: `fmul(fmul(TWO_PI, fc), t)`, left to right. -/
def ncoPhase (n : Nat) (fc fs : F64) : F64 := fmul (fmul constTWO_PI fc) (ncoTime n fs)

/-- `c` of R20. -/
def ncoCos (n : Nat) (fc fs : F64) : F64 := Config.cos (ncoPhase n fc fs)

/-- `s` of R20. -/
def ncoSin (n : Nat) (fc fs : F64) : F64 := Config.sin (ncoPhase n fc fs)

end Sys2Proof.Machine
end

