-- ==== Sys2Proof/Machine/Flags.lean ====
section
/-! DEFINITION. The status flags and the register words made of them (10_state.md R40, R41), and the fault codes. -/

namespace Sys2Proof.Machine

/-- `STATUS.FAULTED`: 1 exactly when `FAULT.CODE` is not `NONE` (R40). -/
def State.faulted (s : State) : Bool := s.faultCode != .none

/-- `STATUS.BUSY`: `todo` is not empty (R40, R58). -/
def State.busy (s : State) : Bool := !s.cur.todo.isEmpty

/-- `STATUS.CUR_OP`: the opcode of the command in flight while `BUSY = 1`, zero otherwise (R40). -/
def State.curOp (s : State) : BitVec 8 :=
  match s.busy, s.cur.op with
  | true, some i => i.opcode
  | _, _ => 0

/-- `RX_AVAIL`: the number of samples in RXBUF (R47). -/
def State.rxAvail (s : State) : Word := BitVec.ofNat 64 s.rxbuf.length

/-- The `STATUS` word: `BUSY` bit 0, `LOCKED` bit 1, `FAULTED` bit 2, `CUR_OP` bits 15:8, the rest zero (R40). -/
def State.statusWord (s : State) : Word :=
  BitVec.ofNat 64 (s.busy.toNat + 2 * s.locked.toNat + 4 * s.faulted.toNat + 256 * s.curOp.toNat)

/-- The number of a fault code (R41). -/
def FaultCode.toNat : FaultCode → Nat
  | .none => 0
  | .config => 1
  | .store => 2
  | .bitgroupLen => 3
  | .nonfinite => 4
  | .illegalCmd => 5
  | .sequence => 6
  | .access => 7

/-- The `FAULT` word: `CODE` in bits 3:0, the rest zero (R41). -/
def State.faultWord (s : State) : Word := BitVec.ofNat 64 s.faultCode.toNat

/-- The mask `e` of the checks of `CONFIGURE` that fail (40_control.md R132). -/
def configMask (s : State) : Nat :=
  (if s.symbolCount = 0 then 1 else 0)
  + (if s.samplesPerSymbol = 0 then 2 else 0)
  + (if s.modulation = 3 then 4 else 0)
  + (if !isfinite s.fc then 8 else 0)
  + (if !isfinite s.fs || !flt (fzero false) s.fs then 16 else 0)

/-- `NonFinite(m, i, q)`: bit 0 the I operand, bit 1 the Q operand. A NaN is bad under every scheme, an infinity under
QPSK and QAM64 (44_decision_quantizer.md R212). -/
def nonFiniteMask (sch : Scheme) (i q : F64) : Nat :=
  let bad (x : F64) : Bool :=
    match sch with
    | .qpsk => !isfinite x
    | .qam16 => isnan x
    | .qam64 => !isfinite x
  (bad i).toNat + 2 * (bad q).toNat

end Sys2Proof.Machine
end

