-- ==== Sys2Proof/Machine/Operands.lean ====
section
/-! DEFINITION. The operand forms: the modulation code (10_state.md R38), the bit-group beat (30_encoding.md R104), how
a group is cut and joined (R109), the 3-bit index (00_scope.md R15), the receive sample index (20_memory.md R93). -/

namespace Sys2Proof.Machine

/-- The scheme a modulation code selects: 0 QPSK, 1 QAM16, 2 QAM64, 3 reserved (R38). -/
def schemeOfCode (m : BitVec 2) : Option Scheme :=
  match m.toNat with
  | 0 => some .qpsk
  | 1 => some .qam16
  | 2 => some .qam64
  | _ => none

/-- `BPS`: bits per symbol (00_scope.md R7). -/
def bitsPerSymbol : Scheme → Nat
  | .qpsk => 2
  | .qam16 => 4
  | .qam64 => 6

/-- `LEN`, bits 8:6 of a beat (R104). -/
def beatLen (b : Beat) : BitVec 3 := b.extractLsb' 6 3

/-- `BITS`, bits 5:0 of a beat (R104). -/
def beatBits (b : Beat) : BitVec 6 := b.extractLsb' 0 6

/-- `g[m]`, which is bit `5 - m` of the `BITS` field (R104). -/
def groupBit (bits : BitVec 6) (m : Nat) : Bool := bits.getLsbD (5 - m)

/-- The first `L` bits of the `BITS` field as a group, `b0` first (R104). -/
def groupOfBits (L : Nat) (bits : BitVec 6) : BitGroup := (List.range L).map (groupBit bits)

/-- The beat of a group of at most six bits: its length, its bits left-aligned, zeros below (R104, R210). -/
def beatOfGroup (g : BitGroup) : Beat :=
  BitVec.ofNat 9 (g.length * 64
    + (List.range 6).foldl (fun acc m => acc * 2 + (g.getD m false).toNat) 0)

/-- The 3-bit index: `b0` is its most significant bit (R15). -/
def indexOfBits (b0 b1 b2 : Bool) : Nat := b0.toNat * 4 + b1.toNat * 2 + b2.toNat

/-- The three bits of an index, most significant first (R15). -/
def bitsOfIndex (idx : Nat) : BitGroup := [idx.testBit 2, idx.testBit 1, idx.testBit 0]

/-- The receive sample index `n = RX_K * SAMPLES_PER_SYMBOL + RX_J`, in 64 bits (R93). -/
def State.rxIndex (s : State) : Word :=
  s.rxK.setWidth 64 * s.samplesPerSymbol.setWidth 64 + s.rxJ.setWidth 64

/-- `FAULT_INFO` of a wrong-length group: length in 2:0, expected length in 6:4, bits in 13:8 (R154, R243). -/
def bitgroupLenInfo (b : Beat) (expected : Nat) : Word :=
  BitVec.ofNat 64 ((beatLen b).toNat + 16 * expected + 256 * (beatBits b).toNat)

end Sys2Proof.Machine
end

