-- ==== Sys2Proof/Machine/Ops.lean ====
section
/-! DEFINITION. The named operations over the state: taking a fault (60_exceptions.md R248) and the one way out of it
(40_control.md R133), the queues, buffers and output sequences (00_scope.md R12), and what a primitive step can
answer. -/

namespace Sys2Proof.Machine

/-- `raise Fault(CODE, info)` of R248, the block's whole trap entry: the first fault is recorded (R249), and the
command in flight is dropped. Nothing else changes. -/
def State.raiseFault (s : State) (c : FaultCode) (info : Word) : State :=
  { s with
    faultCode := if s.faulted then s.faultCode else c
    faultInfo := if s.faulted then s.faultInfo else info
    cur := Cur.idle }

/-- `SRESET`, R133: every piece of the block's state takes its reset value but TXOUT and BITOUT (R272); what the other
agents will do, and where the script's latest run began, is not the block's and stays (R273; log entries 11 and 15). It
is the only return from the faulted state (R252). -/
def State.softReset (s : State) : State :=
  { State.reset with
    txout := s.txout
    bitout := s.bitout
    turns := s.turns
    hostActs := s.hostActs
    hostData := s.hostData
    bitSupply := s.bitSupply
    sampleSupply := s.sampleSupply
    sinkReplies := s.sinkReplies
    runStart := s.runStart }

/-- `MemRead(n)` of R74: the sample at a global index below `RX_AVAIL`. -/
def State.memRead (s : State) (n : Word) : Option Sample :=
  if n < s.rxAvail then s.rxbuf[n.toNat]? else none

/-- `MemWrite(RX_AVAIL, (t, a))` of R75: appends; `RX_AVAIL`, the length, grows by one. -/
def State.memAppend (s : State) (x : Sample) : State := { s with rxbuf := s.rxbuf ++ [x] }

/-- The bit source's push of R80, at the tail of BGQ. -/
def State.bgPush (s : State) (b : Beat) : State := { s with bgq := s.bgq ++ [b] }

/-- `BitEmit(g)` of R84: the bits of the group, `b0` first. -/
def State.bitEmit (s : State) (g : BitGroup) : State := { s with bitout := s.bitout ++ g }

/-- What the sample sink answers to the next beat: the head of its replies; `ok` when they have run out, the named
assumption "the store is always writable" (R82; log entry 9). -/
def State.sinkReply (s : State) : SinkReply := s.sinkReplies.headD .ok

/-- The state after the sink has used one reply. -/
def State.sinkReplied (s : State) : State := { s with sinkReplies := s.sinkReplies.tail }

/-- What a primitive step can answer (R134, R250, R257). -/
inductive StepAnswer where
  /-- performed: the state after it -/
  | done (s : State)
  /-- not enabled, or still waiting for the sink: the step stays at the head of `todo` -/
  | hold (s : State)
  /-- raises a fault, having written nothing -/
  | raised (s : State) (c : FaultCode) (info : Word)
  /-- the model stops -/
  | stuck (f : Fault)
  deriving Repr

/-- Removes the head of `todo`; when that leaves it empty the block is idle again (R134). -/
def State.retire (s : State) : State :=
  { s with cur :=
      match s.cur.todo with
      | _ :: p :: rest => ⟨s.cur.op, p :: rest⟩
      | _ => Cur.idle }

end Sys2Proof.Machine
end

