-- ==== Sys2Proof/Machine/StreamPorts.lean ====
section
/-! DEFINITION. The input ports: BG_IN (20_memory.md R80) and SAMPLE_IN (R81). A beat that is not accepted stays with
its supplier, which waits (R92; log entry 13). -/

namespace Sys2Proof.Machine

/-- BG_IN accepts a beat when not faulted and BGQ is not full (R80). -/
def State.bgAccepts (s : State) : Bool := !s.faulted && decide (s.bgq.length < Config.bgqDepth)

/-- SAMPLE_IN accepts a beat when not faulted, not busy and RXBUF is not full (R81). -/
def State.sampleAccepts (s : State) : Bool :=
  !s.faulted && !s.busy && decide (s.rxAvail.toNat < Config.rxbufDepth)

/-- A turn of the bit source: it pushes its next beat, if it has one and the port accepts it (R80). -/
def bitSourceTurn (s : State) : State :=
  match s.bitSupply with
  | [] => s
  | b :: rest => if s.bgAccepts then { s.bgPush b with bitSupply := rest } else s

/-- A turn of the sample source: it pushes its next beat, if it has one and the port accepts it; an error beat writes
nothing and raises `Fault(STORE, 0)` (R81, R242). -/
def sampleSourceTurn (s : State) : State :=
  match s.sampleSupply with
  | [] => s
  | x :: rest =>
    if s.sampleAccepts then
      if x.err then { s.raiseFault .store 0 with sampleSupply := rest }
      else { s.memAppend ⟨x.time, x.amp⟩ with sampleSupply := rest }
    else s

end Sys2Proof.Machine
end

