-- ==== Sys2Proof/Machine/Store.lean ====
section
/-! DEFINITION. The platform function `STORE` of 20_memory.md R86, in its two named instances, and the script's
pseudo-commands (30_encoding.md R112). This is the platform, not the block: no step of the block uses it. -/

namespace Sys2Proof.Machine

/-- The samples appended to TXOUT since the last `TXINIT` or `GENRUN` start, an `SRESET` since then or not (R112, R272);
all of TXOUT before the first such start (log entry 15). -/
def State.lastRun (s : State) : List Sample := s.txout.drop s.runStart

/-- `STORE_IDEAL`: the identity (R86). -/
def storeIdeal (l : List Sample) : List InBeat := l.map fun x => ⟨x.time, x.amp, false⟩

/-- The amplitude that comes back through six decimal digits: to the nearest multiple of 10^-6 (ties to even) and to
the nearest binary64 of that, sign kept; left open for a NaN or an infinity (R86, 93_implementation_defined.md part 3
item 6; log entry 15). -/
def text6Amp (a : F64) : F64 :=
  if isfinite a then
    pack (fsign a) (roundMag (divNearestEven (units a * 10 ^ 6) unitsPerOne * unitsPerOne) (10 ^ 6))
  else Config.text6NonFinite a

/-- `STORE_TEXT6`: the amplitude through six decimal digits; the time field is not specified (R86). -/
def storeText6 (l : List Sample) : List InBeat := l.map fun x => ⟨Config.text6Time x.time, text6Amp x.amp, false⟩

/-- `CFG`: the host's five register writes and `CONFIGURE`, in the order of the source's field list (R112). -/
def cfgLines (symbolCount fc fs samplesPerSymbol modulation : Word) : List HostAction :=
  [.write 64 0x20 symbolCount, .write 64 0x28 fc, .write 64 0x30 fs, .write 64 0x38 samplesPerSymbol,
    .write 64 0x40 modulation, .command (encode .configure)]

/-- `BITS`: the flat bit list cut into groups of the scheme's length, one beat per group, in order; bits left over make a
last, shorter group (R112; log entry 15). -/
def bitsBeats (sch : Scheme) (bits : List Bool) : List Beat :=
  let n := bitsPerSymbol sch
  (List.range ((bits.length + n - 1) / n)).map fun k => beatOfGroup ((bits.drop (k * n)).take n)

/-- `LOOPBACK <store>`: the store's beats for the last run are what the sample source will push next (R112). -/
def State.loopback (s : State) (store : List Sample → List InBeat) : State :=
  { s with sampleSupply := s.sampleSupply ++ store s.lastRun }

/-- `LOOPBACK <store>, <count>`: only the first `count` beats, a truncated store (R112). -/
def State.loopbackFirst (s : State) (store : List Sample → List InBeat) (count : Nat) : State :=
  { s with sampleSupply := s.sampleSupply ++ (store s.lastRun).take count }

end Sys2Proof.Machine
end

