-- ==== Sys2Proof/Machine/Control.lean ====
section
/-! DEFINITION. The primitive steps of the control commands (40_control.md R131, R132). -/

namespace Sys2Proof.Machine

/-- The step of `NOP`: nothing (R131). -/
def stepNop (s : State) : StepAnswer := .done s

/-- The step of `CONFIGURE`: all checks, then the lock (R132). -/
def stepConfigure (s : State) : StepAnswer :=
  if configMask s = 0 then .done { s with locked := true }
  else .raised s .config (BitVec.ofNat 64 (configMask s))

end Sys2Proof.Machine
end

