-- ==== Sys2Proof/Machine/Correlator.lean ====
section
/-! DEFINITION. The matched-filter correlator (spec/43_correlator.md). -/

namespace Sys2Proof.Machine

/-- The step of `RXINIT` (R190). -/
def stepRxinit (s : State) : StepAnswer :=
  .done { s with rxK := 0, rxJ := 0, isum := fzero false, qsum := fzero false }

/-- The step of `ACCLR` (R191): the sums to positive zero, `RX_K` kept. -/
def stepAcclr (s : State) : StepAnswer :=
  .done { s with rxJ := 0, isum := fzero false, qsum := fzero false }

/-- The I sum after the sample at `n`: unchanged where there is none (R192, R193, R196). -/
def State.isumAfter (s : State) (n : Word) : F64 :=
  match s.memRead n with
  | some x => fadd s.isum (fmul x.amp (ncoCos n.toNat s.fc s.fs))
  | none => s.isum

/-- The Q sum after the sample at `n`: unchanged where there is none (R192, R193, R196). -/
def State.qsumAfter (s : State) (n : Word) : F64 :=
  match s.memRead n with
  | some x => fadd s.qsum (fmul x.amp (ncoSin n.toNat s.fc s.fs))
  | none => s.qsum

/-- The step of `CORR` (R192): raises when the window is already complete; accumulates the sample at the window
position when there is one, its stored time unread; the position advances either way. -/
def stepCorr (s : State) : StepAnswer :=
  if s.samplesPerSymbol ≤ s.rxJ then .raised s .sequence 0x32
  else .done { s with
    isum := s.isumAfter s.rxIndex
    qsum := s.qsumAfter s.rxIndex
    rxJ := s.rxJ + 1 }

/-- The step of `AVG` (R194): always by the configured `SAMPLES_PER_SYMBOL`. -/
def stepAvg (s : State) : StepAnswer :=
  .done { s with
    iavg := fdiv s.isum (u2f s.samplesPerSymbol.toNat)
    qavg := fdiv s.qsum (u2f s.samplesPerSymbol.toNat) }

end Sys2Proof.Machine
end

