-- ==== Sys2Proof/Machine/Mapper.lean ====
section
/-! DEFINITION. The symbol mapper (spec/41_symbol_mapper.md). -/

namespace Sys2Proof.Machine

/-- The phase a QPSK pair selects (R151). -/
def qpskPhase (b0 b1 : Bool) : F64 :=
  match b0, b1 with
  | false, false => constPHASE_1
  | false, true => constPHASE_3
  | true, true => constPHASE_5
  | true, false => constPHASE_7

/-- `MapQPSK` of R151. -/
def mapQpsk (b0 b1 : Bool) : F64 × F64 :=
  (fmul constSQRT2 (Config.cos (qpskPhase b0 b1)), fmul constSQRT2 (Config.sin (qpskPhase b0 b1)))

/-- `lev2` of R152. -/
def lev2 (x0 x1 : Bool) : F64 :=
  match x0, x1 with
  | false, false => 0xC008000000000000
  | false, true => 0xBFF0000000000000
  | true, true => 0x3FF0000000000000
  | true, false => 0x4008000000000000

/-- The level `-7 + 2 * idx`, converted exactly (R15, R153); also the reference level `REF[idx]` of R217. -/
def levelOfIndex (idx : Nat) : F64 := i2f (-7 + 2 * (idx : Int))

/-- `lev3` of R153. -/
def lev3 (x0 x1 x2 : Bool) : F64 := levelOfIndex (indexOfBits x0 x1 x2)

/-- The level pair of the group in a `BITS` field, cut as R109 says: `MapQPSK`, `MapQAM16` (R152) or `MapQAM64` (R153). -/
def mapLevels (sch : Scheme) (bits : BitVec 6) : F64 × F64 :=
  let b := groupBit bits
  match sch with
  | .qpsk => mapQpsk (b 0) (b 1)
  | .qam16 => (lev2 (b 0) (b 1), lev2 (b 2) (b 3))
  | .qam64 => (lev3 (b 0) (b 1) (b 2), lev3 (b 3) (b 4) (b 5))

/-- The step of `MAP` (R150): holds on an empty BGQ; raises on a wrong length with nothing written and the beat left
where it is (R154); otherwise pops the beat and writes `TXBITS`, `LVL_I`, `LVL_Q`. -/
def stepMap (s : State) : StepAnswer :=
  match s.bgq with
  | [] => .hold s
  | beat :: rest =>
    match schemeOfCode s.modulation with
    | none => .stuck .reservedModulation
    | some sch =>
      if (beatLen beat).toNat = bitsPerSymbol sch then
        .done { s with
          bgq := rest
          txbits := beat
          lvlI := (mapLevels sch (beatBits beat)).1
          lvlQ := (mapLevels sch (beatBits beat)).2 }
      else .raised s .bitgroupLen (bitgroupLenInfo beat (bitsPerSymbol sch))

end Sys2Proof.Machine
end

