-- ==== Sys2Proof/Machine/Mixer.lean ====
section
/-! DEFINITION. The oscillator and carrier mixer (spec/42_nco_mixer.md). -/

namespace Sys2Proof.Machine

/-- The step of `TXINIT` (R170); the script's run begins here (R112). -/
def stepTxinit (s : State) : StepAnswer := .done { s with txN := 0, txK := 0, runStart := s.txout.length }

/-- The amplitude `I·cos + Q·sin` of the sample of index `n`, three roundings (R171). -/
def mixAmp (i q : F64) (n : Nat) (fc fs : F64) : F64 :=
  fadd (fmul i (ncoCos n fc fs)) (fmul q (ncoSin n fc fs))

/-- The sample of index `n` for the levels `i`, `q` (R171). -/
def mixSample (i q : F64) (n : Nat) (fc fs : F64) : Sample := ⟨ncoTime n fs, mixAmp i q n fc fs⟩

/-- The sample that `MIX` emits in a state. -/
def State.nextSample (s : State) : Sample := mixSample s.lvlI s.lvlQ s.txN.toNat s.fc s.fs

/-- The step of `MIX` (R171): offers the sample of index `TX_N` to the sink; when the sink takes it, the sample is in
TXOUT and `TX_N` is one more; when it refuses, `Fault(STORE, 1)` and nothing written (R82); while it has not answered,
the step waits, and for ever where it never answers (R258). -/
def stepMix (s : State) : StepAnswer :=
  match s.sinkReply with
  | .ok => .done { s.sinkReplied with txout := s.txout ++ [s.nextSample], txN := s.txN + 1 }
  | .error => .raised s.sinkReplied .store 1
  | .pending => .hold s.sinkReplied
  | .never => .hold s

/-- The internal step `TXKINC`, modulo 2^32 (40_control.md R134). -/
def stepTxkinc (s : State) : StepAnswer := .done { s with txK := s.txK + 1 }

end Sys2Proof.Machine
end

