-- ==== Sys2Proof/Machine/Quantizer.lean ====
section
/-! DEFINITION. The decision-boundary quantizer (spec/44_decision_quantizer.md). -/

namespace Sys2Proof.Machine

/-- `QPSK_QUADRANT_BITS` of R214, by quadrant, as the source writes it (90_conflicts.md C1, 92_eei_decisions.md D27). -/
def qpskQuadrantBits : List BitGroup := [[true, false], [false, false], [false, true], [true, true]]

/-- The normalised angle of R214: `+0` at the origin, of whatever signs (R213); otherwise `NUM.atan2(q, i)`, and
`TWO_PI` more when it is negative. -/
def qpskAngle (i q : F64) : F64 :=
  if feq i (fzero false) && feq q (fzero false) then fzero false
  else if flt (Config.atan2 q i) (fzero false) then fadd (Config.atan2 q i) constTWO_PI
  else Config.atan2 q i

/-- The quadrant of a normalised angle: each interval closed below, and the last one everything not below
`THREE_HALF_PI`, a NaN among it (R214's pseudocode, C4). DESIGN CHOICE (log entry 18): R214's prose says that any value of
`NUM.atan2` outside its expected range ends in the last line, but its pseudocode sends one below `THREE_HALF_PI` (4.0, or
-10.0, which `TWO_PI` is added to once) to an earlier line; the model follows the pseudocode. -/
def quadrantOfAngle (a : F64) : Nat :=
  if flt a constHALF_PI then 0
  else if flt a constPI then 1
  else if flt a constTHREE_HALF_PI then 2
  else 3

/-- `DecQPSK` of R214. -/
def decQpsk (i q : F64) : BitGroup := qpskQuadrantBits.getD (quadrantOfAngle (qpskAngle i q)) []

/-- `DecQAM16` of R215: each threshold belongs to the interval above it. -/
def decQam16 (v : F64) : BitGroup :=
  if flt v 0xC000000000000000 then [false, false]
  else if flt v (fzero false) then [false, true]
  else if flt v 0x4000000000000000 then [true, true]
  else [true, false]

/-- The distance to reference level `m`, computed with one rounding (R217). -/
def refDistance (v : F64) (m : Nat) : F64 := fabs (fsub v (levelOfIndex m))

/-- The ascending nearest-level search of R217, from index 0 with its own distance; an equal distance does not
replace the best so far. -/
def nearestIndex (v : F64) : Nat :=
  ((List.range' 1 7).foldl
    (fun best m => if flt (refDistance v m) best.2 then (m, refDistance v m) else best)
    (0, refDistance v 0)).1

/-- `DecQAM64` of R217. -/
def decQam64 (v : F64) : BitGroup := bitsOfIndex (nearestIndex v)

/-- The group decided for a pair of averages: I bits first (R210). -/
def decideGroup (sch : Scheme) (i q : F64) : BitGroup :=
  match sch with
  | .qpsk => decQpsk i q
  | .qam16 => decQam16 i ++ decQam16 q
  | .qam64 => decQam64 i ++ decQam64 q

/-- The step of `DECIDE` (R210): the operand test first (R211, R212), then `RXBITS` and the bits out. -/
def stepDecide (s : State) : StepAnswer :=
  match schemeOfCode s.modulation with
  | none => .stuck .reservedModulation
  | some sch =>
    if nonFiniteMask sch s.iavg s.qavg = 0 then
      .done ({ s with rxbits := beatOfGroup (decideGroup sch s.iavg s.qavg) }.bitEmit (decideGroup sch s.iavg s.qavg))
    else .raised s .nonfinite (BitVec.ofNat 64 (nonFiniteMask sch s.iavg s.qavg))

end Sys2Proof.Machine
end

