-- ==== Sys2Proof/Machine/Sequencer.lean ====
section
/-! DEFINITION. How a command is accepted and executed (40_control.md R130, R134), and the internal step of the
demodulation sequencer. -/

namespace Sys2Proof.Machine

/-- The internal step `RXKINC`, modulo 2^32 (R134). -/
def stepRxkinc (s : State) : StepAnswer := .done { s with rxK := s.rxK + 1 }

/-- One primitive step, as its own rule says (R134). -/
def primStep (p : Prim) (s : State) : StepAnswer :=
  match p with
  | .nop => stepNop s
  | .configure => stepConfigure s
  | .map => stepMap s
  | .txinit => stepTxinit s
  | .mix => stepMix s
  | .txkinc => stepTxkinc s
  | .rxinit => stepRxinit s
  | .acclr => stepAcclr s
  | .corr => stepCorr s
  | .avg => stepAvg s
  | .decideStep => stepDecide s
  | .rxkinc => stepRxkinc s

/-- The steps of `GENSYM` for a symbol of `sps` samples (R134, R172). -/
def gensymSteps (sps : Nat) : List Prim := [.map] ++ List.replicate sps .mix ++ [.txkinc]

/-- The steps of `CORRWIN` for a window of `sps` samples (R134, R195). -/
def corrwinSteps (sps : Nat) : List Prim := [.acclr] ++ List.replicate sps .corr ++ [.avg]

/-- The steps of `DEMSYM` (R134, R230). -/
def demsymSteps (sps : Nat) : List Prim := corrwinSteps sps ++ [.decideStep] ++ [.rxkinc]

/-- A sequence of steps repeated. -/
def repeatSteps (n : Nat) (l : List Prim) : List Prim := (List.replicate n l).flatten

/-- `expand(op)` of R134, from the configuration at the moment of acceptance. `SRESET` has no step: it is performed at
once (R133). -/
def expand (i : Instr) (s : State) : List Prim :=
  let sps := s.samplesPerSymbol.toNat
  let nsym := s.symbolCount.toNat
  match i with
  | .nop => [.nop]
  | .configure => [.configure]
  | .sreset => []
  | .map => [.map]
  | .txinit => [.txinit]
  | .mix => [.mix]
  | .gensym => gensymSteps sps
  | .genrun => [.txinit] ++ repeatSteps nsym (gensymSteps sps)
  | .rxinit => [.rxinit]
  | .acclr => [.acclr]
  | .corr => [.corr]
  | .avg => [.avg]
  | .corrwin => corrwinSteps sps
  | .decideCmd => [.decideStep]
  | .demsym => demsymSteps sps
  | .demrun => [.rxinit] ++ repeatSteps nsym (demsymSteps sps)

/-- Whether the lock lets a command in: `NOP` and `SRESET` always, `CONFIGURE` only while unlocked, the thirteen
datapath commands only while locked (R130 line 5; the "needs" column of 30_encoding.md R102). -/
def lockAdmits (i : Instr) (s : State) : Bool :=
  match i with
  | .nop => true
  | .sreset => true
  | .configure => !s.locked
  | .map | .txinit | .mix | .gensym | .genrun => s.locked
  | .rxinit | .acclr | .corr | .avg | .corrwin => s.locked
  | .decideCmd | .demsym | .demrun => s.locked

/-- Whether a command other than `SRESET` is accepted: not faulted, not busy, and the lock admits it (R130). -/
def accepts (i : Instr) (s : State) : Bool := !s.faulted && !s.busy && lockAdmits i s

/-- Acceptance: the command is in flight with all its steps to make (R130 line 6). -/
def State.accepted (s : State) (i : Instr) : State := { s with cur := ⟨some i, expand i s⟩ }

/-- A command that is not accepted: ignored in the faulted state (R130 line 2), `Fault(SEQUENCE, v)` otherwise (lines 3
and 5). -/
def State.turnedAway (s : State) (i : Instr) : State :=
  if s.faulted then s else s.raiseFault .sequence (encode i)

/-- A word that is no command: ignored in the faulted state, `SEQUENCE` while busy, `ILLEGAL_CMD` otherwise (R130
lines 2 to 4). -/
def State.illegalWord (s : State) (v : Word) : State :=
  if s.faulted then s
  else if s.busy then s.raiseFault .sequence v
  else s.raiseFault .illegalCmd v

/-- The write of a command's word to `CMD` (R130). -/
def issue (i : Instr) (s : State) : State :=
  match i with
  | .sreset => s.softReset
  | _ => if accepts i s then s.accepted i else s.turnedAway i

/-- The write of any value to `CMD` (R130). -/
def writeCmd (v : Word) (s : State) : State :=
  match decode v with
  | .ok i => issue i s
  | .error _ => s.illegalWord v

/-- The block's one action (R134): the head step, if there is one. A step that raises ends the command (R248). -/
def blockStep (s : State) : Host.Outcome State Fault Refusal :=
  match s.cur.todo with
  | [] => .next s
  | p :: _ =>
    match primStep p s with
    | .done s' => .next s'.retire
    | .hold s' => .next s'
    | .raised s' c info => .next (s'.raiseFault c info)
    | .stuck f => .fault f

/-- `n` actions of the block, one after the other. -/
def blockRun : Nat → State → Host.Outcome State Fault Refusal
  | 0, s => .next s
  | n + 1, s =>
    match blockStep s with
    | .next s' => blockRun n s'
    | .fault f => .fault f
    | .refused r => .refused r

/-- Actions enough for a command to end, or to come to a step that waits for ever while nobody else acts: one for each of
its primitive steps, and one for each time the sink can answer late. -/
def enoughActions (i : Instr) (s : State) : Nat := (expand i s).length + s.sinkReplies.length

/-- A command issued and waited for, nobody else acting meanwhile: its acceptance, and the block's actions until it ends
or can go no further (R111 line `<mnemonic>`, R130, R134; log entry 2). -/
def runCommand (i : Instr) (s : State) : Host.Outcome State Fault Refusal :=
  if accepts i s then blockRun (enoughActions i s) (s.accepted i) else .next (s.turnedAway i)

end Sys2Proof.Machine
end

