-- ==== Sys2Proof/Machine/Commands.lean ====
section
/-! DEFINITION. The meanings of the sixteen commands (30_encoding.md R102): what the command's word, written to `CMD` and
waited for, does to the state. What a command's steps do is in the file of its unit. -/

namespace Sys2Proof.Machine

/-- `NOP` (R131): nothing beyond `BUSY` rising and falling. -/
def execNop (s : State) : Host.Outcome State Fault Refusal := runCommand .nop s

/-- `CONFIGURE` (R132): checks the configuration registers and locks them. -/
def execConfigure (s : State) : Host.Outcome State Fault Refusal := runCommand .configure s

/-- `SRESET` (R133): performed at once, in every state. -/
def execSreset (s : State) : Host.Outcome State Fault Refusal := .next s.softReset

/-- `MAP` (R150): pops one bit group, writes `LVL_I`, `LVL_Q`. -/
def execMap (s : State) : Host.Outcome State Fault Refusal := runCommand .map s

/-- `TXINIT` (R170): `TX_N` and `TX_K` to 0. -/
def execTxinit (s : State) : Host.Outcome State Fault Refusal := runCommand .txinit s

/-- `MIX` (R171): emits one sample at index `TX_N`. -/
def execMix (s : State) : Host.Outcome State Fault Refusal := runCommand .mix s

/-- `GENSYM` (R172): `MAP`, `SAMPLES_PER_SYMBOL` times `MIX`, `TX_K + 1`. -/
def execGensym (s : State) : Host.Outcome State Fault Refusal := runCommand .gensym s

/-- `GENRUN` (R173): `TXINIT`, `SYMBOL_COUNT` times `GENSYM`. -/
def execGenrun (s : State) : Host.Outcome State Fault Refusal := runCommand .genrun s

/-- `RXINIT` (R190): `RX_K`, `RX_J` and the sums to 0. -/
def execRxinit (s : State) : Host.Outcome State Fault Refusal := runCommand .rxinit s

/-- `ACCLR` (R191): `RX_J` and the sums to 0. -/
def execAcclr (s : State) : Host.Outcome State Fault Refusal := runCommand .acclr s

/-- `CORR` (R192): correlates one sample of the window of symbol `RX_K`. -/
def execCorr (s : State) : Host.Outcome State Fault Refusal := runCommand .corr s

/-- `AVG` (R194): the averages from the sums. -/
def execAvg (s : State) : Host.Outcome State Fault Refusal := runCommand .avg s

/-- `CORRWIN` (R195): `ACCLR`, `SAMPLES_PER_SYMBOL` times `CORR`, `AVG`. -/
def execCorrwin (s : State) : Host.Outcome State Fault Refusal := runCommand .corrwin s

/-- `DECIDE` (R210): maps `(IAVG, QAVG)` to a bit group and emits it. -/
def execDecide (s : State) : Host.Outcome State Fault Refusal := runCommand .decideCmd s

/-- `DEMSYM` (R230): `CORRWIN`, `DECIDE`, `RX_K + 1`. -/
def execDemsym (s : State) : Host.Outcome State Fault Refusal := runCommand .demsym s

/-- `DEMRUN` (R231): `RXINIT`, `SYMBOL_COUNT` times `DEMSYM`. -/
def execDemrun (s : State) : Host.Outcome State Fault Refusal := runCommand .demrun s

end Sys2Proof.Machine
end

