-- ==== Sys2Proof/Machine/Dispatch.lean ====
section
/-! DEFINITION. One arm per command. -/

namespace Sys2Proof.Machine

def exec (i : Instr) (s : State) : Host.Outcome State Fault Refusal :=
  match i with
  | .nop => Sys2Proof.Machine.execNop s
  | .configure => Sys2Proof.Machine.execConfigure s
  | .sreset => Sys2Proof.Machine.execSreset s
  | .map => Sys2Proof.Machine.execMap s
  | .txinit => Sys2Proof.Machine.execTxinit s
  | .mix => Sys2Proof.Machine.execMix s
  | .gensym => Sys2Proof.Machine.execGensym s
  | .genrun => Sys2Proof.Machine.execGenrun s
  | .rxinit => Sys2Proof.Machine.execRxinit s
  | .acclr => Sys2Proof.Machine.execAcclr s
  | .corr => Sys2Proof.Machine.execCorr s
  | .avg => Sys2Proof.Machine.execAvg s
  | .corrwin => Sys2Proof.Machine.execCorrwin s
  | .decideCmd => Sys2Proof.Machine.execDecide s
  | .demsym => Sys2Proof.Machine.execDemsym s
  | .demrun => Sys2Proof.Machine.execDemrun s

end Sys2Proof.Machine
end

