-- ==== Sys2Proof/Machine/RegisterPort.lean ====
section
/-! DEFINITION. The host's register accesses (20_memory.md R72, R73, R77, R79, R92; 10_state.md R32). -/

namespace Sys2Proof.Machine

/-- The register map of R72: the register at a byte offset; every other offset is reserved. -/
def regAtOffset (off : Word) : Option Reg :=
  match off.toNat with
  | 0x00 => some .cmd
  | 0x08 => some .status
  | 0x10 => some .fault
  | 0x18 => some .faultInfo
  | 0x20 => some .symbolCount
  | 0x28 => some .fc
  | 0x30 => some .fs
  | 0x38 => some .samplesPerSymbol
  | 0x40 => some .modulation
  | 0x48 => some .txbits
  | 0x50 => some .lvlI
  | 0x58 => some .lvlQ
  | 0x60 => some .txK
  | 0x68 => some .txN
  | 0x70 => some .rxAvail
  | 0x78 => some .rxK
  | 0x80 => some .rxJ
  | 0x88 => some .isum
  | 0x90 => some .qsum
  | 0x98 => some .iavg
  | 0xA0 => some .qavg
  | 0xA8 => some .rxbits
  | _ => none

/-- The register an access reaches: only one whole 64-bit word (R73) at a multiple of 8 (R77) of the map (R79). -/
def regOfAccess (size : Nat) (off : Word) : Option Reg :=
  if size = 64 && off.toNat % 8 = 0 then regAtOffset off else none

/-- All 64 bits of a register, unimplemented bits zero (R32); `CMD` reads as zero (R39). -/
def State.readReg (s : State) (r : Reg) : Word :=
  match r with
  | .cmd => 0
  | .status => s.statusWord
  | .fault => s.faultWord
  | .faultInfo => s.faultInfo
  | .symbolCount => s.symbolCount.setWidth 64
  | .fc => s.fc
  | .fs => s.fs
  | .samplesPerSymbol => s.samplesPerSymbol.setWidth 64
  | .modulation => s.modulation.setWidth 64
  | .txbits => s.txbits.setWidth 64
  | .lvlI => s.lvlI
  | .lvlQ => s.lvlQ
  | .txK => s.txK.setWidth 64
  | .txN => s.txN
  | .rxAvail => s.rxAvail
  | .rxK => s.rxK.setWidth 64
  | .rxJ => s.rxJ.setWidth 64
  | .isum => s.isum
  | .qsum => s.qsum
  | .iavg => s.iavg
  | .qavg => s.qavg
  | .rxbits => s.rxbits.setWidth 64

/-- "While unlocked" of R72: `LOCKED = 0`, `BUSY = 0`, `FAULTED = 0`. -/
def State.configOpen (s : State) : Bool := !s.locked && !s.busy && !s.faulted

/-- "While idle" of R72: `BUSY = 0`, `FAULTED = 0`. -/
def State.dataOpen (s : State) : Bool := !s.busy && !s.faulted

/-- The state after an accepted write of a register other than `CMD`; none where the register gives no write access,
where its access is closed in this state, or where the value has a 1 in a bit the register does not implement (R32,
R79, R92). -/
def State.storeReg (s : State) (r : Reg) (v : Word) : Option State :=
  match r with
  | .symbolCount =>
    if s.configOpen && v.toNat < 2 ^ 32 then some { s with symbolCount := v.setWidth 32 } else none
  | .fc => if s.configOpen then some { s with fc := v } else none
  | .fs => if s.configOpen then some { s with fs := v } else none
  | .samplesPerSymbol =>
    if s.configOpen && v.toNat < 2 ^ 32 then some { s with samplesPerSymbol := v.setWidth 32 } else none
  | .modulation => if s.configOpen && v.toNat < 2 ^ 2 then some { s with modulation := v.setWidth 2 } else none
  | .lvlI => if s.dataOpen then some { s with lvlI := v } else none
  | .lvlQ => if s.dataOpen then some { s with lvlQ := v } else none
  | .iavg => if s.dataOpen then some { s with iavg := v } else none
  | .qavg => if s.dataOpen then some { s with qavg := v } else none
  | .cmd | .status | .fault | .faultInfo | .txbits | .txK | .txN | .rxAvail | .rxK | .rxJ => none
  | .isum | .qsum | .rxbits => none

/-- `RegRead`: in every state, without a side effect on the block (R78, R79); a refused read returns no data and raises
`Fault(ACCESS, offset)` (R73, R247). -/
def hostRead (size : Nat) (off : Word) (s : State) : State :=
  match regOfAccess size off with
  | some r => { s with hostData := some (s.readReg r) }
  | none => { s.raiseFault .access off with hostData := none }

/-- `RegWrite`: of `CMD`, R130; of another register, the write where it is accepted, and `Fault(ACCESS, offset)` where
it is not (R92, R247). -/
def hostWrite (size : Nat) (off v : Word) (s : State) : State :=
  match regOfAccess size off with
  | some .cmd => writeCmd v s
  | some r => (s.storeReg r v).getD (s.raiseFault .access off)
  | none => s.raiseFault .access off

end Sys2Proof.Machine
end

