-- ==== Sys2Proof/Machine/Turns.lean ====
section
/-! DEFINITION. What the host does at its turn, with the reading of the command it issues, and how a command word is
placed where the next step takes it. -/

namespace Sys2Proof.Machine

/-- A command word written to `CMD` and waited for: the command it stands for is run; a word that is none is handled
as R130 says. -/
def hostCommand (v : Word) (s : State) : Host.Outcome State Fault Refusal :=
  match decode v with
  | .ok i => exec i s
  | .error _ => .next (s.illegalWord v)

/-- A read of `STATUS`; the wait is over when it shows `BUSY = 0` (R111), and otherwise stays the host's next action. -/
def hostWait (rest : List HostAction) (s : State) : State :=
  if s.busy then { s with hostData := some s.statusWord }
  else { s with hostData := some s.statusWord, hostActs := rest }

/-- A turn of the host: its next action, if it has one (R92, R111). -/
def hostTurn (s : State) : Host.Outcome State Fault Refusal :=
  match s.hostActs with
  | [] => .next s
  | .read size off :: rest => .next (hostRead size off { s with hostActs := rest })
  | .write size off v :: rest => .next (hostWrite size off v { s with hostActs := rest })
  | .command v :: rest => hostCommand v { s with hostActs := rest }
  | .wait :: rest => .next (hostWait rest s)

/-- The command word that is the machine's very next action, if it is one: the host's turn, and its next action a
command. -/
def State.fetched (s : State) : Option Word :=
  match s.turns, s.hostActs with
  | .host :: _, .command v :: _ => some v
  | _, _ => none

/-- The state once the fetched command word has been taken. -/
def State.afterFetch (s : State) : State := { s with turns := s.turns.tail, hostActs := s.hostActs.tail }

/-- One transition: the agent whose turn it is acts; when the list of turns has run out, the block does (R30, R87; log
entry 1). -/
def transition (s : State) : Host.Outcome State Fault Refusal :=
  match s.turns with
  | [] => blockStep s
  | .block :: rest => blockStep { s with turns := rest }
  | .host :: rest => hostTurn { s with turns := rest }
  | .bitSource :: rest => .next (bitSourceTurn { s with turns := rest })
  | .sampleSource :: rest => .next (sampleSourceTurn { s with turns := rest })

/-- The host's turn comes next and its next action is the command word `v`. -/
def State.withCommand (s : State) (v : Word) : State :=
  { s with turns := .host :: s.turns, hostActs := .command v :: s.hostActs }

end Sys2Proof.Machine
end

