-- ==== Sys2Proof/Machine/Step.lean ====
section
/-! DEFINITION. The machine's step and the place of its next command. -/

namespace Sys2Proof.Machine

/-- One step of the machine: one action of one agent (10_state.md R30; 70_reset_and_hazards.md R290). -/
def step (s : State) : Host.Outcome State Fault Refusal := transition s

/-- `s` with the command word of an opcode-table row as its very next action: the host's turn, and the host writes that
word to `CMD` and waits. Nothing else changes. There is no instruction memory (R50, R90; log entry 2). -/
def State.withFetchWord (s : State) (nbits w : Nat) : State := s.withCommand (tableWord nbits w)

end Sys2Proof.Machine
end

