-- ==== Sys2Proof/Safety.lean ====
section
/-! DEFINITION. What counts as a good state and as the same block, in the terms the statements use. -/

namespace Sys2Proof.Machine

/-- The block's own state: the fields of the other agents and of the host's side blanked (INVENTORY.md, "State"). -/
def State.blockPart (s : State) : State :=
  { s with
    turns := [], hostActs := [], hostData := none, bitSupply := [], sampleSupply := []
    sinkReplies := [], runStart := 0 }

/-- The machine's very next action is the host's `SRESET`: as a bare write of `CMD`, or as a command (R133). -/
def State.hostResets (s : State) : Prop :=
  ∃ ts as, s.turns = .host :: ts ∧ (s.hostActs = .command 0x02 :: as ∨ s.hostActs = .write 64 0 0x02 :: as)

/-- A locked configuration passed the checks of `CONFIGURE` (R33, R132). -/
def State.lockedConfigLegal (s : State) : Prop := s.locked = true → configMask s = 0

/-- No command is in flight in the faulted state (R248, R249). -/
def State.faultedIsIdle (s : State) : Prop := s.faulted = true → s.cur = Cur.idle

/-- Without a fault there is no fault information (R240: code 0, information 0). -/
def State.noFaultNoInfo (s : State) : Prop := s.faultCode = .none → s.faultInfo = 0

/-- `CUR` is `(IDLE, empty)`, or a command the lock admits with what is left of its expansion (R58, R134, R250). -/
def State.curConsistent (s : State) : Prop :=
  match s.cur.op with
  | none => s.cur.todo = []
  | some i => s.cur.todo ≠ [] ∧ lockAdmits i s = true ∧ s.cur.todo <:+ expand i s

/-- The two input buffers fit their capacities (R54, R55). -/
def State.buffersFit (s : State) : Prop := s.bgq.length ≤ Config.bgqDepth ∧ Memory.wf s.rxbuf

/-- A sum is never negative zero (R193: "a sum that starts at `+0` can never become `-0`"). -/
def State.sumsNotNegZero (s : State) : Prop := s.isum ≠ fzero true ∧ s.qsum ≠ fzero true

/-- Before the configuration is locked no datapath command has run: the registers only such a command writes are as
after reset (R33, R130, R274). -/
def State.unlockedIsUntouched (s : State) : Prop :=
  s.locked = false →
    s.txbits = 0 ∧ s.txK = 0 ∧ s.txN = 0 ∧ s.rxK = 0 ∧ s.rxJ = 0 ∧ s.isum = 0 ∧ s.qsum = 0 ∧ s.rxbits = 0

/-- The window position never passes the window's length (R192, R195). -/
def State.windowInRange (s : State) : Prop := s.rxJ ≤ s.samplesPerSymbol

/-- `TXBITS` and `RXBITS` are as after reset, or hold a group of the scheme's length (R43, R53, R62 (a)). -/
def State.groupsHaveSchemeLength (s : State) : Prop :=
  (s.txbits = 0 ∨ ∃ sch, schemeOfCode s.modulation = some sch ∧ (beatLen s.txbits).toNat = bitsPerSymbol sch) ∧
  (s.rxbits = 0 ∨ ∃ sch, schemeOfCode s.modulation = some sch ∧ (beatLen s.rxbits).toNat = bitsPerSymbol sch)

/-- The script's latest run began at a place of TXOUT that there is (R56, R112). -/
def State.runStartInRange (s : State) : Prop := s.runStart ≤ s.txout.length

/-- The states a run can be in, as far as the spec's prose speaks of them: the invariant every step keeps. -/
structure State.Good (s : State) : Prop where
  lockedConfigLegal : s.lockedConfigLegal
  faultedIsIdle : s.faultedIsIdle
  noFaultNoInfo : s.noFaultNoInfo
  curConsistent : s.curConsistent
  buffersFit : s.buffersFit
  sumsNotNegZero : s.sumsNotNegZero
  unlockedIsUntouched : s.unlockedIsUntouched
  windowInRange : s.windowInRange
  groupsHaveSchemeLength : s.groupsHaveSchemeLength
  runStartInRange : s.runStartInRange

end Sys2Proof.Machine
end

