-- ==== Sys2Proof/Certificates/Slice0/Obligations.lean ====
section
/-! DEFINITION. The statements for the provers, with the few terms they are written in. A statement that gives the whole
next state by an equation says the instruction's frame with it: every field the equation does not name is unchanged. -/

open Sys2Proof Sys2Proof.Machine

namespace Sys2Proof.Claims

/-- A datapath command is accepted in this state: `FAULTED = 0`, `BUSY = 0`, `LOCKED = 1` (R92, R102, R130). -/
def Ready (s : State) : Prop := s.faulted = false ∧ s.busy = false ∧ s.locked = true

/-- The sample sink takes each of the next `n` beats (R82). -/
def SinkTakes (n : Nat) (s : State) : Prop := ∀ r ∈ s.sinkReplies.take n, r = .ok

/-- The fault registers and `CUR` after `raise Fault(c, info)` in a state without a fault (R248). -/
def faultedWith (s : State) (c : FaultCode) (info : Word) : State :=
  { s with faultCode := c, faultInfo := info, cur := Cur.idle }

/-- The opcodes of the thirteen datapath commands (R102). -/
def datapathOpcodes : List Nat :=
  [0x10, 0x20, 0x21, 0x22, 0x23, 0x30, 0x31, 0x32, 0x33, 0x34, 0x40, 0x50, 0x51]

/-- Carrier value of sample `n`, in the order of R20. -/
def carrier (f : F64 → F64) (n : Nat) (fc fs : F64) : F64 := f (fmul (fmul constTWO_PI fc) (fdiv (u2f n) fs))

/-- The `k` samples that levels `i`, `q` give from sample index `n` on (R171, R172). -/
def symbolSamples (i q : F64) (n : Word) (k : Nat) (fc fs : F64) : List Sample :=
  (List.range k).map fun j =>
    let m := (n + BitVec.ofNat 64 j).toNat
    ⟨fdiv (u2f m) fs, fadd (fmul i (carrier Config.cos m fc fs)) (fmul q (carrier Config.sin m fc fs))⟩

/-- The levels of the group in a beat. -/
def beatLevels (sch : Scheme) (b : Beat) : F64 × F64 := mapLevels sch (beatBits b)

/-- The sample at a global index, where there is one (R74). -/
def sampleAt (s : State) (n : Nat) : Option Sample := if n < s.rxAvail.toNat then s.rxbuf[n]? else none

/-- The sum over the window of symbol `k` against one reference: ascending, one running sum from `+0`, missing samples
skipped (R192, R193, R196). -/
def windowSum (f : F64 → F64) (s : State) (k : Nat) : F64 :=
  (List.range s.samplesPerSymbol.toNat).foldl
    (fun acc j =>
      let n := k * s.samplesPerSymbol.toNat + j
      match sampleAt s n with
      | some x => fadd acc (fmul x.amp (carrier f n s.fc s.fs))
      | none => acc)
    (fzero false)

/-- The average of the window of symbol `k`: always by `SAMPLES_PER_SYMBOL` (R194). -/
def windowAvg (f : F64 → F64) (s : State) (k : Nat) : F64 :=
  fdiv (windowSum f s k) (u2f s.samplesPerSymbol.toNat)

/-- The group decided for the window of symbol `k`. -/
def windowGroup (sch : Scheme) (s : State) (k : Nat) : BitGroup :=
  decideGroup sch (windowAvg Config.cos s k) (windowAvg Config.sin s k)

/-- The operand test passes for the window of symbol `k` (R212). -/
def WindowDecidable (sch : Scheme) (s : State) (k : Nat) : Prop :=
  nonFiniteMask sch (windowAvg Config.cos s k) (windowAvg Config.sin s k) = 0

/-- The state after the window of symbol `RX_K` is correlated (R195). -/
def afterWindow (s : State) : State :=
  { s with
    rxJ := s.samplesPerSymbol
    isum := windowSum Config.cos s s.rxK.toNat
    qsum := windowSum Config.sin s s.rxK.toNat
    iavg := windowAvg Config.cos s s.rxK.toNat
    qavg := windowAvg Config.sin s s.rxK.toNat
    cur := Cur.idle }

/-- What a read of a register returns (R72): its word as R32 lays its type out, a narrower register in the low bits with
zeros above. `CMD` reads as zero (R39), `FAULT` as its code (R41), `RX_AVAIL` as the number of samples in RXBUF (R47). The
fields of `STATUS` are the subject of `StatusWordFields`. -/
def registerWord (s : State) : Reg → Word
  | .cmd => 0
  | .status => s.readReg .status
  | .fault =>
    match s.faultCode with
    | .none => 0
    | .config => 1
    | .store => 2
    | .bitgroupLen => 3
    | .nonfinite => 4
    | .illegalCmd => 5
    | .sequence => 6
    | .access => 7
  | .faultInfo => s.faultInfo
  | .symbolCount => s.symbolCount.setWidth 64
  | .fc => s.fc
  | .fs => s.fs
  | .samplesPerSymbol => s.samplesPerSymbol.setWidth 64
  | .modulation => s.modulation.setWidth 64
  | .txbits => s.txbits.setWidth 64
  | .lvlI => s.lvlI
  | .lvlQ => s.lvlQ
  | .txK => s.txK.setWidth 64
  | .txN => s.txN
  | .rxAvail => BitVec.ofNat 64 s.rxbuf.length
  | .rxK => s.rxK.setWidth 64
  | .rxJ => s.rxJ.setWidth 64
  | .isum => s.isum
  | .qsum => s.qsum
  | .iavg => s.iavg
  | .qavg => s.qavg
  | .rxbits => s.rxbits.setWidth 64

/-- The state with every late answer of the sink made a prompt one. -/
def promptSink (s : State) : State := { s with sinkReplies := s.sinkReplies.filter (· ≠ .pending) }

/-- One command after another. -/
def andThen (o : Host.Outcome State Fault Refusal) (f : State → Host.Outcome State Fault Refusal) :
    Host.Outcome State Fault Refusal :=
  match o with
  | .next t => f t
  | .fault r => .fault r
  | .refused r => .refused r

/-- A command issued `n` times. -/
def execTimes (i : Instr) : Nat → State → Host.Outcome State Fault Refusal
  | 0, s => .next s
  | n + 1, s => andThen (exec i s) (execTimes i n)

/-- A finite value greater than zero. -/
def FinitePositive (x : F64) : Prop := isfinite x = true ∧ flt (fzero false) x = true

end Sys2Proof.Claims

open Sys2Proof.Claims

/-! ## Decoding, fetching, reset -/

/-- A step whose next action is a command word runs the command the word decodes to (R130, R111). -/
def Obligations.StepRunsDecodedCommand : Prop :=
  ∀ (s : State) (v : Word) (i : Instr), s.fetched = some v → decode v = .ok i → step s = exec i s.afterFetch

/-- The word placed by `withFetchWord` is the very next command run, and is taken from the inputs. -/
def Obligations.PlacedWordRunsNext : Prop :=
  ∀ (s : State) (i : Instr), step (s.withFetchWord 64 (encode i).toNat) = exec i s

/-- Some words of the opcode map (R102) decode to their commands. -/
def Obligations.ListedWordsDecode : Prop :=
  decode 0x00 = .ok .nop ∧ decode 0x02 = .ok .sreset ∧ decode 0x10 = .ok .map ∧ decode 0x23 = .ok .genrun ∧
  decode 0x32 = .ok .corr ∧ decode 0x40 = .ok .decideCmd ∧ decode 0x51 = .ok .demrun ∧
  decode 0x11 = .error .reservedOpcode ∧ decode 0x100000010 = .error .upperBits

/-- Decoder and encoder agree on all 2^64 words: a word decodes to a command exactly when it is that command's word
(R101 to R103). -/
def Obligations.DecodeIsInverseOfEncode : Prop :=
  ∀ (v : Word) (i : Instr), i.wellFormed = true → (decode v = .ok i ↔ v = encode i)

/-- R76: the byte `k` above the lowest address carries bits `8k+7` to `8k`; any word's bytes decode as the word does. -/
def Obligations.BytesDecodeAsTheirWord : Prop :=
  ∀ v : Word, (bytesOfWord v).length = 8 ∧ (∀ k, k < 8 → (bytesOfWord v)[k]? = some (v.extractLsb' (8 * k) 8)) ∧
    wordOfBytes (bytesOfWord v) = v ∧ decodeBytes (bytesOfWord v) = decode v

/-- R104: the layout of a beat made of a group of at most six bits. -/
def Obligations.BeatLayout : Prop :=
  ∀ g : BitGroup, g.length ≤ 6 →
    (beatOfGroup g).extractLsb' 6 3 = BitVec.ofNat 3 g.length ∧
    (∀ m, m < 6 → (beatOfGroup g).getLsbD (5 - m) = g.getD m false)

/-- R270: after power-on reset every register reads zero, the buffers are empty, no command is in flight. -/
def Obligations.ResetReadsZero : Prop :=
  (∀ r : Reg, State.reset.readReg r = 0) ∧ State.reset.bgq = [] ∧ State.reset.rxbuf = [] ∧
  State.reset.txout = [] ∧ State.reset.bitout = [] ∧ State.reset.cur = Cur.idle

/-! ## The invariant -/

/-- The state after reset is good. -/
def Obligations.ResetIsGood : Prop := State.reset.Good

/-- Every step keeps the good states good. -/
def Obligations.StepKeepsGood : Prop := ∀ s t : State, s.Good → step s = .next t → t.Good

/-- In a good state no step stops the model, and none is refused. -/
def Obligations.GoodStatesNeverStop : Prop := ∀ s : State, s.Good → ∃ t, step s = .next t

/-! ## Acceptance (R130) and faults -/

/-- R130, whole: what a turn of the host that writes any value to `CMD` does in any state, first line that applies
first. -/
def Obligations.CommandAcceptanceOrder : Prop :=
  ∀ (v : Word) (s₀ : State) (ts : List Agent) (as : List HostAction),
    s₀.turns = .host :: ts → s₀.hostActs = .write 64 0 v :: as →
    let s := { s₀ with turns := ts, hostActs := as }
    step s₀ = .next (
      if v = 0x02 then s.softReset
      else if s.faulted then s
      else if s.busy then faultedWith s .sequence v
      else if ¬ (v.toNat ∈ [0x00, 0x01] ++ datapathOpcodes) then faultedWith s .illegalCmd v
      else if v = 0x01 ∧ s.locked = true then faultedWith s .sequence v
      else if v.toNat ∈ datapathOpcodes ∧ s.locked = false then faultedWith s .sequence v
      else match decode v with
        | .ok i => { s with cur := ⟨some i, expand i s⟩ }
        | .error _ => s)

/-- R246 (a) to (c), R249, for a command issued and waited for: turned away while faulted, while busy, and by the lock,
with none of its effect. -/
def Obligations.CommandTurnedAway : Prop :=
  ∀ (i : Instr) (s : State), i ≠ .sreset →
    (s.faulted = true → exec i s = .next s) ∧
    (s.faulted = false → s.busy = true → exec i s = .next (faultedWith s .sequence (encode i))) ∧
    (s.faulted = false → s.busy = false → i = .configure → s.locked = true →
      exec i s = .next (faultedWith s .sequence 0x01)) ∧
    (s.faulted = false → s.busy = false → i ≠ .nop → i ≠ .configure → s.locked = false →
      exec i s = .next (faultedWith s .sequence (encode i)))

/-- R248: what taking a fault does, in both states. -/
def Obligations.RaiseRecordsFirstFault : Prop :=
  ∀ (s : State) (c : FaultCode) (info : Word),
    (s.faulted = false → s.raiseFault c info = { s with faultCode := c, faultInfo := info, cur := Cur.idle }) ∧
    (s.faulted = true → s.raiseFault c info = { s with cur := Cur.idle })

/-- R249: in the faulted state no step but the host's `SRESET` changes anything of the block. -/
def Obligations.FaultedStateIsSticky : Prop :=
  ∀ s t : State, s.faulted = true → s.cur = Cur.idle → ¬ s.hostResets → step s = .next t →
    t.blockPart = s.blockPart

/-- R250: an action of the block that ends in a fault has written nothing but the fault registers and `CUR` (and has at
most used a reply of the sink). -/
def Obligations.BlockFaultIsPrecise : Prop :=
  ∀ s t : State, s.faulted = false → blockStep s = .next t → t.faulted = true →
    ∃ c info, (t = faultedWith s c info) ∨ (t = { faultedWith s c info with sinkReplies := s.sinkReplies.tail })

/-- R258: each action of the busy block makes the work left smaller, but for a `MAP` waiting for a group and a `MIX`
waiting for the sink's answer (late, or never to come), which leave the block as it is. -/
def Obligations.BlockMakesProgress : Prop :=
  ∀ s t : State, s.busy = true → blockStep s = .next t →
    t.cur.todo.length < s.cur.todo.length ∨
    (t.blockPart = s.blockPart ∧
      ((s.cur.todo.head? = some .map ∧ s.bgq = []) ∨
        (s.cur.todo.head? = some .mix ∧ (s.sinkReply = .pending ∨ s.sinkReply = .never))))

/-! ## Control commands -/

/-- R131: `NOP`, accepted whether locked or not, leaves every register as it is. -/
def Obligations.NopChangesNothing : Prop :=
  ∀ s : State, s.faulted = false → s.busy = false → exec .nop s = .next { s with cur := Cur.idle }

/-- R132: `CONFIGURE` in the unlocked state: the mask of all failed checks, or the lock. -/
def Obligations.ConfigureChecksAndLocks : Prop :=
  ∀ s : State, s.faulted = false → s.busy = false → s.locked = false →
    let e := (if s.symbolCount = 0 then 1 else 0) + (if s.samplesPerSymbol = 0 then 2 else 0)
      + (if s.modulation = 3 then 4 else 0) + (if isfinite s.fc = false then 8 else 0)
      + (if isfinite s.fs = false ∨ flt (fzero false) s.fs = false then 16 else 0)
    (e = 0 → exec .configure s = .next { s with locked := true, cur := Cur.idle }) ∧
    (e ≠ 0 → exec .configure s = .next (faultedWith s .config (BitVec.ofNat 64 e)))

/-- R133: `SRESET`, in every state, is power-on reset but for the two output sequences, and touches nothing of the other
agents; what `LOOPBACK` takes (R112) is not reset either (log entry 15). -/
def Obligations.SresetRestoresReset : Prop :=
  ∀ s : State, ∃ t, exec .sreset s = .next t ∧
    t.blockPart = { State.reset with txout := s.txout, bitout := s.bitout } ∧
    (∀ r : Reg, t.readReg r = 0) ∧
    t.turns = s.turns ∧ t.hostActs = s.hostActs ∧ t.hostData = s.hostData ∧ t.bitSupply = s.bitSupply ∧
    t.sampleSupply = s.sampleSupply ∧ t.sinkReplies = s.sinkReplies ∧ t.lastRun = s.lastRun

/-- R33: while the configuration is locked no step but the host's `SRESET` changes it or unlocks it. -/
def Obligations.LockedConfigurationIsFixed : Prop :=
  ∀ s t : State, s.locked = true → ¬ s.hostResets → step s = .next t →
    t.locked = true ∧ t.symbolCount = s.symbolCount ∧ t.fc = s.fc ∧ t.fs = s.fs ∧
    t.samplesPerSymbol = s.samplesPerSymbol ∧ t.modulation = s.modulation

/-- R56, R57, R272: no step, `SRESET` included, shortens or rewrites TXOUT or BITOUT. -/
def Obligations.OutputsOnlyGrow : Prop :=
  ∀ s t : State, step s = .next t → s.txout <+: t.txout ∧ s.bitout <+: t.bitout

/-- R75, R283: between two resets RXBUF only grows, by one sample at a time, and only at a turn of the sample source. -/
def Obligations.ReceiveBufferOnlyGrows : Prop :=
  ∀ s t : State, ¬ s.hostResets → step s = .next t →
    t.rxbuf = s.rxbuf ∨ (s.busy = false ∧ (∃ ts, s.turns = .sampleSource :: ts) ∧ ∃ x, t.rxbuf = s.rxbuf ++ [x])

/-! ## The mapper -/

/-- R150, R151 to R153: `MAP` of a group of the right length under each scheme. -/
def Obligations.MapWritesLevels : Prop :=
  ∀ (s : State) (b : Beat) (rest : List Beat), Ready s → s.bgq = b :: rest →
    (s.modulation = 0 → b.extractLsb' 6 3 = 2 →
      let phase := match b.getLsbD 5, b.getLsbD 4 with
        | false, false => constPHASE_1
        | false, true => constPHASE_3
        | true, true => constPHASE_5
        | true, false => constPHASE_7
      exec .map s = .next { s with
        bgq := rest, txbits := b, cur := Cur.idle
        lvlI := fmul constSQRT2 (Config.cos phase), lvlQ := fmul constSQRT2 (Config.sin phase) }) ∧
    (s.modulation = 1 → b.extractLsb' 6 3 = 4 →
      let lev (x0 x1 : Bool) : F64 := match x0, x1 with
        | false, false => 0xC008000000000000
        | false, true => 0xBFF0000000000000
        | true, true => 0x3FF0000000000000
        | true, false => 0x4008000000000000
      exec .map s = .next { s with
        bgq := rest, txbits := b, cur := Cur.idle
        lvlI := lev (b.getLsbD 5) (b.getLsbD 4), lvlQ := lev (b.getLsbD 3) (b.getLsbD 2) }) ∧
    (s.modulation = 2 → b.extractLsb' 6 3 = 6 →
      let lev (x0 x1 x2 : Bool) : F64 := match x0, x1, x2 with
        | false, false, false => 0xC01C000000000000
        | false, false, true => 0xC014000000000000
        | false, true, false => 0xC008000000000000
        | false, true, true => 0xBFF0000000000000
        | true, false, false => 0x3FF0000000000000
        | true, false, true => 0x4008000000000000
        | true, true, false => 0x4014000000000000
        | true, true, true => 0x401C000000000000
      exec .map s = .next { s with
        bgq := rest, txbits := b, cur := Cur.idle
        lvlI := lev (b.getLsbD 5) (b.getLsbD 4) (b.getLsbD 3), lvlQ := lev (b.getLsbD 2) (b.getLsbD 1) (b.getLsbD 0) })

/-- R154, R243: a group of the wrong length is never mapped. -/
def Obligations.MapWrongLengthFaults : Prop :=
  ∀ (s : State) (b : Beat) (rest : List Beat) (sch : Scheme), Ready s → s.bgq = b :: rest →
    schemeOfCode s.modulation = some sch → (b.extractLsb' 6 3).toNat ≠ bitsPerSymbol sch →
    exec .map s = .next (faultedWith s .bitgroupLen
      (BitVec.ofNat 64 ((b.extractLsb' 6 3).toNat + 16 * bitsPerSymbol sch + 256 * (b.extractLsb' 0 6).toNat)))

/-- R257: on an empty BGQ `MAP` holds, busy and unchanged, until a beat arrives, and then goes on. -/
def Obligations.MapHoldsUntilGroupArrives : Prop :=
  ∀ s : State, Ready s → s.bgq = [] →
    exec .map s = .next { s with cur := ⟨some .map, [.map]⟩ } ∧
    blockStep { s with cur := ⟨some .map, [.map]⟩ } = .next { s with cur := ⟨some .map, [.map]⟩ } ∧
    ∀ (b : Beat) (sch : Scheme), schemeOfCode s.modulation = some sch →
      (b.extractLsb' 6 3).toNat = bitsPerSymbol sch →
      blockStep { s with cur := ⟨some .map, [.map]⟩, bgq := [b] } =
        .next { s with txbits := b, lvlI := (beatLevels sch b).1, lvlQ := (beatLevels sch b).2, cur := Cur.idle }

/-- R151 (the example and R22's use of it): each QPSK level has the sign of the carrier value it is made of, so that
`NUM.P_QPSK_SIGN` fixes the quadrant. -/
def Obligations.QpskLevelSigns : Prop :=
  ∀ b0 b1 : Bool,
    flt (fzero false) (mapQpsk b0 b1).1 = flt (fzero false) (Config.cos (qpskPhase b0 b1)) ∧
    flt (mapQpsk b0 b1).1 (fzero false) = flt (Config.cos (qpskPhase b0 b1)) (fzero false) ∧
    flt (fzero false) (mapQpsk b0 b1).2 = flt (fzero false) (Config.sin (qpskPhase b0 b1)) ∧
    flt (mapQpsk b0 b1).2 (fzero false) = flt (Config.sin (qpskPhase b0 b1)) (fzero false)

/-! ## The mixer -/

/-- R170, R190, R191: `TXINIT`, `RXINIT`, `ACCLR`. (`runStart` is the model's own note of where the run begins in TXOUT,
log entry 15.) -/
def Obligations.InitCommandsClear : Prop :=
  ∀ s : State, Ready s →
    exec .txinit s = .next { s with txN := 0, txK := 0, runStart := s.txout.length, cur := Cur.idle } ∧
    exec .rxinit s = .next { s with rxK := 0, rxJ := 0, isum := 0, qsum := 0, cur := Cur.idle } ∧
    exec .acclr s = .next { s with rxJ := 0, isum := 0, qsum := 0, cur := Cur.idle }

/-- R171, R20, R176: `MIX` when the sink takes the beat. -/
def Obligations.MixEmitsOneSample : Prop :=
  ∀ s : State, Ready s → SinkTakes 1 s →
    let t := fdiv (u2f s.txN.toNat) s.fs
    let theta := fmul (fmul constTWO_PI s.fc) t
    exec .mix s = .next { s with
      txout := s.txout ++ [⟨t, fadd (fmul s.lvlI (Config.cos theta)) (fmul s.lvlQ (Config.sin theta))⟩]
      txN := s.txN + 1, sinkReplies := s.sinkReplies.tail, cur := Cur.idle }

/-- R82, R242, R258: `MIX` when the sink refuses the beat; when it answers late; and when it never answers, which leaves
the command in flight for ever. -/
def Obligations.MixWhenSinkRefuses : Prop :=
  ∀ (s : State) (rs : List SinkReply), Ready s →
    (s.sinkReplies = .error :: rs → exec .mix s = .next { faultedWith s .store 1 with sinkReplies := rs }) ∧
    (s.sinkReplies = .pending :: rs → exec .mix s = exec .mix { s with sinkReplies := rs }) ∧
    (s.sinkReplies = .never :: rs →
      exec .mix s = .next { s with cur := ⟨some .mix, [.mix]⟩ } ∧
      ∀ n, blockRun n { s with cur := ⟨some .mix, [.mix]⟩ } = .next { s with cur := ⟨some .mix, [.mix]⟩ })

/-- R171 (corner case): the first sample of a run has time `+0` and angle `+0` (for `2π·FC` finite and of positive sign),
and where the carrier values there are `1` and `+0` (`NUM.P_ZERO`) the sum is the I level, for finite levels. -/
def Obligations.FirstSampleIsTheILevel : Prop :=
  (∀ i q fc fs : F64, FinitePositive fs → isfinite (fmul constTWO_PI fc) = true → fsign (fmul constTWO_PI fc) = false →
    mixSample i q 0 fc fs =
      ⟨fzero false, fadd (fmul i (Config.cos (fzero false))) (fmul q (Config.sin (fzero false)))⟩) ∧
  ∀ i q : F64, isfinite i = true → iszero i = false → isfinite q = true →
    fadd (fmul i 0x3FF0000000000000) (fmul q (fzero false)) = i

/-- R62 (c), R174: the time of a sample does not decrease with its index, for `FS` finite and positive. -/
def Obligations.TimeIsNonDecreasing : Prop :=
  ∀ (fs : F64) (n m : Nat), FinitePositive fs → n ≤ m → m < 2 ^ 64 →
    fle (fdiv (u2f n) fs) (fdiv (u2f m) fs) = true

/-- R172: `GENSYM` whatever stands at the head of BGQ and whatever the sink answers: with no group it waits at its `MAP`
step; a group of the wrong length is never mapped and no sample emitted (R154); with a group of the right length each
sample that the sink takes is emitted and counted by `TX_N`, and `TX_K` counts the symbol when all of them are. An error
answer to sample `j` is `Fault(STORE, 1)` after `j` samples (R242); a late answer changes nothing but that it is used up
(R82); with one that never comes the command is left in flight after `j` samples (R258). -/
def Obligations.GensymEmitsOneSymbol : Prop :=
  ∀ (s : State) (sch : Scheme), Ready s → schemeOfCode s.modulation = some sch →
    let SPS := s.samplesPerSymbol.toNat
    (s.bgq = [] →
      exec .gensym s = .next { s with cur := ⟨some .gensym, .map :: (List.replicate SPS .mix ++ [.txkinc])⟩ }) ∧
    ∀ (b : Beat) (rest : List Beat), s.bgq = b :: rest →
      ((b.extractLsb' 6 3).toNat ≠ bitsPerSymbol sch →
        exec .gensym s = .next (faultedWith s .bitgroupLen
          (BitVec.ofNat 64 ((b.extractLsb' 6 3).toNat + 16 * bitsPerSymbol sch + 256 * (b.extractLsb' 0 6).toNat)))) ∧
      ((b.extractLsb' 6 3).toNat = bitsPerSymbol sch →
        let emitted (j : Nat) : State := { s with
          bgq := rest, txbits := b, lvlI := (beatLevels sch b).1, lvlQ := (beatLevels sch b).2
          txout := s.txout ++ symbolSamples (beatLevels sch b).1 (beatLevels sch b).2 s.txN j s.fc s.fs
          txN := s.txN + BitVec.ofNat 64 j, sinkReplies := s.sinkReplies.drop j }
        (SinkTakes SPS s → exec .gensym s = .next { emitted SPS with txK := s.txK + 1, cur := Cur.idle }) ∧
        ∀ j, j < SPS → SinkTakes j s →
          (s.sinkReplies[j]? = some .error →
            exec .gensym s = .next { faultedWith (emitted j) .store 1 with sinkReplies := s.sinkReplies.drop (j + 1) }) ∧
          (s.sinkReplies[j]? = some .pending →
            exec .gensym s = exec .gensym { s with sinkReplies := s.sinkReplies.eraseIdx j }) ∧
          (s.sinkReplies[j]? = some .never →
            exec .gensym s = .next { emitted j with
              cur := ⟨some .gensym, List.replicate (SPS - j) .mix ++ [.txkinc]⟩ }))

/-- R173: `GENRUN`, with `SYMBOL_COUNT` groups of the right length queued and a sink that takes the samples: group `k`
shapes the samples of indices `k * SPS` on. (`runStart` is the model's own note, log entry 15.) -/
def Obligations.GenrunEmitsWholeRun : Prop :=
  ∀ (s : State) (sch : Scheme), Ready s → schemeOfCode s.modulation = some sch →
    let N := s.symbolCount.toNat
    let SPS := s.samplesPerSymbol.toNat
    N ≤ s.bgq.length → (∀ b ∈ s.bgq.take N, (b.extractLsb' 6 3).toNat = bitsPerSymbol sch) → SinkTakes (N * SPS) s →
    ∃ t, exec .genrun s = .next t ∧
      t.txout = s.txout ++ (List.range N).flatMap (fun k =>
        let l := beatLevels sch (s.bgq.getD k 0)
        symbolSamples l.1 l.2 (BitVec.ofNat 64 (k * SPS)) SPS s.fc s.fs) ∧
      t.txN = BitVec.ofNat 64 (N * SPS) ∧ t.txK = s.symbolCount ∧ t.bgq = s.bgq.drop N ∧
      (∀ b, (s.bgq.take N).getLast? = some b →
        t.txbits = b ∧ t.lvlI = (beatLevels sch b).1 ∧ t.lvlQ = (beatLevels sch b).2) ∧
      t = { s with
        txout := t.txout, txN := t.txN, txK := t.txK, bgq := t.bgq, txbits := t.txbits, lvlI := t.lvlI, lvlQ := t.lvlQ
        sinkReplies := s.sinkReplies.drop (N * SPS), runStart := s.txout.length, cur := Cur.idle }

/-- R175: any `GENRUN` that ends with `FAULTED = 0` has appended exactly `SYMBOL_COUNT * SAMPLES_PER_SYMBOL` samples, with
the times of the indices from 0 on, and has popped exactly `SYMBOL_COUNT` groups; those samples are what `LOOPBACK` takes
(R112). -/
def Obligations.GenrunRunLength : Prop :=
  ∀ s t : State, Ready s → exec .genrun s = .next t → t.busy = false → t.faulted = false →
    let L := s.symbolCount.toNat * s.samplesPerSymbol.toNat
    s.symbolCount.toNat ≤ s.bgq.length ∧ t.bgq = s.bgq.drop s.symbolCount.toNat ∧
    ∃ l : List Sample, t.txout = s.txout ++ l ∧ t.lastRun = l ∧ l.length = L ∧
      l.map (·.time) = (List.range L).map (fun n => fdiv (u2f n) s.fs)

/-! ## The correlator -/

/-- R192: `CORR` with a sample present, without one, and past the window. -/
def Obligations.CorrAccumulatesOneSample : Prop :=
  ∀ s : State, Ready s →
    let n := s.rxK.toNat * s.samplesPerSymbol.toNat + s.rxJ.toNat
    let t := fdiv (u2f n) s.fs
    let theta := fmul (fmul constTWO_PI s.fc) t
    (s.rxJ < s.samplesPerSymbol → n < s.rxAvail.toNat →
      ∃ x, s.rxbuf[n]? = some x ∧ exec .corr s = .next { s with
        isum := fadd s.isum (fmul x.amp (Config.cos theta)), qsum := fadd s.qsum (fmul x.amp (Config.sin theta))
        rxJ := s.rxJ + 1, cur := Cur.idle }) ∧
    (s.rxJ < s.samplesPerSymbol → s.rxAvail.toNat ≤ n →
      exec .corr s = .next { s with rxJ := s.rxJ + 1, cur := Cur.idle }) ∧
    (s.samplesPerSymbol ≤ s.rxJ → exec .corr s = .next (faultedWith s .sequence 0x32))

/-- R194: `AVG` divides by the configured `SAMPLES_PER_SYMBOL`. -/
def Obligations.AvgDividesBySamplesPerSymbol : Prop :=
  ∀ s : State, Ready s →
    exec .avg s = .next { s with
      iavg := fdiv s.isum (u2f s.samplesPerSymbol.toNat), qavg := fdiv s.qsum (u2f s.samplesPerSymbol.toNat)
      cur := Cur.idle }

/-- R195, R193: `CORRWIN` correlates the whole window of symbol `RX_K`, without any fault, and does not advance `RX_K`. -/
def Obligations.CorrwinCorrelatesWindow : Prop :=
  ∀ s : State, Ready s → exec .corrwin s = .next (afterWindow s)

/-- R196 (b): a window with no sample present gives positive zeros. -/
def Obligations.EmptyWindowGivesZero : Prop :=
  ∀ s : State, Ready s → s.samplesPerSymbol ≠ 0 → s.rxAvail.toNat ≤ s.rxK.toNat * s.samplesPerSymbol.toNat →
    ∃ t, exec .corrwin s = .next t ∧ t.isum = 0 ∧ t.qsum = 0 ∧ t.iavg = 0 ∧ t.qavg = 0

/-- R198: the result of a window depends on nothing but its symbol's index, the configuration and the amplitudes present
in the window. -/
def Obligations.WindowsAreIndependent : Prop :=
  ∀ s₁ s₂ t₁ t₂ : State, Ready s₁ → Ready s₂ →
    s₁.rxK = s₂.rxK → s₁.fc = s₂.fc → s₁.fs = s₂.fs → s₁.samplesPerSymbol = s₂.samplesPerSymbol →
    (∀ j, j < s₁.samplesPerSymbol.toNat →
      (sampleAt s₁ (s₁.rxK.toNat * s₁.samplesPerSymbol.toNat + j)).map (·.amp) =
      (sampleAt s₂ (s₁.rxK.toNat * s₁.samplesPerSymbol.toNat + j)).map (·.amp)) →
    exec .corrwin s₁ = .next t₁ → exec .corrwin s₂ = .next t₂ →
    t₁.isum = t₂.isum ∧ t₁.qsum = t₂.qsum ∧ t₁.iavg = t₂.iavg ∧ t₁.qavg = t₂.qavg

/-! ## The quantizer -/

/-- R210 with R213, R214, R215, R217: `DECIDE` on operands that pass the test, under each scheme. For values of `NUM.atan2`
outside its expected range the QPSK clause is the model's choice of R214's pseudocode over its prose (log entry 18). The
index that the QAM64 search ends with is at a smaller distance than every index below it, and no index above it is at a
smaller one; there is at most one such index. -/
def Obligations.DecideEmitsGroup : Prop :=
  ∀ s : State, Ready s →
    let emits (g : BitGroup) : Prop := exec .decideCmd s = .next { s with
      rxbits := beatOfGroup g, bitout := s.bitout ++ g, cur := Cur.idle }
    (s.modulation = 0 → isfinite s.iavg = true → isfinite s.qavg = true →
      let raw := Config.atan2 s.qavg s.iavg
      let a := if feq s.iavg 0 = true ∧ feq s.qavg 0 = true then (0 : F64)
        else if flt raw 0 = true then fadd raw constTWO_PI else raw
      emits (if flt a constHALF_PI then [true, false]
        else if flt a constPI then [false, false]
        else if flt a constTHREE_HALF_PI then [false, true]
        else [true, true])) ∧
    (s.modulation = 1 → isnan s.iavg = false → isnan s.qavg = false →
      let dec (v : F64) : BitGroup := if flt v 0xC000000000000000 then [false, false]
        else if flt v 0 then [false, true]
        else if flt v 0x4000000000000000 then [true, true]
        else [true, false]
      emits (dec s.iavg ++ dec s.qavg)) ∧
    (s.modulation = 2 → isfinite s.iavg = true → isfinite s.qavg = true →
      let ref : List F64 := [0xC01C000000000000, 0xC014000000000000, 0xC008000000000000, 0xBFF0000000000000,
        0x3FF0000000000000, 0x4008000000000000, 0x4014000000000000, 0x401C000000000000]
      let dist (v : F64) (m : Nat) : F64 := fabs (fsub v (ref.getD m 0))
      let nearest (v : F64) (m : Nat) : Prop :=
        m < 8 ∧ (∀ k, k < m → flt (dist v m) (dist v k) = true) ∧
        ∀ k, m < k → k < 8 → flt (dist v k) (dist v m) = false
      let bits (m : Nat) : BitGroup := [m.testBit 2, m.testBit 1, m.testBit 0]
      ∃ m n, nearest s.iavg m ∧ nearest s.qavg n ∧ emits (bits m ++ bits n))

/-- R212, R244: `DECIDE` on operands that fail the test: the mask, nothing written, nothing emitted. -/
def Obligations.DecideNonFiniteFaults : Prop :=
  ∀ s : State, Ready s →
    ((s.modulation = 0 ∨ s.modulation = 2) → ¬ (isfinite s.iavg = true ∧ isfinite s.qavg = true) →
      exec .decideCmd s = .next (faultedWith s .nonfinite
        (BitVec.ofNat 64 ((!isfinite s.iavg).toNat + 2 * (!isfinite s.qavg).toNat)))) ∧
    (s.modulation = 1 → ¬ (isnan s.iavg = false ∧ isnan s.qavg = false) →
      exec .decideCmd s = .next (faultedWith s .nonfinite
        (BitVec.ofNat 64 ((isnan s.iavg).toNat + 2 * (isnan s.qavg).toNat))))

/-- R213: at the origin, of whatever signs, `DECIDE` under QPSK emits `(1,0)`. -/
def Obligations.QpskOriginDecision : Prop :=
  ∀ s : State, Ready s → s.modulation = 0 → iszero s.iavg = true → iszero s.qavg = true →
    exec .decideCmd s = .next { s with
      rxbits := 0x0A0, bitout := s.bitout ++ [true, false], cur := Cur.idle }

/-- R216: the QAM16 decision inverts the QAM16 mapping, for all sixteen groups. -/
def Obligations.Qam16RoundTrip : Prop :=
  ∀ b0 b1 b2 b3 : Bool, decideGroup .qam16 (lev2 b0 b1) (lev2 b2 b3) = [b0, b1, b2, b3]

/-- R218: the QAM64 decision inverts the QAM64 mapping, for all 64 groups. -/
def Obligations.Qam64RoundTrip : Prop :=
  ∀ b0 b1 b2 b3 b4 b5 : Bool, decideGroup .qam64 (lev3 b0 b1 b2) (lev3 b3 b4 b5) = [b0, b1, b2, b3, b4, b5]

/-! ## The demodulation sequencer -/

/-- R230: `DEMSYM`, when the window's averages can be decided, and when they cannot. -/
def Obligations.DemsymDecidesOneWindow : Prop :=
  ∀ (s : State) (sch : Scheme), Ready s → schemeOfCode s.modulation = some sch →
    (WindowDecidable sch s s.rxK.toNat →
      exec .demsym s = .next { afterWindow s with
        rxbits := beatOfGroup (windowGroup sch s s.rxK.toNat)
        bitout := s.bitout ++ windowGroup sch s s.rxK.toNat
        rxK := s.rxK + 1 }) ∧
    (¬ WindowDecidable sch s s.rxK.toNat →
      exec .demsym s = .next (faultedWith (afterWindow s) .nonfinite
        (BitVec.ofNat 64 (nonFiniteMask sch (windowAvg Config.cos s s.rxK.toNat) (windowAvg Config.sin s s.rxK.toNat)))))

/-- R231: `DEMRUN`, when every window's averages can be decided: all windows in increasing order. -/
def Obligations.DemrunDecidesAllWindows : Prop :=
  ∀ (s : State) (sch : Scheme), Ready s → schemeOfCode s.modulation = some sch →
    let N := s.symbolCount.toNat
    (∀ k, k < N → WindowDecidable sch s k) →
    ∃ t, exec .demrun s = .next t ∧
      t.bitout = s.bitout ++ (List.range N).flatMap (windowGroup sch s) ∧
      t.rxK = s.symbolCount ∧
      (0 < N → t.rxJ = s.samplesPerSymbol ∧ t.rxbits = beatOfGroup (windowGroup sch s (N - 1)) ∧
        t.isum = windowSum Config.cos s (N - 1) ∧ t.qsum = windowSum Config.sin s (N - 1) ∧
        t.iavg = windowAvg Config.cos s (N - 1) ∧ t.qavg = windowAvg Config.sin s (N - 1)) ∧
      t = { s with
        rxK := t.rxK, rxJ := t.rxJ, isum := t.isum, qsum := t.qsum, iavg := t.iavg, qavg := t.qavg
        rxbits := t.rxbits, bitout := t.bitout, cur := Cur.idle }

/-- R232: any `DEMRUN` that ends with `FAULTED = 0` has appended exactly `SYMBOL_COUNT * BPS` bits. -/
def Obligations.DemrunRecoveredLength : Prop :=
  ∀ (s t : State) (sch : Scheme), Ready s → schemeOfCode s.modulation = some sch →
    exec .demrun s = .next t → t.faulted = false →
    t.busy = false ∧ ∃ l, t.bitout = s.bitout ++ l ∧ l.length = s.symbolCount.toNat * bitsPerSymbol sch

/-- R231 (corner case): with an empty RXBUF, `DEMRUN` emits one origin decision per symbol and raises no fault. -/
def Obligations.DemrunOnEmptyBuffer : Prop :=
  ∀ (s : State) (sch : Scheme), Ready s → schemeOfCode s.modulation = some sch → s.rxbuf = [] →
    s.samplesPerSymbol ≠ 0 →
    let origin : BitGroup := match sch with
      | .qpsk => [true, false]
      | .qam16 => [true, true, true, true]
      | .qam64 => [false, true, true, false, true, true]
    ∃ t, exec .demrun s = .next t ∧ t.faulted = false ∧
      t.bitout = s.bitout ++ (List.replicate s.symbolCount.toNat origin).flatten

/-- R134: a run is the same as its parts issued one by one: `GENRUN` as `TXINIT` and then `GENSYM` `SYMBOL_COUNT` times,
`DEMRUN` as `RXINIT` and then `DEMSYM` `SYMBOL_COUNT` times (for a run that does not end waiting). -/
def Obligations.RunsAreTheirParts : Prop :=
  ∀ s t : State, Ready s → t.busy = false →
    (exec .genrun s = .next t →
      andThen (exec .txinit s) (execTimes .gensym s.symbolCount.toNat) = .next t) ∧
    (exec .demrun s = .next t →
      andThen (exec .rxinit s) (execTimes .demsym s.symbolCount.toNat) = .next t)

/-! ## Register accesses and ports -/

/-- R78, R79, R73: a read of a register of the map, in every state, returns all its 64 bits as R32 lays them out and has
no side effect; a refused read returns no data. -/
def Obligations.HostReadsRegister : Prop :=
  ∀ (s : State) (ts : List Agent) (as : List HostAction) (size : Nat) (off : Word),
    s.turns = .host :: ts → s.hostActs = .read size off :: as →
    let s' := { s with turns := ts, hostActs := as }
    (∀ r, size = 64 → off.toNat % 8 = 0 → regAtOffset off = some r →
      step s = .next { s' with hostData := some (registerWord s r) }) ∧
    (size ≠ 64 ∨ off.toNat % 8 ≠ 0 ∨ 0xB0 ≤ off.toNat →
      step s = .next { s'.raiseFault .access off with hostData := none })

/-- R72: the offsets of the map, and that it has no others. -/
def Obligations.RegisterMapOffsets : Prop :=
  [(0x00 : Word), 0x08, 0x10, 0x18, 0x20, 0x28, 0x30, 0x38, 0x40, 0x48, 0x50, 0x58, 0x60, 0x68, 0x70, 0x78, 0x80, 0x88,
    0x90, 0x98, 0xA0, 0xA8].map regAtOffset =
  [Reg.cmd, .status, .fault, .faultInfo, .symbolCount, .fc, .fs, .samplesPerSymbol, .modulation, .txbits, .lvlI, .lvlQ,
    .txK, .txN, .rxAvail, .rxK, .rxJ, .isum, .qsum, .iavg, .qavg, .rxbits].map some ∧
  ∀ off : Word, 0xB0 ≤ off.toNat ∨ off.toNat % 8 ≠ 0 → regAtOffset off = none

/-- R73, R77, R79, R92: a write of the wrong size, misaligned, at a reserved offset, or of a read-only register is
refused. -/
def Obligations.HostWriteRefused : Prop :=
  ∀ (s : State) (ts : List Agent) (as : List HostAction) (size : Nat) (off v : Word),
    s.turns = .host :: ts → s.hostActs = .write size off v :: as →
    (size ≠ 64 ∨ off.toNat % 8 ≠ 0 ∨ 0xB0 ≤ off.toNat ∨
      off.toNat ∈ [0x08, 0x10, 0x18, 0x48, 0x60, 0x68, 0x70, 0x78, 0x80, 0x88, 0x90, 0xA8]) →
    step s = .next ({ s with turns := ts, hostActs := as }.raiseFault .access off)

/-- R33, R92, R32: a write of a configuration register: taken exactly while unlocked, idle and not faulted and with no
unimplemented bit set, and refused otherwise. -/
def Obligations.HostWritesConfiguration : Prop :=
  ∀ (s : State) (ts : List Agent) (as : List HostAction) (off v : Word),
    s.turns = .host :: ts → s.hostActs = .write 64 off v :: as →
    let s' := { s with turns := ts, hostActs := as }
    let isOpen : Prop := s.locked = false ∧ s.busy = false ∧ s.faulted = false
    (off = 0x20 → isOpen → v.toNat < 2 ^ 32 → step s = .next { s' with symbolCount := v.setWidth 32 }) ∧
    (off = 0x28 → isOpen → step s = .next { s' with fc := v }) ∧
    (off = 0x30 → isOpen → step s = .next { s' with fs := v }) ∧
    (off = 0x38 → isOpen → v.toNat < 2 ^ 32 → step s = .next { s' with samplesPerSymbol := v.setWidth 32 }) ∧
    (off = 0x40 → isOpen → v.toNat < 4 → step s = .next { s' with modulation := v.setWidth 2 }) ∧
    (off.toNat ∈ [0x20, 0x28, 0x30, 0x38, 0x40] → ¬ isOpen → step s = .next (s'.raiseFault .access off)) ∧
    (off.toNat ∈ [0x20, 0x38] → 2 ^ 32 ≤ v.toNat → step s = .next (s'.raiseFault .access off)) ∧
    (off = 0x40 → 4 ≤ v.toNat → step s = .next (s'.raiseFault .access off))

/-- R44, R52, R92: a write of a data register: taken exactly while idle and not faulted. -/
def Obligations.HostWritesData : Prop :=
  ∀ (s : State) (ts : List Agent) (as : List HostAction) (off v : Word),
    s.turns = .host :: ts → s.hostActs = .write 64 off v :: as →
    let s' := { s with turns := ts, hostActs := as }
    let idle : Prop := s.busy = false ∧ s.faulted = false
    (off = 0x50 → idle → step s = .next { s' with lvlI := v }) ∧
    (off = 0x58 → idle → step s = .next { s' with lvlQ := v }) ∧
    (off = 0x98 → idle → step s = .next { s' with iavg := v }) ∧
    (off = 0xA0 → idle → step s = .next { s' with qavg := v }) ∧
    (off.toNat ∈ [0x50, 0x58, 0x98, 0xA0] → ¬ idle → step s = .next (s'.raiseFault .access off))

/-- R40: the fields of `STATUS` and what they say of the state: `BUSY` while steps are left, `FAULTED` while the code is
not `NONE`, `CUR_OP` the opcode of the command in flight while `BUSY = 1` and zero otherwise; the reserved bits. -/
def Obligations.StatusWordFields : Prop :=
  ∀ s : State,
    let v := s.readReg .status
    (v.getLsbD 0 = true ↔ s.cur.todo ≠ []) ∧ v.getLsbD 1 = s.locked ∧ (v.getLsbD 2 = true ↔ s.faultCode ≠ .none) ∧
    v.extractLsb' 3 5 = 0 ∧ v.extractLsb' 16 48 = 0 ∧
    (∀ i, s.cur.todo ≠ [] → s.cur.op = some i → v.extractLsb' 8 8 = (encode i).extractLsb' 0 8) ∧
    (s.cur.todo = [] → v.extractLsb' 8 8 = 0)

/-- R80: a turn of the bit source with a beat to push. -/
def Obligations.BitSourcePush : Prop :=
  ∀ (s : State) (ts : List Agent) (b : Beat) (rest : List Beat), s.turns = .bitSource :: ts → s.bitSupply = b :: rest →
    (s.faulted = false → s.bgq.length < Config.bgqDepth →
      step s = .next { s with turns := ts, bgq := s.bgq ++ [b], bitSupply := rest }) ∧
    (s.faulted = true ∨ Config.bgqDepth ≤ s.bgq.length → step s = .next { s with turns := ts })

/-- R81, R75, R242: a turn of the sample source with a beat to push. -/
def Obligations.SampleSourcePush : Prop :=
  ∀ (s : State) (ts : List Agent) (x : InBeat) (rest : List InBeat),
    s.turns = .sampleSource :: ts → s.sampleSupply = x :: rest →
    let taken : Prop := s.busy = false ∧ s.faulted = false ∧ s.rxAvail.toNat < Config.rxbufDepth
    (taken → x.err = false →
      step s = .next { s with turns := ts, rxbuf := s.rxbuf ++ [⟨x.time, x.amp⟩], sampleSupply := rest }) ∧
    (taken → x.err = true →
      step s = .next { faultedWith s .store 0 with turns := ts, sampleSupply := rest }) ∧
    (¬ taken → step s = .next { s with turns := ts })

/-- R87 (c): a push on BG_IN commutes with an action of the block that does not wait for it and does not fault: it only
appends behind the beats already queued. -/
def Obligations.BitPushCommutesWithBlock : Prop :=
  ∀ s t : State, s.bgAccepts = true → ¬ (s.bgq = [] ∧ s.cur.todo.head? = some .map) →
    blockStep s = .next t → t.faulted = false →
    blockStep (bitSourceTurn s) = .next (bitSourceTurn t)

/-- R235 for one whole run through `STORE_IDEAL`: the group recovered for symbol `k` is the decision on the window of the
samples that group `k` was rendered into, whatever the other groups are. -/
def Obligations.WholeRunRecoversByWindow : Prop :=
  ∀ (s : State) (sch : Scheme), Ready s → schemeOfCode s.modulation = some sch → s.rxbuf = [] →
    let N := s.symbolCount.toNat
    let SPS := s.samplesPerSymbol.toNat
    let levels (k : Nat) : F64 × F64 := beatLevels sch (s.bgq.getD k 0)
    let amp (k n : Nat) : F64 :=
      fadd (fmul (levels k).1 (carrier Config.cos n s.fc s.fs)) (fmul (levels k).2 (carrier Config.sin n s.fc s.fs))
    let avg (f : F64 → F64) (k : Nat) : F64 :=
      fdiv ((List.range SPS).foldl
        (fun acc j => fadd acc (fmul (amp k (k * SPS + j)) (carrier f (k * SPS + j) s.fc s.fs))) (fzero false)) (u2f SPS)
    N ≤ s.bgq.length → (∀ b ∈ s.bgq.take N, (b.extractLsb' 6 3).toNat = bitsPerSymbol sch) → SinkTakes (N * SPS) s →
    ∃ t u, exec .genrun s = .next t ∧
      exec .demrun { t with rxbuf := (storeIdeal t.lastRun).map (fun x => ⟨x.time, x.amp⟩) } = .next u ∧
      u.busy = false ∧
      (u.faulted = false ↔ ∀ k, k < N → nonFiniteMask sch (avg Config.cos k) (avg Config.sin k) = 0) ∧
      (u.faulted = false →
        u.bitout = s.bitout ++ (List.range N).flatMap (fun k => decideGroup sch (avg Config.cos k) (avg Config.sin k)))

/-- R82: "A sink that is slow delays the block and changes no value". A command issued and waited for ends as it does
when every late answer comes at once. -/
def Obligations.SlowSinkChangesNoValue : Prop :=
  ∀ (i : Instr) (s t : State), exec i s = .next t → exec i (promptSink s) = .next (promptSink t)
end

