-- ==== Sys2Proof/Laws/State.lean ====
section
/-! SUPPORT. One lemma per field per named update of State, true by rfl and in the simp set, so that no later proof
unfolds a record update. -/

namespace Sys2Proof.Machine

variable (s : State)

/-! Taking a fault (R248). -/

@[simp] theorem raiseFault_symbolCount (c : FaultCode) (info : Word) : (s.raiseFault c info).symbolCount = s.symbolCount := rfl
@[simp] theorem raiseFault_fc (c : FaultCode) (info : Word) : (s.raiseFault c info).fc = s.fc := rfl
@[simp] theorem raiseFault_fs (c : FaultCode) (info : Word) : (s.raiseFault c info).fs = s.fs := rfl
@[simp] theorem raiseFault_samplesPerSymbol (c : FaultCode) (info : Word) : (s.raiseFault c info).samplesPerSymbol = s.samplesPerSymbol := rfl
@[simp] theorem raiseFault_modulation (c : FaultCode) (info : Word) : (s.raiseFault c info).modulation = s.modulation := rfl
@[simp] theorem raiseFault_locked (c : FaultCode) (info : Word) : (s.raiseFault c info).locked = s.locked := rfl
@[simp] theorem raiseFault_faultCode (c : FaultCode) (info : Word) : (s.raiseFault c info).faultCode = if s.faulted then s.faultCode else c := rfl
@[simp] theorem raiseFault_faultInfo (c : FaultCode) (info : Word) : (s.raiseFault c info).faultInfo = if s.faulted then s.faultInfo else info := rfl
@[simp] theorem raiseFault_txbits (c : FaultCode) (info : Word) : (s.raiseFault c info).txbits = s.txbits := rfl
@[simp] theorem raiseFault_lvlI (c : FaultCode) (info : Word) : (s.raiseFault c info).lvlI = s.lvlI := rfl
@[simp] theorem raiseFault_lvlQ (c : FaultCode) (info : Word) : (s.raiseFault c info).lvlQ = s.lvlQ := rfl
@[simp] theorem raiseFault_txK (c : FaultCode) (info : Word) : (s.raiseFault c info).txK = s.txK := rfl
@[simp] theorem raiseFault_txN (c : FaultCode) (info : Word) : (s.raiseFault c info).txN = s.txN := rfl
@[simp] theorem raiseFault_rxK (c : FaultCode) (info : Word) : (s.raiseFault c info).rxK = s.rxK := rfl
@[simp] theorem raiseFault_rxJ (c : FaultCode) (info : Word) : (s.raiseFault c info).rxJ = s.rxJ := rfl
@[simp] theorem raiseFault_isum (c : FaultCode) (info : Word) : (s.raiseFault c info).isum = s.isum := rfl
@[simp] theorem raiseFault_qsum (c : FaultCode) (info : Word) : (s.raiseFault c info).qsum = s.qsum := rfl
@[simp] theorem raiseFault_iavg (c : FaultCode) (info : Word) : (s.raiseFault c info).iavg = s.iavg := rfl
@[simp] theorem raiseFault_qavg (c : FaultCode) (info : Word) : (s.raiseFault c info).qavg = s.qavg := rfl
@[simp] theorem raiseFault_rxbits (c : FaultCode) (info : Word) : (s.raiseFault c info).rxbits = s.rxbits := rfl
@[simp] theorem raiseFault_bgq (c : FaultCode) (info : Word) : (s.raiseFault c info).bgq = s.bgq := rfl
@[simp] theorem raiseFault_rxbuf (c : FaultCode) (info : Word) : (s.raiseFault c info).rxbuf = s.rxbuf := rfl
@[simp] theorem raiseFault_txout (c : FaultCode) (info : Word) : (s.raiseFault c info).txout = s.txout := rfl
@[simp] theorem raiseFault_bitout (c : FaultCode) (info : Word) : (s.raiseFault c info).bitout = s.bitout := rfl
@[simp] theorem raiseFault_cur (c : FaultCode) (info : Word) : (s.raiseFault c info).cur = Cur.idle := rfl
@[simp] theorem raiseFault_turns (c : FaultCode) (info : Word) : (s.raiseFault c info).turns = s.turns := rfl
@[simp] theorem raiseFault_hostActs (c : FaultCode) (info : Word) : (s.raiseFault c info).hostActs = s.hostActs := rfl
@[simp] theorem raiseFault_hostData (c : FaultCode) (info : Word) : (s.raiseFault c info).hostData = s.hostData := rfl
@[simp] theorem raiseFault_bitSupply (c : FaultCode) (info : Word) : (s.raiseFault c info).bitSupply = s.bitSupply := rfl
@[simp] theorem raiseFault_sampleSupply (c : FaultCode) (info : Word) : (s.raiseFault c info).sampleSupply = s.sampleSupply := rfl
@[simp] theorem raiseFault_sinkReplies (c : FaultCode) (info : Word) : (s.raiseFault c info).sinkReplies = s.sinkReplies := rfl
@[simp] theorem raiseFault_runStart (c : FaultCode) (info : Word) : (s.raiseFault c info).runStart = s.runStart := rfl

/-! The head step retired (R134). -/

@[simp] theorem retire_symbolCount : (s.retire).symbolCount = s.symbolCount := rfl
@[simp] theorem retire_fc : (s.retire).fc = s.fc := rfl
@[simp] theorem retire_fs : (s.retire).fs = s.fs := rfl
@[simp] theorem retire_samplesPerSymbol : (s.retire).samplesPerSymbol = s.samplesPerSymbol := rfl
@[simp] theorem retire_modulation : (s.retire).modulation = s.modulation := rfl
@[simp] theorem retire_locked : (s.retire).locked = s.locked := rfl
@[simp] theorem retire_faultCode : (s.retire).faultCode = s.faultCode := rfl
@[simp] theorem retire_faultInfo : (s.retire).faultInfo = s.faultInfo := rfl
@[simp] theorem retire_txbits : (s.retire).txbits = s.txbits := rfl
@[simp] theorem retire_lvlI : (s.retire).lvlI = s.lvlI := rfl
@[simp] theorem retire_lvlQ : (s.retire).lvlQ = s.lvlQ := rfl
@[simp] theorem retire_txK : (s.retire).txK = s.txK := rfl
@[simp] theorem retire_txN : (s.retire).txN = s.txN := rfl
@[simp] theorem retire_rxK : (s.retire).rxK = s.rxK := rfl
@[simp] theorem retire_rxJ : (s.retire).rxJ = s.rxJ := rfl
@[simp] theorem retire_isum : (s.retire).isum = s.isum := rfl
@[simp] theorem retire_qsum : (s.retire).qsum = s.qsum := rfl
@[simp] theorem retire_iavg : (s.retire).iavg = s.iavg := rfl
@[simp] theorem retire_qavg : (s.retire).qavg = s.qavg := rfl
@[simp] theorem retire_rxbits : (s.retire).rxbits = s.rxbits := rfl
@[simp] theorem retire_bgq : (s.retire).bgq = s.bgq := rfl
@[simp] theorem retire_rxbuf : (s.retire).rxbuf = s.rxbuf := rfl
@[simp] theorem retire_txout : (s.retire).txout = s.txout := rfl
@[simp] theorem retire_bitout : (s.retire).bitout = s.bitout := rfl
@[simp] theorem retire_turns : (s.retire).turns = s.turns := rfl
@[simp] theorem retire_hostActs : (s.retire).hostActs = s.hostActs := rfl
@[simp] theorem retire_hostData : (s.retire).hostData = s.hostData := rfl
@[simp] theorem retire_bitSupply : (s.retire).bitSupply = s.bitSupply := rfl
@[simp] theorem retire_sampleSupply : (s.retire).sampleSupply = s.sampleSupply := rfl
@[simp] theorem retire_sinkReplies : (s.retire).sinkReplies = s.sinkReplies := rfl
@[simp] theorem retire_runStart : (s.retire).runStart = s.runStart := rfl

/-! A command accepted (R130). -/

@[simp] theorem accepted_symbolCount (i : Instr) : (s.accepted i).symbolCount = s.symbolCount := rfl
@[simp] theorem accepted_fc (i : Instr) : (s.accepted i).fc = s.fc := rfl
@[simp] theorem accepted_fs (i : Instr) : (s.accepted i).fs = s.fs := rfl
@[simp] theorem accepted_samplesPerSymbol (i : Instr) : (s.accepted i).samplesPerSymbol = s.samplesPerSymbol := rfl
@[simp] theorem accepted_modulation (i : Instr) : (s.accepted i).modulation = s.modulation := rfl
@[simp] theorem accepted_locked (i : Instr) : (s.accepted i).locked = s.locked := rfl
@[simp] theorem accepted_faultCode (i : Instr) : (s.accepted i).faultCode = s.faultCode := rfl
@[simp] theorem accepted_faultInfo (i : Instr) : (s.accepted i).faultInfo = s.faultInfo := rfl
@[simp] theorem accepted_txbits (i : Instr) : (s.accepted i).txbits = s.txbits := rfl
@[simp] theorem accepted_lvlI (i : Instr) : (s.accepted i).lvlI = s.lvlI := rfl
@[simp] theorem accepted_lvlQ (i : Instr) : (s.accepted i).lvlQ = s.lvlQ := rfl
@[simp] theorem accepted_txK (i : Instr) : (s.accepted i).txK = s.txK := rfl
@[simp] theorem accepted_txN (i : Instr) : (s.accepted i).txN = s.txN := rfl
@[simp] theorem accepted_rxK (i : Instr) : (s.accepted i).rxK = s.rxK := rfl
@[simp] theorem accepted_rxJ (i : Instr) : (s.accepted i).rxJ = s.rxJ := rfl
@[simp] theorem accepted_isum (i : Instr) : (s.accepted i).isum = s.isum := rfl
@[simp] theorem accepted_qsum (i : Instr) : (s.accepted i).qsum = s.qsum := rfl
@[simp] theorem accepted_iavg (i : Instr) : (s.accepted i).iavg = s.iavg := rfl
@[simp] theorem accepted_qavg (i : Instr) : (s.accepted i).qavg = s.qavg := rfl
@[simp] theorem accepted_rxbits (i : Instr) : (s.accepted i).rxbits = s.rxbits := rfl
@[simp] theorem accepted_bgq (i : Instr) : (s.accepted i).bgq = s.bgq := rfl
@[simp] theorem accepted_rxbuf (i : Instr) : (s.accepted i).rxbuf = s.rxbuf := rfl
@[simp] theorem accepted_txout (i : Instr) : (s.accepted i).txout = s.txout := rfl
@[simp] theorem accepted_bitout (i : Instr) : (s.accepted i).bitout = s.bitout := rfl
@[simp] theorem accepted_cur (i : Instr) : (s.accepted i).cur = ⟨some i, expand i s⟩ := rfl
@[simp] theorem accepted_turns (i : Instr) : (s.accepted i).turns = s.turns := rfl
@[simp] theorem accepted_hostActs (i : Instr) : (s.accepted i).hostActs = s.hostActs := rfl
@[simp] theorem accepted_hostData (i : Instr) : (s.accepted i).hostData = s.hostData := rfl
@[simp] theorem accepted_bitSupply (i : Instr) : (s.accepted i).bitSupply = s.bitSupply := rfl
@[simp] theorem accepted_sampleSupply (i : Instr) : (s.accepted i).sampleSupply = s.sampleSupply := rfl
@[simp] theorem accepted_sinkReplies (i : Instr) : (s.accepted i).sinkReplies = s.sinkReplies := rfl
@[simp] theorem accepted_runStart (i : Instr) : (s.accepted i).runStart = s.runStart := rfl

/-! A reply of the sample sink used (R82). -/

@[simp] theorem sinkReplied_symbolCount : (s.sinkReplied).symbolCount = s.symbolCount := rfl
@[simp] theorem sinkReplied_fc : (s.sinkReplied).fc = s.fc := rfl
@[simp] theorem sinkReplied_fs : (s.sinkReplied).fs = s.fs := rfl
@[simp] theorem sinkReplied_samplesPerSymbol : (s.sinkReplied).samplesPerSymbol = s.samplesPerSymbol := rfl
@[simp] theorem sinkReplied_modulation : (s.sinkReplied).modulation = s.modulation := rfl
@[simp] theorem sinkReplied_locked : (s.sinkReplied).locked = s.locked := rfl
@[simp] theorem sinkReplied_faultCode : (s.sinkReplied).faultCode = s.faultCode := rfl
@[simp] theorem sinkReplied_faultInfo : (s.sinkReplied).faultInfo = s.faultInfo := rfl
@[simp] theorem sinkReplied_txbits : (s.sinkReplied).txbits = s.txbits := rfl
@[simp] theorem sinkReplied_lvlI : (s.sinkReplied).lvlI = s.lvlI := rfl
@[simp] theorem sinkReplied_lvlQ : (s.sinkReplied).lvlQ = s.lvlQ := rfl
@[simp] theorem sinkReplied_txK : (s.sinkReplied).txK = s.txK := rfl
@[simp] theorem sinkReplied_txN : (s.sinkReplied).txN = s.txN := rfl
@[simp] theorem sinkReplied_rxK : (s.sinkReplied).rxK = s.rxK := rfl
@[simp] theorem sinkReplied_rxJ : (s.sinkReplied).rxJ = s.rxJ := rfl
@[simp] theorem sinkReplied_isum : (s.sinkReplied).isum = s.isum := rfl
@[simp] theorem sinkReplied_qsum : (s.sinkReplied).qsum = s.qsum := rfl
@[simp] theorem sinkReplied_iavg : (s.sinkReplied).iavg = s.iavg := rfl
@[simp] theorem sinkReplied_qavg : (s.sinkReplied).qavg = s.qavg := rfl
@[simp] theorem sinkReplied_rxbits : (s.sinkReplied).rxbits = s.rxbits := rfl
@[simp] theorem sinkReplied_bgq : (s.sinkReplied).bgq = s.bgq := rfl
@[simp] theorem sinkReplied_rxbuf : (s.sinkReplied).rxbuf = s.rxbuf := rfl
@[simp] theorem sinkReplied_txout : (s.sinkReplied).txout = s.txout := rfl
@[simp] theorem sinkReplied_bitout : (s.sinkReplied).bitout = s.bitout := rfl
@[simp] theorem sinkReplied_cur : (s.sinkReplied).cur = s.cur := rfl
@[simp] theorem sinkReplied_turns : (s.sinkReplied).turns = s.turns := rfl
@[simp] theorem sinkReplied_hostActs : (s.sinkReplied).hostActs = s.hostActs := rfl
@[simp] theorem sinkReplied_hostData : (s.sinkReplied).hostData = s.hostData := rfl
@[simp] theorem sinkReplied_bitSupply : (s.sinkReplied).bitSupply = s.bitSupply := rfl
@[simp] theorem sinkReplied_sampleSupply : (s.sinkReplied).sampleSupply = s.sampleSupply := rfl
@[simp] theorem sinkReplied_sinkReplies : (s.sinkReplied).sinkReplies = s.sinkReplies.tail := rfl
@[simp] theorem sinkReplied_runStart : (s.sinkReplied).runStart = s.runStart := rfl

/-! A sample appended to RXBUF (R75). -/

@[simp] theorem memAppend_symbolCount (x : Sample) : (s.memAppend x).symbolCount = s.symbolCount := rfl
@[simp] theorem memAppend_fc (x : Sample) : (s.memAppend x).fc = s.fc := rfl
@[simp] theorem memAppend_fs (x : Sample) : (s.memAppend x).fs = s.fs := rfl
@[simp] theorem memAppend_samplesPerSymbol (x : Sample) : (s.memAppend x).samplesPerSymbol = s.samplesPerSymbol := rfl
@[simp] theorem memAppend_modulation (x : Sample) : (s.memAppend x).modulation = s.modulation := rfl
@[simp] theorem memAppend_locked (x : Sample) : (s.memAppend x).locked = s.locked := rfl
@[simp] theorem memAppend_faultCode (x : Sample) : (s.memAppend x).faultCode = s.faultCode := rfl
@[simp] theorem memAppend_faultInfo (x : Sample) : (s.memAppend x).faultInfo = s.faultInfo := rfl
@[simp] theorem memAppend_txbits (x : Sample) : (s.memAppend x).txbits = s.txbits := rfl
@[simp] theorem memAppend_lvlI (x : Sample) : (s.memAppend x).lvlI = s.lvlI := rfl
@[simp] theorem memAppend_lvlQ (x : Sample) : (s.memAppend x).lvlQ = s.lvlQ := rfl
@[simp] theorem memAppend_txK (x : Sample) : (s.memAppend x).txK = s.txK := rfl
@[simp] theorem memAppend_txN (x : Sample) : (s.memAppend x).txN = s.txN := rfl
@[simp] theorem memAppend_rxK (x : Sample) : (s.memAppend x).rxK = s.rxK := rfl
@[simp] theorem memAppend_rxJ (x : Sample) : (s.memAppend x).rxJ = s.rxJ := rfl
@[simp] theorem memAppend_isum (x : Sample) : (s.memAppend x).isum = s.isum := rfl
@[simp] theorem memAppend_qsum (x : Sample) : (s.memAppend x).qsum = s.qsum := rfl
@[simp] theorem memAppend_iavg (x : Sample) : (s.memAppend x).iavg = s.iavg := rfl
@[simp] theorem memAppend_qavg (x : Sample) : (s.memAppend x).qavg = s.qavg := rfl
@[simp] theorem memAppend_rxbits (x : Sample) : (s.memAppend x).rxbits = s.rxbits := rfl
@[simp] theorem memAppend_bgq (x : Sample) : (s.memAppend x).bgq = s.bgq := rfl
@[simp] theorem memAppend_rxbuf (x : Sample) : (s.memAppend x).rxbuf = s.rxbuf ++ [x] := rfl
@[simp] theorem memAppend_txout (x : Sample) : (s.memAppend x).txout = s.txout := rfl
@[simp] theorem memAppend_bitout (x : Sample) : (s.memAppend x).bitout = s.bitout := rfl
@[simp] theorem memAppend_cur (x : Sample) : (s.memAppend x).cur = s.cur := rfl
@[simp] theorem memAppend_turns (x : Sample) : (s.memAppend x).turns = s.turns := rfl
@[simp] theorem memAppend_hostActs (x : Sample) : (s.memAppend x).hostActs = s.hostActs := rfl
@[simp] theorem memAppend_hostData (x : Sample) : (s.memAppend x).hostData = s.hostData := rfl
@[simp] theorem memAppend_bitSupply (x : Sample) : (s.memAppend x).bitSupply = s.bitSupply := rfl
@[simp] theorem memAppend_sampleSupply (x : Sample) : (s.memAppend x).sampleSupply = s.sampleSupply := rfl
@[simp] theorem memAppend_sinkReplies (x : Sample) : (s.memAppend x).sinkReplies = s.sinkReplies := rfl
@[simp] theorem memAppend_runStart (x : Sample) : (s.memAppend x).runStart = s.runStart := rfl

/-! A beat appended to BGQ (R80). -/

@[simp] theorem bgPush_symbolCount (b : Beat) : (s.bgPush b).symbolCount = s.symbolCount := rfl
@[simp] theorem bgPush_fc (b : Beat) : (s.bgPush b).fc = s.fc := rfl
@[simp] theorem bgPush_fs (b : Beat) : (s.bgPush b).fs = s.fs := rfl
@[simp] theorem bgPush_samplesPerSymbol (b : Beat) : (s.bgPush b).samplesPerSymbol = s.samplesPerSymbol := rfl
@[simp] theorem bgPush_modulation (b : Beat) : (s.bgPush b).modulation = s.modulation := rfl
@[simp] theorem bgPush_locked (b : Beat) : (s.bgPush b).locked = s.locked := rfl
@[simp] theorem bgPush_faultCode (b : Beat) : (s.bgPush b).faultCode = s.faultCode := rfl
@[simp] theorem bgPush_faultInfo (b : Beat) : (s.bgPush b).faultInfo = s.faultInfo := rfl
@[simp] theorem bgPush_txbits (b : Beat) : (s.bgPush b).txbits = s.txbits := rfl
@[simp] theorem bgPush_lvlI (b : Beat) : (s.bgPush b).lvlI = s.lvlI := rfl
@[simp] theorem bgPush_lvlQ (b : Beat) : (s.bgPush b).lvlQ = s.lvlQ := rfl
@[simp] theorem bgPush_txK (b : Beat) : (s.bgPush b).txK = s.txK := rfl
@[simp] theorem bgPush_txN (b : Beat) : (s.bgPush b).txN = s.txN := rfl
@[simp] theorem bgPush_rxK (b : Beat) : (s.bgPush b).rxK = s.rxK := rfl
@[simp] theorem bgPush_rxJ (b : Beat) : (s.bgPush b).rxJ = s.rxJ := rfl
@[simp] theorem bgPush_isum (b : Beat) : (s.bgPush b).isum = s.isum := rfl
@[simp] theorem bgPush_qsum (b : Beat) : (s.bgPush b).qsum = s.qsum := rfl
@[simp] theorem bgPush_iavg (b : Beat) : (s.bgPush b).iavg = s.iavg := rfl
@[simp] theorem bgPush_qavg (b : Beat) : (s.bgPush b).qavg = s.qavg := rfl
@[simp] theorem bgPush_rxbits (b : Beat) : (s.bgPush b).rxbits = s.rxbits := rfl
@[simp] theorem bgPush_bgq (b : Beat) : (s.bgPush b).bgq = s.bgq ++ [b] := rfl
@[simp] theorem bgPush_rxbuf (b : Beat) : (s.bgPush b).rxbuf = s.rxbuf := rfl
@[simp] theorem bgPush_txout (b : Beat) : (s.bgPush b).txout = s.txout := rfl
@[simp] theorem bgPush_bitout (b : Beat) : (s.bgPush b).bitout = s.bitout := rfl
@[simp] theorem bgPush_cur (b : Beat) : (s.bgPush b).cur = s.cur := rfl
@[simp] theorem bgPush_turns (b : Beat) : (s.bgPush b).turns = s.turns := rfl
@[simp] theorem bgPush_hostActs (b : Beat) : (s.bgPush b).hostActs = s.hostActs := rfl
@[simp] theorem bgPush_hostData (b : Beat) : (s.bgPush b).hostData = s.hostData := rfl
@[simp] theorem bgPush_bitSupply (b : Beat) : (s.bgPush b).bitSupply = s.bitSupply := rfl
@[simp] theorem bgPush_sampleSupply (b : Beat) : (s.bgPush b).sampleSupply = s.sampleSupply := rfl
@[simp] theorem bgPush_sinkReplies (b : Beat) : (s.bgPush b).sinkReplies = s.sinkReplies := rfl
@[simp] theorem bgPush_runStart (b : Beat) : (s.bgPush b).runStart = s.runStart := rfl

/-! Bits appended to BITOUT (R84). -/

@[simp] theorem bitEmit_symbolCount (g : BitGroup) : (s.bitEmit g).symbolCount = s.symbolCount := rfl
@[simp] theorem bitEmit_fc (g : BitGroup) : (s.bitEmit g).fc = s.fc := rfl
@[simp] theorem bitEmit_fs (g : BitGroup) : (s.bitEmit g).fs = s.fs := rfl
@[simp] theorem bitEmit_samplesPerSymbol (g : BitGroup) : (s.bitEmit g).samplesPerSymbol = s.samplesPerSymbol := rfl
@[simp] theorem bitEmit_modulation (g : BitGroup) : (s.bitEmit g).modulation = s.modulation := rfl
@[simp] theorem bitEmit_locked (g : BitGroup) : (s.bitEmit g).locked = s.locked := rfl
@[simp] theorem bitEmit_faultCode (g : BitGroup) : (s.bitEmit g).faultCode = s.faultCode := rfl
@[simp] theorem bitEmit_faultInfo (g : BitGroup) : (s.bitEmit g).faultInfo = s.faultInfo := rfl
@[simp] theorem bitEmit_txbits (g : BitGroup) : (s.bitEmit g).txbits = s.txbits := rfl
@[simp] theorem bitEmit_lvlI (g : BitGroup) : (s.bitEmit g).lvlI = s.lvlI := rfl
@[simp] theorem bitEmit_lvlQ (g : BitGroup) : (s.bitEmit g).lvlQ = s.lvlQ := rfl
@[simp] theorem bitEmit_txK (g : BitGroup) : (s.bitEmit g).txK = s.txK := rfl
@[simp] theorem bitEmit_txN (g : BitGroup) : (s.bitEmit g).txN = s.txN := rfl
@[simp] theorem bitEmit_rxK (g : BitGroup) : (s.bitEmit g).rxK = s.rxK := rfl
@[simp] theorem bitEmit_rxJ (g : BitGroup) : (s.bitEmit g).rxJ = s.rxJ := rfl
@[simp] theorem bitEmit_isum (g : BitGroup) : (s.bitEmit g).isum = s.isum := rfl
@[simp] theorem bitEmit_qsum (g : BitGroup) : (s.bitEmit g).qsum = s.qsum := rfl
@[simp] theorem bitEmit_iavg (g : BitGroup) : (s.bitEmit g).iavg = s.iavg := rfl
@[simp] theorem bitEmit_qavg (g : BitGroup) : (s.bitEmit g).qavg = s.qavg := rfl
@[simp] theorem bitEmit_rxbits (g : BitGroup) : (s.bitEmit g).rxbits = s.rxbits := rfl
@[simp] theorem bitEmit_bgq (g : BitGroup) : (s.bitEmit g).bgq = s.bgq := rfl
@[simp] theorem bitEmit_rxbuf (g : BitGroup) : (s.bitEmit g).rxbuf = s.rxbuf := rfl
@[simp] theorem bitEmit_txout (g : BitGroup) : (s.bitEmit g).txout = s.txout := rfl
@[simp] theorem bitEmit_bitout (g : BitGroup) : (s.bitEmit g).bitout = s.bitout ++ g := rfl
@[simp] theorem bitEmit_cur (g : BitGroup) : (s.bitEmit g).cur = s.cur := rfl
@[simp] theorem bitEmit_turns (g : BitGroup) : (s.bitEmit g).turns = s.turns := rfl
@[simp] theorem bitEmit_hostActs (g : BitGroup) : (s.bitEmit g).hostActs = s.hostActs := rfl
@[simp] theorem bitEmit_hostData (g : BitGroup) : (s.bitEmit g).hostData = s.hostData := rfl
@[simp] theorem bitEmit_bitSupply (g : BitGroup) : (s.bitEmit g).bitSupply = s.bitSupply := rfl
@[simp] theorem bitEmit_sampleSupply (g : BitGroup) : (s.bitEmit g).sampleSupply = s.sampleSupply := rfl
@[simp] theorem bitEmit_sinkReplies (g : BitGroup) : (s.bitEmit g).sinkReplies = s.sinkReplies := rfl
@[simp] theorem bitEmit_runStart (g : BitGroup) : (s.bitEmit g).runStart = s.runStart := rfl

/-! A fetched command word taken. -/

@[simp] theorem afterFetch_symbolCount : (s.afterFetch).symbolCount = s.symbolCount := rfl
@[simp] theorem afterFetch_fc : (s.afterFetch).fc = s.fc := rfl
@[simp] theorem afterFetch_fs : (s.afterFetch).fs = s.fs := rfl
@[simp] theorem afterFetch_samplesPerSymbol : (s.afterFetch).samplesPerSymbol = s.samplesPerSymbol := rfl
@[simp] theorem afterFetch_modulation : (s.afterFetch).modulation = s.modulation := rfl
@[simp] theorem afterFetch_locked : (s.afterFetch).locked = s.locked := rfl
@[simp] theorem afterFetch_faultCode : (s.afterFetch).faultCode = s.faultCode := rfl
@[simp] theorem afterFetch_faultInfo : (s.afterFetch).faultInfo = s.faultInfo := rfl
@[simp] theorem afterFetch_txbits : (s.afterFetch).txbits = s.txbits := rfl
@[simp] theorem afterFetch_lvlI : (s.afterFetch).lvlI = s.lvlI := rfl
@[simp] theorem afterFetch_lvlQ : (s.afterFetch).lvlQ = s.lvlQ := rfl
@[simp] theorem afterFetch_txK : (s.afterFetch).txK = s.txK := rfl
@[simp] theorem afterFetch_txN : (s.afterFetch).txN = s.txN := rfl
@[simp] theorem afterFetch_rxK : (s.afterFetch).rxK = s.rxK := rfl
@[simp] theorem afterFetch_rxJ : (s.afterFetch).rxJ = s.rxJ := rfl
@[simp] theorem afterFetch_isum : (s.afterFetch).isum = s.isum := rfl
@[simp] theorem afterFetch_qsum : (s.afterFetch).qsum = s.qsum := rfl
@[simp] theorem afterFetch_iavg : (s.afterFetch).iavg = s.iavg := rfl
@[simp] theorem afterFetch_qavg : (s.afterFetch).qavg = s.qavg := rfl
@[simp] theorem afterFetch_rxbits : (s.afterFetch).rxbits = s.rxbits := rfl
@[simp] theorem afterFetch_bgq : (s.afterFetch).bgq = s.bgq := rfl
@[simp] theorem afterFetch_rxbuf : (s.afterFetch).rxbuf = s.rxbuf := rfl
@[simp] theorem afterFetch_txout : (s.afterFetch).txout = s.txout := rfl
@[simp] theorem afterFetch_bitout : (s.afterFetch).bitout = s.bitout := rfl
@[simp] theorem afterFetch_cur : (s.afterFetch).cur = s.cur := rfl
@[simp] theorem afterFetch_turns : (s.afterFetch).turns = s.turns.tail := rfl
@[simp] theorem afterFetch_hostActs : (s.afterFetch).hostActs = s.hostActs.tail := rfl
@[simp] theorem afterFetch_hostData : (s.afterFetch).hostData = s.hostData := rfl
@[simp] theorem afterFetch_bitSupply : (s.afterFetch).bitSupply = s.bitSupply := rfl
@[simp] theorem afterFetch_sampleSupply : (s.afterFetch).sampleSupply = s.sampleSupply := rfl
@[simp] theorem afterFetch_sinkReplies : (s.afterFetch).sinkReplies = s.sinkReplies := rfl
@[simp] theorem afterFetch_runStart : (s.afterFetch).runStart = s.runStart := rfl

/-! Soft reset (R133). -/

@[simp] theorem softReset_symbolCount : (s.softReset).symbolCount = 0 := rfl
@[simp] theorem softReset_fc : (s.softReset).fc = 0 := rfl
@[simp] theorem softReset_fs : (s.softReset).fs = 0 := rfl
@[simp] theorem softReset_samplesPerSymbol : (s.softReset).samplesPerSymbol = 0 := rfl
@[simp] theorem softReset_modulation : (s.softReset).modulation = 0 := rfl
@[simp] theorem softReset_locked : (s.softReset).locked = false := rfl
@[simp] theorem softReset_faultCode : (s.softReset).faultCode = .none := rfl
@[simp] theorem softReset_faultInfo : (s.softReset).faultInfo = 0 := rfl
@[simp] theorem softReset_txbits : (s.softReset).txbits = 0 := rfl
@[simp] theorem softReset_lvlI : (s.softReset).lvlI = 0 := rfl
@[simp] theorem softReset_lvlQ : (s.softReset).lvlQ = 0 := rfl
@[simp] theorem softReset_txK : (s.softReset).txK = 0 := rfl
@[simp] theorem softReset_txN : (s.softReset).txN = 0 := rfl
@[simp] theorem softReset_rxK : (s.softReset).rxK = 0 := rfl
@[simp] theorem softReset_rxJ : (s.softReset).rxJ = 0 := rfl
@[simp] theorem softReset_isum : (s.softReset).isum = 0 := rfl
@[simp] theorem softReset_qsum : (s.softReset).qsum = 0 := rfl
@[simp] theorem softReset_iavg : (s.softReset).iavg = 0 := rfl
@[simp] theorem softReset_qavg : (s.softReset).qavg = 0 := rfl
@[simp] theorem softReset_rxbits : (s.softReset).rxbits = 0 := rfl
@[simp] theorem softReset_bgq : (s.softReset).bgq = [] := rfl
@[simp] theorem softReset_rxbuf : (s.softReset).rxbuf = [] := rfl
@[simp] theorem softReset_txout : (s.softReset).txout = s.txout := rfl
@[simp] theorem softReset_bitout : (s.softReset).bitout = s.bitout := rfl
@[simp] theorem softReset_cur : (s.softReset).cur = Cur.idle := rfl
@[simp] theorem softReset_turns : (s.softReset).turns = s.turns := rfl
@[simp] theorem softReset_hostActs : (s.softReset).hostActs = s.hostActs := rfl
@[simp] theorem softReset_hostData : (s.softReset).hostData = s.hostData := rfl
@[simp] theorem softReset_bitSupply : (s.softReset).bitSupply = s.bitSupply := rfl
@[simp] theorem softReset_sampleSupply : (s.softReset).sampleSupply = s.sampleSupply := rfl
@[simp] theorem softReset_sinkReplies : (s.softReset).sinkReplies = s.sinkReplies := rfl
@[simp] theorem softReset_runStart : (s.softReset).runStart = s.runStart := rfl

/-! The views of a state just faulted, reset, idle. -/

@[simp] theorem raiseFault_busy (c : FaultCode) (info : Word) : (s.raiseFault c info).busy = false := rfl

theorem raiseFault_faulted (c : FaultCode) (info : Word) (hc : c ≠ .none) : (s.raiseFault c info).faulted = true := by
  by_cases h : s.faultCode = .none <;> simp [State.faulted, h, hc]

@[simp] theorem softReset_busy : s.softReset.busy = false := rfl

@[simp] theorem softReset_faulted : s.softReset.faulted = false := rfl

@[simp] theorem accepted_faulted (i : Instr) : (s.accepted i).faulted = s.faulted := rfl

@[simp] theorem retire_faulted : s.retire.faulted = s.faulted := rfl

end Sys2Proof.Machine
end

