-- ==== Sys2Proof/Laws/Step.lean ====
section
/-! SUPPORT. What each shared operation can do, said once: a primitive step, an action of the block, a run of actions, a
command, a register access, a turn of each agent, a transition. -/

namespace Sys2Proof.Machine

/-! ## One action of the block -/

/-- An action of the block that answers a next state did one of four things: it rested, performed the head step, held
it, or raised its fault. -/
theorem blockStep_cases {s t : State} (h : blockStep s = .next t) :
    (s.cur.todo = [] ∧ t = s) ∨
    ∃ p rest, s.cur.todo = p :: rest ∧
      ((∃ s', primStep p s = .done s' ∧ t = s'.retire) ∨
       primStep p s = .hold t ∨
       ∃ s' c info, primStep p s = .raised s' c info ∧ t = s'.raiseFault c info) := by
  unfold blockStep at h
  split at h
  case h_1 hn => exact .inl ⟨hn, by simpa using h.symm⟩
  case h_2 p rest hc =>
    refine .inr ⟨p, rest, hc, ?_⟩
    split at h
    case h_1 s' hp => exact .inl ⟨s', hp, by simpa using h.symm⟩
    case h_2 s' hp => exact .inr (.inl (by simpa [hp] using h))
    case h_3 s' c info hp => exact .inr (.inr ⟨s', c, info, hp, by simpa using h.symm⟩)
    case h_4 => simp at h

theorem blockStep_idle {s : State} (h : s.cur.todo = []) : blockStep s = .next s := by
  simp [blockStep, h]

theorem blockStep_done {s s' : State} {p : Prim} {rest : List Prim} (hc : s.cur.todo = p :: rest)
    (hp : primStep p s = .done s') : blockStep s = .next s'.retire := by
  simp [blockStep, hc, hp]

theorem blockStep_hold {s s' : State} {p : Prim} {rest : List Prim} (hc : s.cur.todo = p :: rest)
    (hp : primStep p s = .hold s') : blockStep s = .next s' := by
  simp [blockStep, hc, hp]

theorem blockStep_raised {s s' : State} {p : Prim} {rest : List Prim} {c : FaultCode} {info : Word}
    (hc : s.cur.todo = p :: rest) (hp : primStep p s = .raised s' c info) :
    blockStep s = .next (s'.raiseFault c info) := by
  simp [blockStep, hc, hp]

/-- A step that raises has written nothing; it has at most used a reply of the sink (R250). -/
theorem primStep_raised {p : Prim} {s s' : State} {c : FaultCode} {info : Word}
    (h : primStep p s = .raised s' c info) : s' = s ∨ (p = .mix ∧ s' = s.sinkReplied) := by
  cases p <;>
    simp only [primStep, stepNop, stepConfigure, stepMap, stepTxinit, stepMix, stepTxkinc, stepRxinit, stepAcclr,
      stepCorr, stepAvg, stepDecide, stepRxkinc] at h <;>
    (repeat' split at h) <;> simp_all

/-- Only `MAP` on an empty BGQ and `MIX` before an unanswering sink hold (R257, R258). -/
theorem primStep_hold {p : Prim} {s s' : State} (h : primStep p s = .hold s') :
    (p = .map ∧ s.bgq = [] ∧ s' = s) ∨ (p = .mix ∧ s.sinkReply = .pending ∧ s' = s.sinkReplied) ∨
    (p = .mix ∧ s.sinkReply = .never ∧ s' = s) := by
  cases p <;>
    simp only [primStep, stepNop, stepConfigure, stepMap, stepTxinit, stepMix, stepTxkinc, stepRxinit, stepAcclr,
      stepCorr, stepAvg, stepDecide, stepRxkinc] at h <;>
    (repeat' split at h) <;> simp_all

/-- What every performed step leaves alone: the configuration, the fault registers, RXBUF, the command in flight, and
what the other agents will do; TXOUT and BITOUT only grow. -/
theorem primStep_done_frame {p : Prim} {s s' : State} (h : primStep p s = .done s') :
    s'.symbolCount = s.symbolCount ∧ s'.fc = s.fc ∧ s'.fs = s.fs ∧ s'.samplesPerSymbol = s.samplesPerSymbol ∧
    s'.modulation = s.modulation ∧ s'.faultCode = s.faultCode ∧ s'.faultInfo = s.faultInfo ∧ s'.rxbuf = s.rxbuf ∧
    s'.cur = s.cur ∧ s'.turns = s.turns ∧ s'.hostActs = s.hostActs ∧ s'.hostData = s.hostData ∧
    s'.bitSupply = s.bitSupply ∧ s'.sampleSupply = s.sampleSupply ∧ s.txout <+: s'.txout ∧ s.bitout <+: s'.bitout := by
  cases p <;>
    simp only [primStep, stepNop, stepConfigure, stepMap, stepTxinit, stepMix, stepTxkinc, stepRxinit, stepAcclr,
      stepCorr, stepAvg, stepDecide, stepRxkinc] at h <;>
    (repeat' split at h) <;> simp_all <;> subst h <;> simp

/-- A step that raises names a fault. -/
theorem primStep_raised_code {p : Prim} {s s' : State} {c : FaultCode} {info : Word}
    (h : primStep p s = .raised s' c info) : c ≠ .none := by
  cases p <;>
    simp only [primStep, stepNop, stepConfigure, stepMap, stepTxinit, stepMix, stepTxkinc, stepRxinit, stepAcclr,
      stepCorr, stepAvg, stepDecide, stepRxkinc] at h <;>
    (repeat' split at h) <;> simp_all
  all_goals (rw [← h.2.1]; decide)

/-- No performed step unlocks the configuration. -/
theorem primStep_done_locked {p : Prim} {s s' : State} (h : primStep p s = .done s') (hl : s.locked = true) :
    s'.locked = true := by
  cases p <;>
    simp only [primStep, stepNop, stepConfigure, stepMap, stepTxinit, stepMix, stepTxkinc, stepRxinit, stepAcclr,
      stepCorr, stepAvg, stepDecide, stepRxkinc] at h <;>
    (repeat' split at h) <;> simp at h <;> subst h <;> simp [hl]

/-- A performed step uses at most one reply of the sink. -/
theorem primStep_done_sink {p : Prim} {s s' : State} (h : primStep p s = .done s') :
    s'.sinkReplies = s.sinkReplies ∨ s'.sinkReplies = s.sinkReplies.tail := by
  cases p <;>
    simp only [primStep, stepNop, stepConfigure, stepMap, stepTxinit, stepMix, stepTxkinc, stepRxinit, stepAcclr,
      stepCorr, stepAvg, stepDecide, stepRxkinc] at h <;>
    (repeat' split at h) <;> simp at h <;> subst h <;> simp

/-- A performed step leaves the note of where the latest run began, or puts it at the end of TXOUT. -/
theorem primStep_done_runStart {p : Prim} {s s' : State} (h : primStep p s = .done s') :
    s'.runStart = s.runStart ∨ s'.runStart = s.txout.length := by
  cases p <;>
    simp only [primStep, stepNop, stepConfigure, stepMap, stepTxinit, stepMix, stepTxkinc, stepRxinit, stepAcclr,
      stepCorr, stepAvg, stepDecide, stepRxkinc] at h <;>
    (repeat' split at h) <;> simp at h <;> subst h <;> simp

/-- The model stops only where a `MAP` or `DECIDE` step finds the reserved modulation code. -/
theorem primStep_stuck {p : Prim} {s : State} {f : Fault} (h : primStep p s = .stuck f) :
    (p = .map ∨ p = .decideStep) ∧ schemeOfCode s.modulation = none := by
  revert h
  cases p <;>
    simp only [primStep, stepNop, stepConfigure, stepMap, stepTxinit, stepMix, stepTxkinc, stepRxinit, stepAcclr,
      stepCorr, stepAvg, stepDecide, stepRxkinc] <;>
    (repeat' split) <;> simp_all

/-! ## Expansions -/

theorem expand_ne_nil (i : Instr) (s : State) (h : i ≠ .sreset) : expand i s ≠ [] := by
  cases i <;> simp [expand, gensymSteps, corrwinSteps, demsymSteps] at *

/-- An expansion depends on the two counts alone. -/
theorem expand_congr (i : Instr) {s t : State} (h : t.symbolCount = s.symbolCount)
    (h' : t.samplesPerSymbol = s.samplesPerSymbol) : expand i t = expand i s := by
  cases i <;> simp [expand, h, h']

theorem lockAdmits_congr (i : Instr) {s t : State} (h : t.locked = s.locked) : lockAdmits i t = lockAdmits i s := by
  cases i <;> simp [lockAdmits, h]

/-- Only `CONFIGURE` has a `CONFIGURE` step, and only a datapath command has a step beyond the two that need no lock. -/
theorem mem_expand {i : Instr} {s : State} {p : Prim} (h : p ∈ expand i s) :
    (i = .nop ∧ p = .nop) ∨ (i = .configure ∧ p = .configure) ∨ (lockAdmits i s = s.locked ∧ p ≠ .configure) := by
  cases i <;>
    simp [expand, lockAdmits, gensymSteps, corrwinSteps, demsymSteps, repeatSteps] at * <;> aesop

theorem repeatSteps_succ (n : Nat) (l : List Prim) : repeatSteps (n + 1) l = l ++ repeatSteps n l := by
  simp [repeatSteps, List.replicate_succ]

/-! ## Runs of the block -/

theorem blockRun_zero (s : State) : blockRun 0 s = .next s := rfl

theorem blockRun_succ {s s' : State} (n : Nat) (h : blockStep s = .next s') : blockRun (n + 1) s = blockRun n s' := by
  simp [blockRun, h]

theorem blockRun_add {s s' : State} (m n : Nat) (h : blockRun m s = .next s') :
    blockRun (m + n) s = blockRun n s' := by
  induction m generalizing s with
  | zero => simp only [blockRun, Host.Outcome.next.injEq] at h; subst h; simp
  | succ m ih =>
    rw [Nat.succ_add]
    simp only [blockRun] at h ⊢
    split at h
    · exact ih h
    · simp at h
    · simp at h

theorem blockRun_idle {s : State} (h : s.cur.todo = []) (n : Nat) : blockRun n s = .next s := by
  induction n with
  | zero => rfl
  | succ n ih => rw [blockRun_succ n (blockStep_idle h), ih]

/-- A relation that every action of the block respects holds between the ends of a run. -/
theorem blockRun_induction {R : State → State → Prop} (refl : ∀ s, R s s)
    (trans : ∀ a b c, R a b → R b c → R a c) (one : ∀ s t, blockStep s = .next t → R s t) :
    ∀ (n : Nat) {s t : State}, blockRun n s = .next t → R s t := by
  intro n
  induction n with
  | zero => intro s t h; simp only [blockRun, Host.Outcome.next.injEq] at h; exact h ▸ refl s
  | succ n ih =>
    intro s t h
    simp only [blockRun] at h
    split at h
    case h_1 s' hs => exact trans _ _ _ (one _ _ hs) (ih h)
    case h_2 => simp at h
    case h_3 => simp at h

/-- The end of a run can be any state that the head actions lead to: a property kept by every action is kept by a run. -/
theorem blockRun_keeps {P : State → Prop} (one : ∀ s t, P s → blockStep s = .next t → P t) (n : Nat) {s t : State}
    (hs : P s) (h : blockRun n s = .next t) : P t :=
  blockRun_induction (R := fun a b => P a → P b) (fun _ x => x) (fun _ _ _ f g x => g (f x))
    (fun a b hab ha => one a b ha hab) n h hs

/-! ## Commands -/

theorem runCommand_accepted {i : Instr} {s : State} (h : accepts i s = true) :
    runCommand i s = blockRun (enoughActions i s) (s.accepted i) := by
  simp [runCommand, h]

theorem runCommand_turnedAway {i : Instr} {s : State} (h : accepts i s = false) :
    runCommand i s = .next (s.turnedAway i) := by
  simp [runCommand, h]

/-- Every command but `SRESET` is issued and waited for in the one way. -/
theorem exec_eq_runCommand {i : Instr} (s : State) (h : i ≠ .sreset) : exec i s = runCommand i s := by
  cases i <;> first | rfl | exact absurd rfl h

theorem exec_sreset (s : State) : exec .sreset s = .next s.softReset := rfl

theorem accepts_iff (i : Instr) (s : State) :
    accepts i s = true ↔ s.faulted = false ∧ s.busy = false ∧ lockAdmits i s = true := by
  simp [accepts, and_assoc]

theorem busy_eq_false_iff (s : State) : s.busy = false ↔ s.cur.todo = [] := by
  simp [State.busy, List.isEmpty_iff]

theorem faulted_eq_false_iff (s : State) : s.faulted = false ↔ s.faultCode = .none := by
  simp [State.faulted]

/-- What writing a legal command word other than `SRESET` can do. -/
theorem issue_cases (i : Instr) (s : State) :
    (i = .sreset ∧ issue i s = s.softReset) ∨
    (accepts i s = true ∧ issue i s = s.accepted i) ∨
    (s.faulted = true ∧ issue i s = s) ∨
    (s.faulted = false ∧ issue i s = s.raiseFault .sequence (encode i)) := by
  by_cases hi : i = .sreset
  · subst hi; exact .inl ⟨rfl, rfl⟩
  · have h : issue i s = if accepts i s then s.accepted i else s.turnedAway i := by
      cases i <;> first | rfl | exact absurd rfl hi
    rw [h]
    by_cases ha : accepts i s = true
    · exact .inr (.inl ⟨ha, by simp [ha]⟩)
    · cases hf : s.faulted <;> simp [ha, State.turnedAway, hf]

/-- What writing any value to `CMD` can do (R130). -/
theorem writeCmd_cases (v : Word) (s : State) :
    (decode v = .ok .sreset ∧ writeCmd v s = s.softReset) ∨
    (∃ i, decode v = .ok i ∧ accepts i s = true ∧ writeCmd v s = s.accepted i) ∨
    (s.faulted = true ∧ writeCmd v s = s) ∨
    (s.faulted = false ∧ ∃ c info, c ≠ .none ∧ writeCmd v s = s.raiseFault c info) := by
  unfold writeCmd
  split
  case h_1 i hd =>
    rcases issue_cases i s with ⟨rfl, h⟩ | ⟨ha, h⟩ | ⟨hf, h⟩ | ⟨hf, h⟩
    · exact .inl ⟨hd, h⟩
    · exact .inr (.inl ⟨i, hd, ha, h⟩)
    · exact .inr (.inr (.inl ⟨hf, h⟩))
    · exact .inr (.inr (.inr ⟨hf, _, _, by decide, h⟩))
  case h_2 =>
    cases hf : s.faulted
    · refine .inr (.inr (.inr ⟨rfl, ?_⟩))
      cases hb : s.busy
      · exact ⟨.illegalCmd, v, by decide, by simp [State.illegalWord, hf, hb]⟩
      · exact ⟨.sequence, v, by decide, by simp [State.illegalWord, hf, hb]⟩
    · exact .inr (.inr (.inl ⟨rfl, by simp [State.illegalWord, hf]⟩))

/-! ## Transitions -/

/-- What a transition that answers a next state did: an action of the block, a turn of the host, of the bit source or of
the sample source. -/
theorem transition_cases {s t : State} (h : transition s = .next t) :
    (s.turns = [] ∧ blockStep s = .next t) ∨
    (∃ ts, s.turns = .block :: ts ∧ blockStep { s with turns := ts } = .next t) ∨
    (∃ ts, s.turns = .host :: ts ∧ hostTurn { s with turns := ts } = .next t) ∨
    (∃ ts, s.turns = .bitSource :: ts ∧ t = bitSourceTurn { s with turns := ts }) ∨
    (∃ ts, s.turns = .sampleSource :: ts ∧ t = sampleSourceTurn { s with turns := ts }) := by
  unfold transition at h
  split at h
  case h_1 he => exact .inl ⟨he, h⟩
  case h_2 ts he => exact .inr (.inl ⟨ts, he, h⟩)
  case h_3 ts he => exact .inr (.inr (.inl ⟨ts, he, h⟩))
  case h_4 ts he => exact .inr (.inr (.inr (.inl ⟨ts, he, by simpa using h.symm⟩)))
  case h_5 ts he => exact .inr (.inr (.inr (.inr ⟨ts, he, by simpa using h.symm⟩)))

/-- What a turn of the host that answers a next state did. -/
theorem hostTurn_cases {s t : State} (h : hostTurn s = .next t) :
    (s.hostActs = [] ∧ t = s) ∨
    (∃ size off as, s.hostActs = .read size off :: as ∧ t = hostRead size off { s with hostActs := as }) ∨
    (∃ size off v as, s.hostActs = .write size off v :: as ∧ t = hostWrite size off v { s with hostActs := as }) ∨
    (∃ v as, s.hostActs = .command v :: as ∧ hostCommand v { s with hostActs := as } = .next t) ∨
    (∃ as, s.hostActs = .wait :: as ∧ t = hostWait as s) := by
  unfold hostTurn at h
  split at h
  case h_1 he => exact .inl ⟨he, by simpa using h.symm⟩
  case h_2 size off as he => exact .inr (.inl ⟨size, off, as, he, by simpa using h.symm⟩)
  case h_3 size off v as he => exact .inr (.inr (.inl ⟨size, off, v, as, he, by simpa using h.symm⟩))
  case h_4 v as he => exact .inr (.inr (.inr (.inl ⟨v, as, he, h⟩)))
  case h_5 as he => exact .inr (.inr (.inr (.inr ⟨as, he, by simpa using h.symm⟩)))

end Sys2Proof.Machine
end

