-- ==== Sys2Proof/Laws/Ports.lean ====
section
/-! SUPPORT. What a register write, a port turn and a buffer operation can do, said once; the memory laws of RXBUF. -/

namespace Sys2Proof.Machine

/-! ## RXBUF -/

theorem rxbufDepth_pos : 0 < Config.rxbufDepth := Nat.succ_pos _

theorem rxbufDepth_lt : Config.rxbufDepth < 2 ^ 64 := by
  have := Nat.mod_lt Config.rxbufSpare (show 0 < 2 ^ 64 - 1 by decide)
  unfold Config.rxbufDepth
  omega

theorem bgqDepth_pos : 0 < Config.bgqDepth := Nat.succ_pos _

/-- The empty buffer is well formed; reset has it. -/
theorem memory_wf_nil : Memory.wf [] := Nat.zero_le _

/-- In a well-formed buffer `RX_AVAIL` counts the samples exactly (R47). -/
theorem rxAvail_toNat {s : State} (h : Memory.wf s.rxbuf) : s.rxAvail.toNat = s.rxbuf.length := by
  simp only [State.rxAvail, BitVec.toNat_ofNat]
  exact Nat.mod_eq_of_lt (Nat.lt_of_le_of_lt h rxbufDepth_lt)

/-- `MemRead` answers exactly at the indices below `RX_AVAIL` (R74). -/
theorem memRead_eq_none_iff (s : State) (n : Word) : s.memRead n = none ↔ s.rxAvail ≤ n := by
  have hle : s.rxAvail.toNat ≤ s.rxbuf.length := by
    simp only [State.rxAvail, BitVec.toNat_ofNat]; exact Nat.mod_le _ _
  unfold State.memRead
  by_cases h : n < s.rxAvail
  · have hn : n.toNat < s.rxbuf.length := Nat.lt_of_lt_of_le (BitVec.lt_def.mp h) hle
    simp [h, hn, BitVec.le_def, BitVec.lt_def.mp h]
  · simp [h, BitVec.not_lt.mp h]

/-- The receive sample index does not wrap (R14, R93). -/
theorem rxIndex_toNat (s : State) :
    s.rxIndex.toNat = s.rxK.toNat * s.samplesPerSymbol.toNat + s.rxJ.toNat := by
  have hk := s.rxK.isLt
  have hp := s.samplesPerSymbol.isLt
  have hj := s.rxJ.isLt
  have hle : s.rxK.toNat * s.samplesPerSymbol.toNat ≤ (2 ^ 32 - 1) * (2 ^ 32 - 1) :=
    Nat.mul_le_mul (by omega) (by omega)
  simp only [State.rxIndex, BitVec.toNat_add, BitVec.toNat_mul, BitVec.toNat_setWidth]
  rw [Nat.mod_eq_of_lt (show s.rxK.toNat < 2 ^ 64 by omega), Nat.mod_eq_of_lt (show s.samplesPerSymbol.toNat < 2 ^ 64 by omega),
    Nat.mod_eq_of_lt (show s.rxJ.toNat < 2 ^ 64 by omega)]
  omega

/-- The sample source's push keeps the buffer's form: it appends only below the capacity. -/
theorem memAppend_wf {s : State} (x : Sample) (h : s.rxbuf.length < Config.rxbufDepth) :
    Memory.wf (s.memAppend x).rxbuf := by
  simpa [Memory.wf] using h

/-- Every turn of the sample source keeps the buffer's form. -/
theorem sampleSourceTurn_wf {s : State} (h : Memory.wf s.rxbuf) : Memory.wf (sampleSourceTurn s).rxbuf := by
  unfold sampleSourceTurn
  split
  · exact h
  · split
    case isTrue ha =>
      split
      · exact h
      · have hlt : s.rxbuf.length < Config.rxbufDepth := by
          simp only [State.sampleAccepts, Bool.and_eq_true, decide_eq_true_eq] at ha
          exact rxAvail_toNat h ▸ ha.2
        exact memAppend_wf _ hlt
    case isFalse => exact h

theorem softReset_wf (s : State) : Memory.wf s.softReset.rxbuf := memory_wf_nil

/-! ## Register writes -/

/-- An accepted register write changed one of the five configuration registers, in the unlocked, idle, unfaulted state,
or one of the four data registers, in the idle, unfaulted state; and nothing else (R92). -/
theorem storeReg_cases {s t : State} {r : Reg} {v : Word} (h : s.storeReg r v = some t) :
    (s.configOpen = true ∧ ((∃ x, t = { s with symbolCount := x }) ∨ t = { s with fc := v } ∨ t = { s with fs := v } ∨
      (∃ x, t = { s with samplesPerSymbol := x }) ∨ ∃ x, t = { s with modulation := x })) ∨
    (s.dataOpen = true ∧ (t = { s with lvlI := v } ∨ t = { s with lvlQ := v } ∨ t = { s with iavg := v } ∨
      t = { s with qavg := v })) := by
  unfold State.storeReg at h
  split at h <;> first | (simp at h; done) | skip
  all_goals
    split at h
    case isFalse => simp at h
    case isTrue hc =>
      simp only [Option.some.injEq] at h
      subst h
      first
        | (simp only [Bool.and_eq_true, decide_eq_true_eq] at hc; exact .inl ⟨hc.1, by simp⟩)
        | exact .inl ⟨hc, by simp⟩
        | exact .inr ⟨hc, by simp⟩

/-- What a register write does: what a write of `CMD` does, an accepted write, or a refusal with `Fault(ACCESS)`. -/
theorem hostWrite_cases (size : Nat) (off v : Word) (s : State) :
    (regOfAccess size off = some .cmd ∧ hostWrite size off v s = writeCmd v s) ∨
    (∃ r t, regOfAccess size off = some r ∧ r ≠ .cmd ∧ s.storeReg r v = some t ∧ hostWrite size off v s = t) ∨
    hostWrite size off v s = s.raiseFault .access off := by
  unfold hostWrite
  split
  case h_1 h => exact .inl ⟨h, rfl⟩
  case h_2 r hr hne =>
    cases hs : s.storeReg r v with
    | none => exact .inr (.inr rfl)
    | some t => exact .inr (.inl ⟨r, t, hne, fun hc => hr hc, hs, rfl⟩)
  case h_3 => exact .inr (.inr rfl)

/-- What a register read does: it returns data, or is refused with `Fault(ACCESS)`. -/
theorem hostRead_cases (size : Nat) (off : Word) (s : State) :
    (∃ r, regOfAccess size off = some r ∧ hostRead size off s = { s with hostData := some (s.readReg r) }) ∨
    (regOfAccess size off = none ∧ hostRead size off s = { s.raiseFault .access off with hostData := none }) := by
  unfold hostRead
  split
  case h_1 r h => exact .inl ⟨r, h, rfl⟩
  case h_2 h => exact .inr ⟨h, rfl⟩

/-! ## Port turns -/

/-- What a turn of the bit source does: it waits, or it pushes its next beat (R80). -/
theorem bitSourceTurn_cases (s : State) :
    bitSourceTurn s = s ∨
    ∃ b rest, s.bitSupply = b :: rest ∧ s.bgAccepts = true ∧
      bitSourceTurn s = { s.bgPush b with bitSupply := rest } := by
  unfold bitSourceTurn
  split
  case h_1 => exact .inl rfl
  case h_2 b rest hb =>
    by_cases ha : s.bgAccepts = true
    · exact .inr ⟨b, rest, hb, ha, by simp [ha]⟩
    · exact .inl (by simp [ha])

/-- What a turn of the sample source does: it waits, pushes its next beat, or raises `Fault(STORE, 0)` (R81). -/
theorem sampleSourceTurn_cases (s : State) :
    sampleSourceTurn s = s ∨
    ∃ x rest, s.sampleSupply = x :: rest ∧ s.sampleAccepts = true ∧
      ((x.err = true ∧ sampleSourceTurn s = { s.raiseFault .store 0 with sampleSupply := rest }) ∨
       (x.err = false ∧ sampleSourceTurn s = { s.memAppend ⟨x.time, x.amp⟩ with sampleSupply := rest })) := by
  unfold sampleSourceTurn
  split
  case h_1 => exact .inl rfl
  case h_2 x rest hx =>
    by_cases ha : s.sampleAccepts = true
    · refine .inr ⟨x, rest, hx, ha, ?_⟩
      cases he : x.err <;> simp [ha]
    · exact .inl (by simp [ha])

end Sys2Proof.Machine
end

