-- ==== Sys2Proof/Laws/Run.lean ====
section
/-! SUPPORT. Runs of primitive steps: a primitive step does not look at the command in flight, so what a sequence of steps
does to the rest of the state can be said once and used under every command that contains the sequence. -/

namespace Sys2Proof.Machine

/-- The state with another command in flight. -/
def State.withCur (s : State) (c : Cur) : State := { s with cur := c }

@[simp] theorem withCur_withCur (s : State) (c d : Cur) : (s.withCur c).withCur d = s.withCur d := rfl
@[simp] theorem withCur_cur (s : State) (c : Cur) : (s.withCur c).cur = c := rfl
theorem withCur_self (s : State) : s.withCur s.cur = s := rfl
@[simp] theorem withCur_faulted (s : State) (c : Cur) : (s.withCur c).faulted = s.faulted := rfl
@[simp] theorem withCur_raiseFault (s : State) (d : Cur) (c : FaultCode) (info : Word) :
    (s.withCur d).raiseFault c info = s.raiseFault c info := rfl

/-- A primitive step acts the same whichever command is in flight, and keeps it. -/
theorem primStep_withCur (p : Prim) (s : State) (c : Cur) :
    primStep p (s.withCur c) =
      match primStep p s with
      | .done t => .done (t.withCur c)
      | .hold t => .hold (t.withCur c)
      | .raised t code info => .raised (t.withCur c) code info
      | .stuck f => .stuck f := by
  have hc : ∀ t : State, configMask (t.withCur c) = configMask t := fun _ => rfl
  cases p <;> simp only [primStep]
  case nop => rfl
  case configure => simp only [stepConfigure, hc]; split <;> rfl
  case map =>
    have h : (s.withCur c).bgq = s.bgq ∧ (s.withCur c).modulation = s.modulation := ⟨rfl, rfl⟩
    simp only [stepMap, h.1, h.2]
    split
    · rfl
    · split
      · rfl
      · split <;> rfl
  case txinit => rfl
  case mix =>
    have h : (s.withCur c).sinkReply = s.sinkReply := rfl
    simp only [stepMix, h]
    split <;> rfl
  case txkinc => rfl
  case rxinit => rfl
  case acclr => rfl
  case corr =>
    have h : (s.withCur c).samplesPerSymbol = s.samplesPerSymbol ∧ (s.withCur c).rxJ = s.rxJ := ⟨rfl, rfl⟩
    simp only [stepCorr, h.1, h.2]
    split <;> rfl
  case avg => rfl
  case decideStep =>
    have h : (s.withCur c).modulation = s.modulation ∧ (s.withCur c).iavg = s.iavg ∧ (s.withCur c).qavg = s.qavg :=
      ⟨rfl, rfl, rfl⟩
    simp only [stepDecide, h.1, h.2.1, h.2.2]
    split
    · rfl
    · split <;> rfl
  case rxkinc => rfl

/-- The steps of `l` are performed one after another, none of them raising and none waiting for ever, and lead from `s` to
`t`; a `MIX` may wait for a late answer first (R82). -/
inductive Performs : List Prim → State → State → Prop where
  | nil (s : State) : Performs [] s s
  | cons {p : Prim} {l : List Prim} {s s' t : State} :
      primStep p s = .done s' → Performs l s' t → Performs (p :: l) s t
  | late {l : List Prim} {s t : State} :
      s.sinkReply = .pending → Performs (.mix :: l) s.sinkReplied t → Performs (.mix :: l) s t

theorem Performs.one {p : Prim} {s t : State} (h : primStep p s = .done t) : Performs [p] s t := .cons h (.nil t)

theorem Performs.append {l m : List Prim} {s t u : State} (h : Performs l s t) (g : Performs m t u) :
    Performs (l ++ m) s u := by
  induction h with
  | nil => exact g
  | cons hp _ ih => exact .cons hp (ih g)
  | late hk _ ih => exact .late hk (ih g)

theorem Performs.split {l m : List Prim} {s u : State} (h : Performs (l ++ m) s u) :
    ∃ t, Performs l s t ∧ Performs m t u := by
  generalize hk : l ++ m = k at h
  induction h generalizing l with
  | nil s =>
    obtain ⟨rfl, rfl⟩ := List.append_eq_nil_iff.mp hk
    exact ⟨s, .nil s, .nil s⟩
  | @cons p k s s' t hp hr ih =>
    cases l with
    | nil => subst hk; exact ⟨s, .nil s, .cons hp hr⟩
    | cons q l =>
      obtain ⟨rfl, e⟩ := List.cons.inj hk
      obtain ⟨v, h1, h2⟩ := ih e
      exact ⟨v, .cons hp h1, h2⟩
  | @late k s t hp hr ih =>
    cases l with
    | nil => subst hk; exact ⟨s, .nil s, .late hp hr⟩
    | cons q l =>
      obtain ⟨v, h1, h2⟩ := ih hk
      obtain ⟨rfl, _⟩ := List.cons.inj hk
      exact ⟨v, .late hp h1, h2⟩

/-- A late answer makes a `MIX` step hold and is used up. -/
theorem primStep_late {s : State} (h : s.sinkReply = .pending) : primStep .mix s = .hold s.sinkReplied := by
  simp [primStep, stepMix, h]

theorem sinkReplies_of_pending {s : State} (h : s.sinkReply = .pending) : ∃ rs, s.sinkReplies = .pending :: rs := by
  unfold State.sinkReply at h
  cases hs : s.sinkReplies with
  | nil => rw [hs] at h; cases h
  | cons a rs => rw [hs] at h; exact ⟨rs, by rw [show a = .pending from h]⟩

/-- The command in flight once its steps up to `rest` are made. -/
def Cur.left (op : Option Instr) : List Prim → Cur
  | [] => Cur.idle
  | p :: rest => ⟨op, p :: rest⟩

theorem retire_eq (s : State) (op : Option Instr) (p : Prim) (rest : List Prim) :
    (s.withCur ⟨op, p :: rest⟩).retire = s.withCur (Cur.left op rest) := by
  cases rest <;> rfl

/-! The block's action under a command in flight, by what the head step does. -/

theorem blockStep_withCur_done {p : Prim} {s s' : State} (op : Option Instr) (rest : List Prim)
    (h : primStep p s = .done s') :
    blockStep (s.withCur ⟨op, p :: rest⟩) = .next (s'.withCur (Cur.left op rest)) := by
  rw [blockStep_done (p := p) (rest := rest) (s' := s'.withCur ⟨op, p :: rest⟩) rfl (by rw [primStep_withCur, h]),
    retire_eq]

theorem blockStep_withCur_hold {p : Prim} {s s' : State} (op : Option Instr) (rest : List Prim)
    (h : primStep p s = .hold s') :
    blockStep (s.withCur ⟨op, p :: rest⟩) = .next (s'.withCur ⟨op, p :: rest⟩) :=
  blockStep_hold (p := p) (rest := rest) rfl (by rw [primStep_withCur, h])

theorem blockStep_withCur_raised {p : Prim} {s s' : State} {c : FaultCode} {info : Word} (op : Option Instr)
    (rest : List Prim) (h : primStep p s = .raised s' c info) :
    blockStep (s.withCur ⟨op, p :: rest⟩) = .next (s'.raiseFault c info) := by
  rw [blockStep_raised (p := p) (rest := rest) (s' := s'.withCur ⟨op, p :: rest⟩) rfl (by rw [primStep_withCur, h])]
  rfl

theorem blockStep_withCur_stuck {p : Prim} {s : State} {f : Fault} (op : Option Instr) (rest : List Prim)
    (h : primStep p s = .stuck f) : blockStep (s.withCur ⟨op, p :: rest⟩) = .fault f := by
  have : primStep p (s.withCur ⟨op, p :: rest⟩) = .stuck f := by rw [primStep_withCur, h]
  simp [blockStep, this]

/-- Steps that are performed are performed by one action of the block each, and one more for each late answer, whatever
command they belong to. -/
theorem Performs.blockRun {l : List Prim} {s t : State} (h : Performs l s t) (op : Option Instr) (rest : List Prim)
    (hl : l ≠ []) :
    ∃ k, k + t.sinkReplies.length ≤ l.length + s.sinkReplies.length ∧ l.length ≤ k ∧
      Machine.blockRun k (s.withCur ⟨op, l ++ rest⟩) = .next (t.withCur (Cur.left op rest)) := by
  induction h with
  | nil => exact absurd rfl hl
  | @cons p l s s' t hp hr ih =>
    have hstep := blockStep_withCur_done op (l ++ rest) hp
    have hs : s'.sinkReplies.length ≤ s.sinkReplies.length := by
      rcases primStep_done_sink hp with e | e <;> simp [e]
    cases l with
    | nil =>
      cases hr
      exact ⟨1, by simp; omega, by simp, blockRun_succ 0 hstep⟩
    | cons q l' =>
      obtain ⟨k, h1, h2, h3⟩ := ih (by simp)
      exact ⟨k + 1, by simp at h1 ⊢; omega, by simp at h2 ⊢; omega, by
        rw [List.cons_append, blockRun_succ _ hstep]; exact h3⟩
  | @late l s t hk hr ih =>
    obtain ⟨k, h1, h2, h3⟩ := ih (by simp)
    obtain ⟨rs, hs⟩ := sinkReplies_of_pending hk
    refine ⟨k + 1, ?_, by omega, ?_⟩
    · simp only [sinkReplied_sinkReplies, hs, List.tail_cons, List.length_cons] at h1 ⊢; omega
    · rw [List.cons_append, blockRun_succ _ (blockStep_withCur_hold op (l ++ rest) (primStep_late hk))]; exact h3

/-- A command all of whose steps are performed completes: the block is idle, and the rest of the state is what the steps
made it. -/
theorem runCommand_performs {i : Instr} {s t : State} (ha : accepts i s = true) (hne : expand i s ≠ [])
    (h : Performs (expand i s) s t) : runCommand i s = .next (t.withCur Cur.idle) := by
  rw [runCommand_accepted ha]
  obtain ⟨k, h1, _, h3⟩ := h.blockRun (some i) [] hne
  rw [List.append_nil] at h3
  obtain ⟨m, hm⟩ : ∃ m, enoughActions i s = k + m := ⟨enoughActions i s - k, by unfold enoughActions; omega⟩
  rw [hm, show s.accepted i = s.withCur ⟨some i, expand i s⟩ from rfl, blockRun_add _ _ h3, blockRun_idle rfl]
  rfl

/-- The step `p` is awaited from `s` on: a `MIX` whose late answers are used up one by one, until `u`. -/
inductive Awaits (p : Prim) : State → State → Prop where
  | refl (s : State) : Awaits p s s
  | late {s u : State} : p = .mix → s.sinkReply = .pending → Awaits p s.sinkReplied u → Awaits p s u

theorem Awaits.blockRun {p : Prim} {s u : State} (h : Awaits p s u) (op : Option Instr) (rest : List Prim) :
    ∃ k, k + u.sinkReplies.length ≤ s.sinkReplies.length ∧
      Machine.blockRun k (s.withCur ⟨op, p :: rest⟩) = .next (u.withCur ⟨op, p :: rest⟩) := by
  induction h with
  | refl => exact ⟨0, by simp, rfl⟩
  | @late s u hp hk _ ih =>
    subst hp
    obtain ⟨k, h1, h2⟩ := ih
    obtain ⟨rs, hs⟩ := sinkReplies_of_pending hk
    refine ⟨k + 1, ?_, ?_⟩
    · simp only [sinkReplied_sinkReplies, hs, List.tail_cons, List.length_cons] at h1 ⊢; omega
    · rw [blockRun_succ _ (blockStep_withCur_hold op rest (primStep_late hk))]; exact h2

/-- A state in which the block's action changes nothing is the end of every run from it. -/
theorem blockRun_stays {u : State} (h : blockStep u = .next u) (n : Nat) : blockRun n u = .next u := by
  induction n with
  | zero => rfl
  | succ n ih => rw [blockRun_succ _ h, ih]

/-- A command whose steps `l` are performed, and whose next step then leads the block, after late answers or not, to a
state in which it stays, ends in that state. -/
theorem runCommand_comes_to {i : Instr} {s t v u : State} {l rest : List Prim} {p : Prim}
    (ha : accepts i s = true) (hx : expand i s = l ++ p :: rest) (h : Performs l s t) (hv : Awaits p t v)
    (hp : blockStep (v.withCur ⟨some i, p :: rest⟩) = .next u) (hu : blockStep u = .next u) :
    runCommand i s = .next u := by
  have hs : s.accepted i = s.withCur ⟨some i, l ++ p :: rest⟩ := by simp [State.accepted, State.withCur, hx]
  have hn : enoughActions i s = l.length + rest.length + 1 + s.sinkReplies.length := by
    simp [enoughActions, hx]; omega
  obtain ⟨k', h1', h2'⟩ := hv.blockRun (some i) rest
  have all : ∀ n, k' < n → blockRun n (t.withCur ⟨some i, p :: rest⟩) = .next u := fun n hn => by
    obtain ⟨m, rfl⟩ : ∃ m, n = k' + (m + 1) := ⟨n - k' - 1, by omega⟩
    rw [blockRun_add _ _ h2', blockRun_succ _ hp, blockRun_stays hu]
  rw [runCommand_accepted ha, hs, hn]
  cases l with
  | nil => cases h; exact all _ (by omega)
  | cons q l' =>
    obtain ⟨k, h1, _, h3⟩ := h.blockRun (some i) (p :: rest) (by simp)
    obtain ⟨m, hm⟩ : ∃ m, (q :: l').length + rest.length + 1 + s.sinkReplies.length = k + m :=
      ⟨(q :: l').length + rest.length + 1 + s.sinkReplies.length - k, by omega⟩
    rw [hm, blockRun_add _ _ h3]
    exact all m (by omega)

/-- A command whose steps `l` are performed and whose next step raises a fault ends there. -/
theorem runCommand_raises {i : Instr} {s t v t' : State} {l rest : List Prim} {p : Prim} {c : FaultCode} {info : Word}
    (ha : accepts i s = true) (hx : expand i s = l ++ p :: rest) (h : Performs l s t) (hv : Awaits p t v)
    (hp : primStep p v = .raised t' c info) : runCommand i s = .next (t'.raiseFault c info) :=
  runCommand_comes_to ha hx h hv (blockStep_withCur_raised _ _ hp) (blockStep_idle rfl)

/-- A command whose steps `l` are performed and whose next step holds, changing nothing, is left in flight there. -/
theorem runCommand_holds {i : Instr} {s t v : State} {l rest : List Prim} {p : Prim}
    (ha : accepts i s = true) (hx : expand i s = l ++ p :: rest) (h : Performs l s t) (hv : Awaits p t v)
    (hp : primStep p v = .hold v) : runCommand i s = .next (v.withCur ⟨some i, p :: rest⟩) :=
  runCommand_comes_to ha hx h hv (blockStep_withCur_hold _ _ hp) (blockStep_withCur_hold _ _ hp)

theorem Performs.det {l : List Prim} {s t u : State} (h : Performs l s t) (g : Performs l s u) : t = u := by
  induction h with
  | nil => cases g; rfl
  | cons hp _ ih =>
    cases g with
    | cons hp' hr => rw [hp] at hp'; cases hp'; exact ih hr
    | late hk hr => rw [primStep_late hk] at hp; cases hp
  | late hk _ ih =>
    cases g with
    | cons hp' hr => rw [primStep_late hk] at hp'; cases hp'
    | late _ hr => exact ih hr

theorem Performs.withCur {l : List Prim} {s t : State} (h : Performs l s t) (c : Cur) :
    Performs l (s.withCur c) (t.withCur c) := by
  induction h with
  | nil => exact .nil _
  | cons hp _ ih => exact .cons (by rw [primStep_withCur, hp]) ih
  | late hk _ ih => exact .late hk ih

/-- The steps are performed up to the end, or up to one that raises; the block is idle after either. -/
def Ends (l : List Prim) (s t : State) : Prop :=
  (∃ u, Performs l s u ∧ t = u.withCur Cur.idle) ∨
  ∃ l1 p l2 u v u' c info,
    l = l1 ++ p :: l2 ∧ Performs l1 s u ∧ Awaits p u v ∧ primStep p v = .raised u' c info ∧ t = u'.raiseFault c info

/-- The steps are performed up to one that waits while nobody else acts: a `MAP` without a group, or a `MIX` whose sink
never answers. -/
def Waits (op : Option Instr) (l : List Prim) (s t : State) : Prop :=
  ∃ l1 p l2 u v, l = l1 ++ p :: l2 ∧ Performs l1 s u ∧ Awaits p u v ∧ primStep p v = .hold v ∧
    t = v.withCur ⟨op, p :: l2⟩

theorem Ends.cons {p : Prim} {l : List Prim} {s s' t : State} (hp : primStep p s = .done s') (h : Ends l s' t) :
    Ends (p :: l) s t := by
  rcases h with ⟨u, h1, h2⟩ | ⟨l1, p1, l2, u, v, u', c, info, h1, h2, h3⟩
  · exact .inl ⟨u, .cons hp h1, h2⟩
  · exact .inr ⟨p :: l1, p1, l2, u, v, u', c, info, by rw [h1]; rfl, .cons hp h2, h3⟩

theorem Waits.cons {op : Option Instr} {p : Prim} {l : List Prim} {s s' t : State} (hp : primStep p s = .done s')
    (h : Waits op l s' t) : Waits op (p :: l) s t := by
  obtain ⟨l1, p1, l2, u, v, h1, h2, h3⟩ := h
  exact ⟨p :: l1, p1, l2, u, v, by rw [h1]; rfl, .cons hp h2, h3⟩

theorem Ends.late {l : List Prim} {s t : State} (hk : s.sinkReply = .pending) (h : Ends (.mix :: l) s.sinkReplied t) :
    Ends (.mix :: l) s t := by
  rcases h with ⟨u, h1, h2⟩ | ⟨l1, p1, l2, u, v, u', c, info, h1, h2, h3, h4⟩
  · exact .inl ⟨u, .late hk h1, h2⟩
  · cases l1 with
    | nil =>
      obtain ⟨rfl, rfl⟩ := List.cons.inj h1
      cases h2
      exact .inr ⟨[], .mix, l, s, v, u', c, info, rfl, .nil s, .late rfl hk h3, h4⟩
    | cons q l1 =>
      obtain ⟨rfl, rfl⟩ := List.cons.inj h1
      exact .inr ⟨.mix :: l1, p1, l2, u, v, u', c, info, rfl, .late hk h2, h3, h4⟩

theorem Waits.late {op : Option Instr} {l : List Prim} {s t : State} (hk : s.sinkReply = .pending)
    (h : Waits op (.mix :: l) s.sinkReplied t) : Waits op (.mix :: l) s t := by
  obtain ⟨l1, p1, l2, u, v, h1, h2, h3, h4⟩ := h
  cases l1 with
  | nil =>
    obtain ⟨rfl, rfl⟩ := List.cons.inj h1
    cases h2
    exact ⟨[], .mix, l, s, v, rfl, .nil s, .late rfl hk h3, h4⟩
  | cons q l1 =>
    obtain ⟨rfl, rfl⟩ := List.cons.inj h1
    exact ⟨.mix :: l1, p1, l2, u, v, rfl, .late hk h2, h3, h4⟩

/-- A run of enough actions is over, or waits at a `MAP` without a group or at a `MIX` whose sink never answers. -/
theorem blockRun_outcome (op : Option Instr) (n : Nat) : ∀ (l : List Prim) (s t : State), l ≠ [] →
    l.length + s.sinkReplies.length ≤ n → blockRun n (s.withCur ⟨op, l⟩) = .next t →
    Waits op l s t ∨ Ends l s t := by
  induction n with
  | zero =>
    intro l s t hl hn
    have := List.length_pos_iff.mpr hl
    omega
  | succ n ih =>
    intro l s t hl hn h
    obtain ⟨p, r, rfl⟩ := List.exists_cons_of_ne_nil hl
    cases hp : primStep p s with
    | done s' =>
      rw [blockRun_succ _ (blockStep_withCur_done op r hp)] at h
      cases r with
      | nil =>
        rw [blockRun_idle rfl] at h
        cases h
        exact .inr (.inl ⟨s', .one hp, rfl⟩)
      | cons q r' =>
        have hs : s'.sinkReplies.length ≤ s.sinkReplies.length := by
          rcases primStep_done_sink hp with e | e <;> simp [e]
        exact (ih (q :: r') s' t (by simp) (by simp at hn ⊢; omega) h).imp (.cons hp) (.cons hp)
    | hold s' =>
      rw [blockRun_succ _ (blockStep_withCur_hold op r hp)] at h
      rcases primStep_hold hp with ⟨rfl, _, rfl⟩ | ⟨rfl, hk, rfl⟩ | ⟨rfl, _, rfl⟩
      · rw [blockRun_stays (blockStep_withCur_hold op r hp)] at h
        cases h
        exact .inl ⟨[], .map, r, _, _, rfl, .nil _, .refl _, hp, rfl⟩
      · obtain ⟨rs, hs⟩ := sinkReplies_of_pending hk
        exact (ih (.mix :: r) _ t (by simp)
          (by simp [hs] at hn ⊢; omega) h).imp (.late hk) (.late hk)
      · rw [blockRun_stays (blockStep_withCur_hold op r hp)] at h
        cases h
        exact .inl ⟨[], .mix, r, _, _, rfl, .nil _, .refl _, hp, rfl⟩
    | raised s' c info =>
      rw [blockRun_succ _ (blockStep_withCur_raised op r hp), blockRun_idle rfl] at h
      cases h
      exact .inr (.inr ⟨[], p, r, s, s, s', c, info, rfl, .nil s, .refl s, hp, rfl⟩)
    | stuck f =>
      simp [blockRun, blockStep_withCur_stuck op r hp] at h

/-- Once there are enough actions, one more makes no difference. -/
theorem blockRun_enough (op : Option Instr) (n : Nat) : ∀ (l : List Prim) (s : State),
    l.length + s.sinkReplies.length ≤ n →
    blockRun (n + 1) (s.withCur ⟨op, l⟩) = blockRun n (s.withCur ⟨op, l⟩) := by
  induction n with
  | zero =>
    intro l s hn
    obtain rfl : l = [] := List.eq_nil_of_length_eq_zero (by omega)
    rw [blockRun_idle rfl, blockRun_idle rfl]
  | succ n ih =>
    intro l s hn
    cases l with
    | nil => rw [blockRun_idle rfl, blockRun_idle rfl]
    | cons p r =>
      cases hp : primStep p s with
      | done s' =>
        have hb := blockStep_withCur_done op r hp
        rw [blockRun_succ _ hb, blockRun_succ _ hb]
        cases r with
        | nil => rw [blockRun_idle rfl, blockRun_idle rfl]
        | cons q r' =>
          have hs : s'.sinkReplies.length ≤ s.sinkReplies.length := by
            rcases primStep_done_sink hp with e | e <;> simp [e]
          exact ih (q :: r') s' (by simp at hn ⊢; omega)
      | hold s' =>
        have hb := blockStep_withCur_hold op r hp
        rcases primStep_hold hp with ⟨rfl, _, rfl⟩ | ⟨rfl, hk, rfl⟩ | ⟨rfl, _, rfl⟩
        · rw [blockRun_stays hb, blockRun_stays hb]
        · obtain ⟨rs, hs⟩ := sinkReplies_of_pending hk
          rw [blockRun_succ _ hb, blockRun_succ _ hb]
          exact ih (.mix :: r) _ (by simp [hs] at hn ⊢; omega)
        · rw [blockRun_stays hb, blockRun_stays hb]
      | raised s' c info =>
        have hb := blockStep_withCur_raised op r hp
        rw [blockRun_succ _ hb, blockRun_succ _ hb, blockRun_idle rfl, blockRun_idle rfl]
      | stuck f =>
        have hb := blockStep_withCur_stuck op r hp
        simp [blockRun, hb]

/-- An accepted command that answers a next state has ended, or waits. -/
theorem runCommand_outcome {i : Instr} {s t : State} (ha : accepts i s = true) (hne : expand i s ≠ [])
    (h : runCommand i s = .next t) : Waits (some i) (expand i s) s t ∨ Ends (expand i s) s t := by
  rw [runCommand_accepted ha] at h
  exact blockRun_outcome (some i) _ (expand i s) s t hne (Nat.le_refl _) h

end Sys2Proof.Machine
end

