-- ==== Sys2Proof/Laws/Chain.lean ====
section
/-! SUPPORT. What a step can do, said once: the host's `SRESET`, or a chain of elementary changes. A property that every
elementary change keeps is kept by every step that is no `SRESET`. -/

namespace Sys2Proof.Machine

/-- One elementary change of the machine. -/
inductive Change : State → State → Prop
  /-- an action of the block -/
  | blk {s t : State} (h : blockStep s = .next t) : Change s t
  /-- the turns, the host's actions or its data move on -/
  | env {s : State} (ts : List Agent) (as : List HostAction) (hd : Option Word) :
      Change s { s with turns := ts, hostActs := as, hostData := hd }
  /-- a fault raised -/
  | raise {s : State} (c : FaultCode) (info : Word) (hc : c ≠ .none) : Change s (s.raiseFault c info)
  /-- a command accepted -/
  | acc {s : State} (i : Instr) (h : accepts i s = true) (hi : i ≠ .sreset) : Change s (s.accepted i)
  /-- a register write accepted -/
  | store {s t : State} {r : Reg} {v : Word} (h : s.storeReg r v = some t) : Change s t
  /-- a bit group pushed -/
  | push {s : State} {b : Beat} {rest : List Beat} (ha : s.bgAccepts = true) :
      Change s { s.bgPush b with bitSupply := rest }
  /-- a sample pushed -/
  | smp {s : State} {x : Sample} {rest : List InBeat} (ha : s.sampleAccepts = true) :
      Change s { s.memAppend x with sampleSupply := rest }
  /-- an error beat used up -/
  | supp {s : State} {rest : List InBeat} : Change s { s with sampleSupply := rest }

/-- Elementary changes one after another. -/
inductive Chain : State → State → Prop
  | refl (s : State) : Chain s s
  | cons {a b c : State} (h : Change a b) (h' : Chain b c) : Chain a c

theorem Chain.trans {a b c : State} (h : Chain a b) (g : Chain b c) : Chain a c := by
  induction h with
  | refl => exact g
  | cons h _ ih => exact .cons h (ih g)

theorem Chain.one {a b : State} (h : Change a b) : Chain a b := .cons h (.refl _)

/-- The one word that decodes to `SRESET` (R133). -/
theorem decode_sreset {v : Word} (h : decode v = .ok .sreset) : v = 2 := by
  unfold decode at h
  split at h
  case isFalse => simp at h
  case isTrue hz =>
    simp only [zeroFieldClear, beq_iff_eq] at hz
    split at h
    case h_2 => simp at h
    case h_1 j hj =>
      simp only [Except.ok.injEq] at h
      subst h
      have hb : v.extractLsb' 0 8 = 2 := by
        generalize v.extractLsb' 0 8 = b at *
        revert b
        decide +kernel
      have h1 := congrArg BitVec.toNat hz
      have h2 := congrArg BitVec.toNat hb
      apply BitVec.eq_of_toNat_eq
      simp only [BitVec.extractLsb'_toNat, Nat.shiftRight_eq_div_pow] at h1 h2
      have := v.isLt
      simp at h1 h2 ⊢
      omega

/-- A run of the block is a chain. -/
theorem chain_blockRun (n : Nat) {s t} (h : blockRun n s = .next t) : Chain s t :=
  blockRun_induction (R := Chain) (fun s => .refl s) (fun _ _ _ h g => h.trans g) (fun _ _ h => .one (.blk h)) n h

/-- A write of `CMD` is a soft reset or a chain. -/
theorem chain_writeCmd (v : Word) (s : State) : (decode v = .ok .sreset ∧ writeCmd v s = s.softReset) ∨ Chain s (writeCmd v s) := by
  rcases writeCmd_cases v s with ⟨h, e⟩ | ⟨i, hd, ha, e⟩ | ⟨_, e⟩ | ⟨_, c, info, hc, e⟩
  · exact .inl ⟨h, e⟩
  · by_cases hi : i = .sreset
    · subst hi
      left; refine ⟨hd, ?_⟩
      simp [writeCmd, hd, issue]
    · right; rw [e]; exact .one (.acc i ha hi)
  · right; rw [e]; exact .refl _
  · right; rw [e]; exact .one (.raise c info hc)

/-- A command issued and waited for is a soft reset or a chain. -/
theorem chain_hostCommand (v : Word) (s t : State) (h : hostCommand v s = .next t) : (decode v = .ok .sreset ∧ t = s.softReset) ∨ Chain s t := by
  unfold hostCommand at h
  split at h
  case h_1 i hd =>
    by_cases hi : i = .sreset
    · subst hi; left; refine ⟨hd, ?_⟩
      rw [exec_sreset] at h; simpa using h.symm
    · right
      rw [exec_eq_runCommand s hi] at h
      unfold runCommand at h
      split at h
      case isTrue ha => exact .cons (.acc i ha hi) (chain_blockRun _ h)
      case isFalse ha =>
        simp at h; subst h
        unfold State.turnedAway
        split
        · exact .refl _
        · exact .one (.raise _ _ (by decide))
  case h_2 =>
    right; simp at h; subst h
    unfold State.illegalWord
    split
    · exact .refl _
    · split <;> exact .one (.raise _ _ (by decide))

theorem chain_env {s t : State} (ts as hd) (h : Chain { s with turns := ts, hostActs := as, hostData := hd } t) : Chain s t := .cons (.env ts as hd) h

theorem regOfAccess_cmd {size off} (h : regOfAccess size off = some .cmd) : size = 64 ∧ off = 0 := by
  unfold regOfAccess at h
  split at h
  case isFalse => simp at h
  case isTrue h' =>
    simp at h'
    refine ⟨h'.1, ?_⟩
    unfold regAtOffset at h
    split at h <;> first | (simp at h; done) | skip
    apply BitVec.eq_of_toNat_eq; simpa

/-- Everything a step can do: the host's `SRESET`, or a chain of elementary changes. -/
theorem step_chain {s t : State} (h : step s = .next t) :
   (s.hostResets ∧ ∃ ts as, t = State.softReset { s with turns := ts, hostActs := as }) ∨ Chain s t := by
  rcases transition_cases h with ⟨_, h⟩ | ⟨ts, _, h⟩ | ⟨ts, ht, h⟩ | ⟨ts, _, rfl⟩ | ⟨ts, _, rfl⟩
  · right; exact .one (.blk h)
  · right; exact chain_env ts s.hostActs s.hostData (.one (.blk h))
  · have hv : ∀ v, decode v = .ok .sreset → v = 2 := fun v hd => decode_sreset hd
    rcases hostTurn_cases h with ⟨_, rfl⟩ | ⟨size, off, as, _, rfl⟩ | ⟨size, off, v, as, ha, rfl⟩ | ⟨v, as, ha, h⟩ | ⟨as, _, rfl⟩
    · right; exact chain_env ts s.hostActs s.hostData (.refl _)
    · right
      rcases hostRead_cases size off { s with turns := ts, hostActs := as } with ⟨r, _, e⟩ | ⟨_, e⟩
      · rw [e]; exact chain_env ts as _ (.refl _)
      · rw [e]
        exact chain_env ts as s.hostData (.cons (.raise .access off (by decide)) (.one (.env ts as none)))
    · rcases hostWrite_cases size off v { s with turns := ts, hostActs := as } with ⟨hr, e⟩ | ⟨r, t, _, _, hs, e⟩ | e
      · rw [e]
        rcases chain_writeCmd v { s with turns := ts, hostActs := as } with ⟨hd, e⟩ | e
        · left
          obtain ⟨rfl, rfl⟩ := regOfAccess_cmd hr
          obtain rfl := hv v hd
          exact ⟨⟨ts, as, ht, .inr ha⟩, ts, as, e⟩
        · right; exact chain_env ts as s.hostData e
      · right; rw [e]; exact chain_env ts as s.hostData (.one (.store hs))
      · right; rw [e]; exact chain_env ts as s.hostData (.one (.raise _ _ (by decide)))
    · rcases chain_hostCommand v _ t h with ⟨hd, rfl⟩ | e
      · left; obtain rfl := hv v hd
        exact ⟨⟨ts, as, ht, .inl ha⟩, ts, as, rfl⟩
      · right; exact chain_env ts as s.hostData e
    · right
      unfold hostWait
      split
      · exact chain_env ts s.hostActs _ (.refl _)
      · exact chain_env ts as _ (.refl _)
  · right
    rcases bitSourceTurn_cases { s with turns := ts } with e | ⟨b, rest, _, ha, e⟩
    · rw [e]; exact chain_env ts s.hostActs s.hostData (.refl _)
    · rw [e]; exact chain_env ts s.hostActs s.hostData (.one (.push ha))
  · right
    rcases sampleSourceTurn_cases { s with turns := ts } with e | ⟨x, rest, _, ha, ⟨_, e⟩ | ⟨_, e⟩⟩
    · rw [e]; exact chain_env ts s.hostActs s.hostData (.refl _)
    · rw [e]; exact chain_env ts s.hostActs s.hostData (.cons (.raise .store 0 (by decide)) (.one .supp))
    · rw [e]; exact chain_env ts s.hostActs s.hostData (.one (.smp ha))


/-- A relation that every elementary change respects holds between the ends of a chain. -/
theorem Chain.lift {R : State → State → Prop} (refl : ∀ s, R s s) (trans : ∀ a b c, R a b → R b c → R a c)
    (one : ∀ a b, Change a b → R a b) {s t} (h : Chain s t) : R s t := by
  induction h with
  | refl => exact refl _
  | cons h _ ih => exact trans _ _ _ (one _ _ h) ih

end Sys2Proof.Machine
end

