-- ==== Sys2Proof/Laws/Float.lean ====
section
/-! SUPPORT. The small lemmas of the binary64 operations: what a packed pattern holds, that narrowing never passes an
infinity, that the open NaN is a NaN, and that a representable value is narrowed to itself. -/

namespace Sys2Proof.Machine

theorem fmag_lt (x : F64) : fmag x < 2 ^ 63 := Nat.mod_lt _ (by decide)

theorem pack_toNat (s : Bool) {m : Nat} (h : m < 2 ^ 63) : (pack s m).toNat = (if s then 2 ^ 63 else 0) + m := by
  simp only [pack, BitVec.toNat_ofNat]
  apply Nat.mod_eq_of_lt
  split <;> omega

@[simp] theorem fmag_pack (s : Bool) {m : Nat} (h : m < 2 ^ 63) : fmag (pack s m) = m := by
  simp only [fmag, pack_toNat s h]
  split <;> omega

@[simp] theorem fsign_pack (s : Bool) {m : Nat} (h : m < 2 ^ 63) : fsign (pack s m) = s := by
  simp only [fsign, BitVec.getLsbD, pack_toNat s h, Nat.testBit_eq_decide_div_mod_eq]
  cases s <;> simp <;> omega

theorem fsign_eq (x : F64) : fsign x = decide (2 ^ 63 ≤ x.toNat) := by
  have := x.isLt
  simp only [fsign, BitVec.getLsbD, Nat.testBit_eq_decide_div_mod_eq, decide_eq_decide]
  omega

theorem toNat_eq (x : F64) : x.toNat = (if fsign x then 2 ^ 63 else 0) + fmag x := by
  have := x.isLt
  rw [fsign_eq, fmag]
  by_cases h : 2 ^ 63 ≤ x.toNat
  · rw [decide_eq_true h]; simp only [if_true]; omega
  · rw [decide_eq_false h]; simp only [Bool.false_eq_true, if_false]; omega

/-- A pattern is its sign and its magnitude bits. -/
theorem pack_fsign_fmag (x : F64) : pack (fsign x) (fmag x) = x := by
  apply BitVec.eq_of_toNat_eq
  rw [pack_toNat _ (fmag_lt x), ← toNat_eq]

theorem eq_of_fsign_fmag {x y : F64} (hs : fsign x = fsign y) (hm : fmag x = fmag y) : x = y := by
  rw [← pack_fsign_fmag x, ← pack_fsign_fmag y, hs, hm]

theorem roundMag_le (num den : Nat) : roundMag num den ≤ infMag := Nat.min_le_right _ _

theorem roundMag_lt (num den : Nat) : roundMag num den < 2 ^ 63 :=
  Nat.lt_of_le_of_lt (roundMag_le num den) (by decide)

theorem not_isnan_pack_roundMag (s : Bool) (num den : Nat) : isnan (pack s (roundMag num den)) = false := by
  rw [isnan, fmag_pack s (roundMag_lt num den)]
  simpa using roundMag_le num den

theorem fmag_nanOf (op : Config.NanOp) (a b : F64) :
    fmag (nanOf op a b) = infMag + 1 + Config.nanPayload op a b % (2 ^ 52 - 1) := by
  apply fmag_pack
  have := Nat.mod_lt (Config.nanPayload op a b) (show 0 < 2 ^ 52 - 1 by decide)
  simp only [infMag]
  omega

/-- The NaN an operation returns is a NaN, whichever it is (R18 item 4). -/
theorem isnan_nanOf (op : Config.NanOp) (a b : F64) : isnan (nanOf op a b) = true := by
  simp [isnan, fmag_nanOf]
  omega

/-- A quotient that is exact is not changed by rounding. -/
theorem divNearestEven_mul (n : Nat) {d : Nat} (h : 0 < d) : divNearestEven (n * d) d = n := by
  simp [divNearestEven, Nat.mul_div_cancel n h, h]

/-- The number of units of a finite value, by its exponent and fraction fields. -/
theorem units_eq (x : F64) :
    units x = if fmag x / 2 ^ 52 = 0 then fmag x % 2 ^ 52 else (2 ^ 52 + fmag x % 2 ^ 52) * 2 ^ (fmag x / 2 ^ 52 - 1) :=
  rfl

/-- A representable magnitude is narrowed to itself, whatever common factor it is given with. -/
theorem roundMag_units (x : F64) (hx : isfinite x = true) {d : Nat} (hd : 0 < d) :
    roundMag (units x * d) d = fmag x := by
  replace hx : fmag x < 0x7FF0000000000000 := of_decide_eq_true hx
  have hfr : fmag x % 2 ^ 52 < 2 ^ 52 := Nat.mod_lt _ (by decide)
  have hdm := Nat.div_add_mod (fmag x) (2 ^ 52)
  simp only [roundMag, Nat.mul_div_cancel _ hd]
  rw [units_eq]
  generalize fmag x / 2 ^ 52 = e at *
  generalize fmag x % 2 ^ 52 = f at *
  rcases Nat.lt_or_ge e 2 with he | he
  · have hu : (if e = 0 then f else (2 ^ 52 + f) * 2 ^ (e - 1)) = fmag x := by
      rcases Nat.lt_or_ge e 1 with h | h
      · have : e = 0 := by omega
        subst this; simp; omega
      · have : e = 1 := by omega
        subst this; simp; omega
    rw [hu]
    have hk : excessPlaces (fmag x) = 0 := by simp [excessPlaces]; omega
    rw [hk, pow_zero, Nat.mul_one, divNearestEven_mul _ hd, infMag]
    omega
  · have h0 : e ≠ 0 := by omega
    simp only [h0, if_false]
    have hpow : 2 ≤ 2 ^ (e - 1) := by
      calc 2 = 2 ^ 1 := rfl
        _ ≤ 2 ^ (e - 1) := Nat.pow_le_pow_right (by decide) (by omega)
    have hge : 2 ^ 53 ≤ (2 ^ 52 + f) * 2 ^ (e - 1) := by
      calc 2 ^ 53 = 2 ^ 52 * 2 := rfl
        _ ≤ (2 ^ 52 + f) * 2 ^ (e - 1) := Nat.mul_le_mul (by omega) hpow
    have hlog : Nat.log2 ((2 ^ 52 + f) * 2 ^ (e - 1)) = 52 + (e - 1) := by
      rw [Nat.log2_eq_iff (by omega)]
      constructor
      · rw [Nat.pow_add]; exact Nat.mul_le_mul_right _ (by omega)
      · calc (2 ^ 52 + f) * 2 ^ (e - 1) < 2 ^ 53 * 2 ^ (e - 1) :=
              Nat.mul_lt_mul_of_pos_right (by omega) (by omega)
          _ = 2 ^ (52 + (e - 1) + 1) := by rw [← Nat.pow_add]; congr 1; omega
    have hk : excessPlaces ((2 ^ 52 + f) * 2 ^ (e - 1)) = e - 1 := by
      simp only [excessPlaces, Nat.not_lt.mpr hge, if_false, hlog]; omega
    rw [hk, Nat.mul_assoc, Nat.mul_comm (2 ^ (e - 1)) d,
      divNearestEven_mul _ (Nat.mul_pos hd (by omega)), infMag]
    omega

/-- R18 item 1: a sum is `-0` only when both operands are. -/
theorem fadd_eq_negZero {a b : F64} (h : fadd a b = fzero true) : a = fzero true ∧ b = fzero true := by
  have hm : fmag (fadd a b) = 0 := by rw [h]; decide +kernel
  have hs : fsign (fadd a b) = true := by rw [h]; decide +kernel
  unfold fadd at hm hs
  split at hm
  · rw [fmag_nanOf] at hm; simp at hm
  split at hm
  · split at hm
    · rw [fmag_nanOf] at hm; simp at hm
    · rename_i h1 _; simp [isinf, hm, infMag] at h1
  split at hm
  · rename_i h1; simp [isinf, hm, infMag] at h1
  rename_i hn hia hib
  simp only [hn, hia, hib, if_false, Bool.false_eq_true] at hs
  dsimp only at hm
  split at hm
  case isTrue hz =>
    simp only [hz] at hs
    have hss : fsign a = true ∧ fsign b = true := by
      have : fsign (fzero (fsign a && fsign b)) = true := by simpa using hs
      rw [fzero, fsign_pack _ (by decide)] at this
      simpa using this
    have hu : units a = 0 ∧ units b = 0 := by
      simp only [signedUnits, hss.1, hss.2, if_true] at hz
      omega
    have key : ∀ x : F64, fsign x = true → units x = 0 → x = fzero true := by
      intro x hsx hux
      have hmx : fmag x = 0 := by
        have hdm := Nat.div_add_mod (fmag x) (2 ^ 52)
        rw [units_eq] at hux
        split at hux
        · omega
        · have := Nat.pos_of_ne_zero (n := 2 ^ (fmag x / 2 ^ 52 - 1)) (by positivity)
          have := Nat.mul_pos (show 0 < 2 ^ 52 + fmag x % 2 ^ 52 by omega) this
          omega
      apply eq_of_fsign_fmag
      · rw [hsx]; decide +kernel
      · rw [hmx]; decide +kernel
    exact ⟨key a hss.1 hu.1, key b hss.2 hu.2⟩
  case isFalse hz =>
    rw [fmag_pack _ (roundMag_lt _ _)] at hm
    exfalso
    have hpos : 0 < (signedUnits a + signedUnits b).natAbs := Int.natAbs_pos.mpr hz
    generalize (signedUnits a + signedUnits b).natAbs = n at *
    simp only [roundMag, Nat.div_one, Nat.one_mul] at hm
    by_cases hk : n < 2 ^ 53
    · simp only [excessPlaces, hk, if_true, pow_zero, Nat.zero_mul, Nat.zero_add] at hm
      have := divNearestEven_mul n (d := 1) (by decide)
      rw [Nat.mul_one] at this
      rw [this, infMag] at hm
      omega
    · have hl : 53 ≤ Nat.log2 n := (Nat.le_log2 (by omega)).mpr (by omega)
      simp only [excessPlaces, hk, if_false, infMag] at hm
      omega

/-! ## Rounding is monotone -/

theorem divNearestEven_mono {a b d : Nat} (hd : 0 < d) (h : a ≤ b) : divNearestEven a d ≤ divNearestEven b d := by
  have hq : a / d ≤ b / d := Nat.div_le_div_right h
  have ha := Nat.div_add_mod a d
  have hb := Nat.div_add_mod b d
  simp only [divNearestEven]
  rcases Nat.lt_or_eq_of_le hq with hlt | heq
  · have h1 : (if 2 * (a % d) < d then a / d else if 2 * (a % d) = d then a / d + a / d % 2 else a / d + 1) ≤ a / d + 1 := by
      split
      · omega
      · split <;> omega
    have h2 : b / d ≤ (if 2 * (b % d) < d then b / d else if 2 * (b % d) = d then b / d + b / d % 2 else b / d + 1) := by
      split
      · omega
      · split <;> omega
    omega
  · rw [heq] at ha ⊢
    have hr : a % d ≤ b % d := by omega
    have hra := Nat.mod_lt a hd
    split <;> split <;> (try split) <;> (try split) <;> omega

/-- A quotient of `q` excess places lies below the next binade. -/
theorem lt_of_excessPlaces (q : Nat) : q < 2 ^ (excessPlaces q + 53) := by
  unfold excessPlaces
  split
  case isTrue h => simpa using h
  case isFalse h =>
    have hl : 52 ≤ Nat.log2 q := (Nat.le_log2 (by omega)).mpr (by omega)
    have := Nat.lt_log2_self (n := q)
    rwa [show Nat.log2 q - 52 + 53 = Nat.log2 q + 1 by omega]

/-- A quotient with excess places fills its 53-bit significand. -/
theorem le_of_excessPlaces {q : Nat} (h : 0 < excessPlaces q) : 2 ^ (excessPlaces q + 52) ≤ q := by
  unfold excessPlaces at h ⊢
  split at h
  case isTrue => omega
  case isFalse hq =>
    rw [if_neg hq, show Nat.log2 q - 52 + 52 = Nat.log2 q by omega]
    exact Nat.log2_self_le (by omega)

theorem excessPlaces_mono {q r : Nat} (h : q ≤ r) : excessPlaces q ≤ excessPlaces r := by
  by_contra hc
  have h1 := le_of_excessPlaces (q := q) (by omega)
  have h2 := lt_of_excessPlaces r
  have : 2 ^ (excessPlaces r + 53) ≤ 2 ^ (excessPlaces q + 52) := Nat.pow_le_pow_right (by decide) (by omega)
  omega

/-- A significand never passes the next binade's least pattern. -/
theorem significand_le {a d : Nat} (hd : 0 < d) : divNearestEven a (d * 2 ^ excessPlaces (a / d)) ≤ 2 ^ 53 := by
  have hlt := lt_of_excessPlaces (a / d)
  generalize excessPlaces (a / d) = k at *
  have hpos : 0 < d * 2 ^ k := Nat.mul_pos hd (by positivity)
  have hle : a ≤ 2 ^ 53 * (d * 2 ^ k) := by
    have h1 : a < 2 ^ (k + 53) * d := (Nat.div_lt_iff_lt_mul hd).mp hlt
    have h2 : 2 ^ (k + 53) * d = 2 ^ 53 * (d * 2 ^ k) := by rw [Nat.pow_add]; ring
    omega
  exact Nat.le_trans (divNearestEven_mono hpos hle) (Nat.le_of_eq (divNearestEven_mul _ hpos))

/-- With excess places the significand is full. -/
theorem le_significand {a d : Nat} (hd : 0 < d) (hk : 0 < excessPlaces (a / d)) :
    2 ^ 52 ≤ divNearestEven a (d * 2 ^ excessPlaces (a / d)) := by
  have hge := le_of_excessPlaces hk
  generalize excessPlaces (a / d) = k at *
  have hpos : 0 < d * 2 ^ k := Nat.mul_pos hd (by positivity)
  have hle : 2 ^ 52 * (d * 2 ^ k) ≤ a := by
    have h1 : 2 ^ (k + 52) * d ≤ a / d * d := Nat.mul_le_mul_right _ hge
    have h2 : 2 ^ (k + 52) * d = 2 ^ 52 * (d * 2 ^ k) := by rw [Nat.pow_add]; ring
    have h3 := Nat.div_mul_le_self a d
    omega
  exact Nat.le_trans (Nat.le_of_eq (divNearestEven_mul _ hpos).symm) (divNearestEven_mono hpos hle)

/-- Narrowing is monotone in the numerator. -/
theorem roundMag_mono {a b d : Nat} (hd : 0 < d) (h : a ≤ b) : roundMag a d ≤ roundMag b d := by
  have hk := excessPlaces_mono (Nat.div_le_div_right (c := d) h)
  have ha := significand_le (a := a) hd
  have hb := le_significand (a := b) hd
  simp only [roundMag]
  refine Nat.le_min.mpr ⟨Nat.le_trans (Nat.min_le_left _ _) ?_, Nat.min_le_right _ _⟩
  rcases Nat.lt_or_eq_of_le hk with hlt | heq
  · have hb' := hb (Nat.lt_of_le_of_lt (Nat.zero_le _) hlt)
    clear hb
    generalize divNearestEven a (d * 2 ^ excessPlaces (a / d)) = m at *
    generalize divNearestEven b (d * 2 ^ excessPlaces (b / d)) = m' at *
    generalize excessPlaces (a / d) = k at *
    generalize excessPlaces (b / d) = k' at *
    omega
  · rw [heq]
    exact Nat.add_le_add_left (divNearestEven_mono (Nat.mul_pos hd (by positivity)) h) _

/-! ## Units, integers, quotients -/

theorem units_mono {x y : F64} (h : fmag x ≤ fmag y) : units x ≤ units y := by
  rw [units_eq, units_eq]
  have hx := Nat.div_add_mod (fmag x) (2^52)
  have hy := Nat.div_add_mod (fmag y) (2^52)
  have hq : fmag x / 2^52 ≤ fmag y / 2^52 := Nat.div_le_div_right h
  have hrx := Nat.mod_lt (fmag x) (show 0 < 2^52 by decide)
  have hry := Nat.mod_lt (fmag y) (show 0 < 2^52 by decide)
  generalize fmag x / 2^52 = e at *
  generalize fmag y / 2^52 = e' at *
  generalize fmag x % 2^52 = f at *
  generalize fmag y % 2^52 = f' at *
  by_cases h0 : e = 0
  · rw [if_pos h0]
    split
    · omega
    · have := Nat.mul_le_mul_left (2^52 + f') (show 1 ≤ 2^(e'-1) from Nat.one_le_two_pow)
      omega
  · rw [if_neg h0, if_neg (by omega)]
    rcases Nat.lt_or_eq_of_le hq with hlt | rfl
    · calc (2^52 + f) * 2^(e-1) ≤ (2^53) * 2^(e-1) := Nat.mul_le_mul_right _ (by omega)
        _ = 2^52 * 2^e := by rw [show e = (e - 1) + 1 by omega]; simp [Nat.pow_succ]; ring
        _ ≤ (2^52 + f') * 2^(e'-1) := Nat.mul_le_mul (by omega) (Nat.pow_le_pow_right (by decide) (by omega))
    · exact Nat.mul_le_mul_right _ (by omega)

theorem units_pos {x : F64} (h : 0 < fmag x) : 0 < units x := by
  rw [units_eq]
  have hx := Nat.div_add_mod (fmag x) (2^52)
  split
  · omega
  · positivity

theorem roundMag_zero : ∀ d, 0 < d → roundMag 0 d = 0 := by
  intro d hd
  have := roundMag_units (fzero false) (by decide +kernel) hd
  have hu : units (fzero false) = 0 := by decide +kernel
  rw [hu, Nat.zero_mul] at this
  rw [this]; decide +kernel

theorem u2f_mag (n : Nat) : fmag (u2f n) = roundMag (n * unitsPerOne) 1 ∧ fsign (u2f n) = false := by
  exact ⟨fmag_pack _ (roundMag_lt _ _), fsign_pack _ (roundMag_lt _ _)⟩
theorem u2f_lt {n : Nat} (h : n ≤ 2^64) : fmag (u2f n) < infMag := by
  rw [(u2f_mag n).1]
  exact Nat.lt_of_le_of_lt (roundMag_mono (by decide) (Nat.mul_le_mul_right _ h)) (by decide +kernel)
theorem u2f_pos {n : Nat} (h : 0 < n) : 0 < fmag (u2f n) := by
  rw [(u2f_mag n).1]
  refine Nat.lt_of_lt_of_le ?_ (roundMag_mono (a := 1 * unitsPerOne) (by decide) (Nat.mul_le_mul_right _ h))
  decide +kernel

/-- A quotient of a finite and a positive finite value, both of positive sign, is the rounded exact quotient. -/
theorem fdiv_pos {a b : F64} (ha : fsign a = false ∧ fmag a < infMag) (hb : fsign b = false ∧ 0 < fmag b ∧ fmag b < infMag) :
   fdiv a b = pack false (roundMag (units a * unitsPerOne) (units b)) := by
  have n1 : isnan a = false := by simp [isnan]; omega
  have n2 : isnan b = false := by simp [isnan]; omega
  have i1 : isinf a = false := by simp [isinf]; omega
  have i2 : isinf b = false := by simp [isinf]; omega
  have z2 : iszero b = false := by simp [iszero]; omega
  simp [fdiv, n1, n2, i1, i2, z2, ha.1, hb.1]

/-- A NaN operand gives a NaN (R18 item 4). -/
theorem isnan_fmul_left {a b : F64} (h : isnan a = true) : isnan (fmul a b) = true := by
  simp [fmul, h, isnan_nanOf]

theorem isnan_fadd_right {a b : F64} (h : isnan b = true) : isnan (fadd a b) = true := by
  simp [fadd, h, isnan_nanOf]

theorem isnan_fdiv_left {a b : F64} (h : isnan a = true) : isnan (fdiv a b) = true := by
  simp [fdiv, h, isnan_nanOf]

end Sys2Proof.Machine
end

