-- ==== Sys2Proof/Laws/PerInstr.lean ====
section
/-! SUPPORT. Statements made of each instruction as syntax. -/

namespace Sys2Proof.Laws

/-- The unit of a command, as the table of 30_encoding.md R102 numbers it by the high nibble of the opcode: 0 control,
1 mapper, 2 mixer, 3 correlator, 4 quantizer, 5 sequencer. -/
def unitOf : Instr → Nat
  | .nop | .configure | .sreset => 0
  | .map => 1
  | .txinit | .mix | .gensym | .genrun => 2
  | .rxinit | .acclr | .corr | .avg | .corrwin => 3
  | .decideCmd => 4
  | .demsym | .demrun => 5

/-- R102: "the high nibble of the opcode names the unit"; R101: the command word is the opcode and zeros. -/
def OpcodeNamesUnit.Statement (i : Instr) : Prop :=
  (encode i).toNat = i.opcode.toNat ∧ i.opcode.toNat / 16 = unitOf i

theorem OpcodeNamesUnit.nop : OpcodeNamesUnit.Statement .nop := ⟨rfl, rfl⟩
theorem OpcodeNamesUnit.configure : OpcodeNamesUnit.Statement .configure := ⟨rfl, rfl⟩
theorem OpcodeNamesUnit.sreset : OpcodeNamesUnit.Statement .sreset := ⟨rfl, rfl⟩
theorem OpcodeNamesUnit.map : OpcodeNamesUnit.Statement .map := ⟨rfl, rfl⟩
theorem OpcodeNamesUnit.txinit : OpcodeNamesUnit.Statement .txinit := ⟨rfl, rfl⟩
theorem OpcodeNamesUnit.mix : OpcodeNamesUnit.Statement .mix := ⟨rfl, rfl⟩
theorem OpcodeNamesUnit.gensym : OpcodeNamesUnit.Statement .gensym := ⟨rfl, rfl⟩
theorem OpcodeNamesUnit.genrun : OpcodeNamesUnit.Statement .genrun := ⟨rfl, rfl⟩
theorem OpcodeNamesUnit.rxinit : OpcodeNamesUnit.Statement .rxinit := ⟨rfl, rfl⟩
theorem OpcodeNamesUnit.acclr : OpcodeNamesUnit.Statement .acclr := ⟨rfl, rfl⟩
theorem OpcodeNamesUnit.corr : OpcodeNamesUnit.Statement .corr := ⟨rfl, rfl⟩
theorem OpcodeNamesUnit.avg : OpcodeNamesUnit.Statement .avg := ⟨rfl, rfl⟩
theorem OpcodeNamesUnit.corrwin : OpcodeNamesUnit.Statement .corrwin := ⟨rfl, rfl⟩
theorem OpcodeNamesUnit.decideCmd : OpcodeNamesUnit.Statement .decideCmd := ⟨rfl, rfl⟩
theorem OpcodeNamesUnit.demsym : OpcodeNamesUnit.Statement .demsym := ⟨rfl, rfl⟩
theorem OpcodeNamesUnit.demrun : OpcodeNamesUnit.Statement .demrun := ⟨rfl, rfl⟩

end Sys2Proof.Laws
end

