-- ==== Sys2Proof/Tests/Slice0.lean ====
section
/-! SUPPORT. Tests. Expected values are those of spec/95_test_vectors.md (section in the comment) unless a rule is
named; only values marked exact there are used. -/

set_option Elab.async false

namespace Sys2Proof.Tests

open Sys2Proof.Machine

/-- The next state of an outcome, if it is one. -/
def nextOf (o : Host.Outcome State Fault Refusal) : Option State :=
  match o with
  | .next s => some s
  | .fault _ => none
  | .refused _ => none

/-- One field of the state after a command. -/
def after {α : Type} (i : Instr) (s : State) (f : State → α) : Option α := (nextOf (exec i s)).map f

/-- Configured as `CFG 4, 1000.0, 8000.0, 8, <m>` leaves it (section 1.6). -/
def configured (m : BitVec 2) : State :=
  { State.reset with
    symbolCount := 4, fc := 0x408F400000000000, fs := 0x40BF400000000000, samplesPerSymbol := 8, modulation := m
    locked := true }

/-- Configured as `configured`, for `n` symbols of `k` samples. -/
def configuredFor (m : BitVec 2) (n k : Count) : State := { configured m with symbolCount := n, samplesPerSymbol := k }

/-! ## Form checks -/

theorem test_wf_bit8_refused : zeroFieldClear 0x100 = false := by decide
theorem test_wf_bit63_refused : zeroFieldClear 0x8000000000000023 = false := by decide
theorem test_wf_opcode_byte_accepted : zeroFieldClear 0xFF = true := by decide
theorem test_wf_length7_refused : beatDescribesGroup 0x1FF = false := by decide
theorem test_wf_length6_accepted : beatDescribesGroup 0x1BF = true := by decide
theorem test_wf_every_instruction : Instr.wellFormed .demrun = true := by decide

/-! ## Decoding: each word written out from the opcode map of 30_encoding.md R102 -/

theorem test_decode_nop : decode 0x0000000000000000 = .ok .nop := by rfl
theorem test_decode_configure : decode 0x0000000000000001 = .ok .configure := by rfl
theorem test_decode_sreset : decode 0x0000000000000002 = .ok .sreset := by rfl
theorem test_decode_map : decode 0x0000000000000010 = .ok .map := by rfl
theorem test_decode_txinit : decode 0x0000000000000020 = .ok .txinit := by rfl
theorem test_decode_mix : decode 0x0000000000000021 = .ok .mix := by rfl
theorem test_decode_gensym : decode 0x0000000000000022 = .ok .gensym := by rfl
theorem test_decode_genrun : decode 0x0000000000000023 = .ok .genrun := by rfl
theorem test_decode_rxinit : decode 0x0000000000000030 = .ok .rxinit := by rfl
theorem test_decode_acclr : decode 0x0000000000000031 = .ok .acclr := by rfl
theorem test_decode_corr : decode 0x0000000000000032 = .ok .corr := by rfl
theorem test_decode_avg : decode 0x0000000000000033 = .ok .avg := by rfl
theorem test_decode_corrwin : decode 0x0000000000000034 = .ok .corrwin := by rfl
theorem test_decode_decide : decode 0x0000000000000040 = .ok .decideCmd := by rfl
theorem test_decode_demsym : decode 0x0000000000000050 = .ok .demsym := by rfl
theorem test_decode_demrun : decode 0x0000000000000051 = .ok .demrun := by rfl
theorem test_decode_reserved : decode 0x0000000000000011 = .error .reservedOpcode := by rfl
theorem test_decode_upper_bits : decode 0x0000000100000010 = .error .upperBits := by rfl
theorem test_decode_bytes_little_endian : decodeBytes [0x23, 0, 0, 0, 0, 0, 0, 0] = .ok .genrun := by rfl
theorem test_decode_bytes_big_endian_refused : decodeBytes [0, 0, 0, 0, 0, 0, 0, 0x23] = .error .upperBits := by rfl
theorem test_decode_short_refused : decodeBytes [0x23, 0] = .error .notOneWord := by rfl
theorem test_table_word : decodeTableWord 64 0x51 = some .demrun := by decide +kernel
theorem test_table_word_reserved : decodeTableWord 64 0x52 = none := by decide +kernel

/-! ## Binary64 (00_scope.md R18, R19; sections 1.6, 2.3, 2.4) -/

theorem test_time_9 : ncoTime 9 0x40BF400000000000 = 0x3F526E978D4FDF3B := by decide +kernel
theorem test_time_31 : ncoTime 31 0x40BF400000000000 = 0x3F6FBE76C8B43958 := by decide +kernel
theorem test_phase_1 : ncoPhase 1 0x408F400000000000 0x40BF400000000000 = constPHASE_1 := by decide +kernel
theorem test_phase_order : fmul constTWO_PI 0x408F400000000000 = 0x40B88B2F704A9409 := by decide +kernel
theorem test_three_half_pi : fadd 0xBFF921FB54442D18 constTWO_PI = constTHREE_HALF_PI := by decide +kernel
theorem test_c4_rounds_to_two_pi : fadd 0xBC9CD2B297D889BC constTWO_PI = constTWO_PI := by decide +kernel
theorem test_third : fdiv 0x3FF0000000000000 (u2f 3) = 0x3FD5555555555555 := by decide +kernel
theorem test_zero_signs : fadd 0 0x8000000000000000 = 0 := by decide +kernel
theorem test_mul_zero_sign : fmul 0xC008000000000000 0 = 0x8000000000000000 := by decide +kernel
theorem test_div_by_zero : fdiv 0xBFF0000000000000 0 = 0xFFF0000000000000 := by decide +kernel
theorem test_sum_1_6 : fadd 0x3FF0000000000001 0x3FF0000000000001 = 0x4000000000000001 := by decide +kernel
theorem test_mul_rounds : fmul 0x3FF6A09E667F3BCD 0x3FE6A09E667F3BCD = 0x3FF0000000000001 := by decide +kernel
theorem test_negative_zero_not_less : flt 0x8000000000000000 0 = false := by decide +kernel
theorem test_text6 : text6Amp 0x3FF6A09E667F3BCD = 0x3FF6A09EDBF8B9BB := by decide +kernel
theorem test_text6_negative_zero : text6Amp 0xBCB0000000000000 = 0x8000000000000000 := by decide +kernel

/-! ## The commands on the state after reset and on small states (sections 2.1 to 2.6) -/

theorem test_first_command_fetched :
    (nextOf (step (State.reset.withFetchWord 64 0x23))).map (fun s => (s.statusWord, s.faultInfo)) =
      some (0x4, 0x23) := by decide +kernel
theorem test_nop_reset : nextOf (exec .nop State.reset) = some State.reset := by decide +kernel
theorem test_configure_reset : after .configure State.reset (fun s => (s.statusWord, s.faultWord, s.faultInfo)) =
    some (0x4, 1, 0x13) := by decide +kernel
theorem test_configure_locks : after .configure { configured 0 with locked := false } (·.statusWord) = some 0x2 := by
  decide +kernel
theorem test_configure_all_float_checks :
    after .configure { configured 3 with locked := false, fc := 0x7FF8000000000000, fs := 0xC0BF400000000000 }
      (·.faultInfo) = some 0x1C := by decide +kernel
theorem test_configure_twice : after .configure (configured 0) (fun s => (s.statusWord, s.faultWord, s.faultInfo)) =
    some (0x6, 6, 1) := by decide +kernel
theorem test_sreset_faulted : after .sreset { configured 1 with faultCode := .bitgroupLen, bitout := [true] }
    (fun s => (s.statusWord, s.faultWord, s.bitout)) = some (0, 0, [true]) := by decide +kernel
theorem test_map_qam16 : after .map { configured 1 with bgq := [0x124, 0x100] }
    (fun s => (s.lvlI, s.lvlQ, s.txbits, s.bgq)) =
      some (0x4008000000000000, 0xBFF0000000000000, 0x124, [0x100]) := by decide +kernel
theorem test_map_qam64 : after .map { configured 2 with bgq := [0x195] } (fun s => (s.lvlI, s.lvlQ)) =
    some (0xC008000000000000, 0x4008000000000000) := by decide +kernel
theorem test_map_wrong_length : after .map { configured 0 with bgq := [0x118] }
    (fun s => (s.faultWord, s.faultInfo, s.bgq, s.txbits)) = some (3, 0x1824, [0x118], 0) := by decide +kernel
theorem test_map_holds : after .map (configured 0) (·.statusWord) = some 0x1003 := by decide +kernel
theorem test_txinit : after .txinit { configured 0 with txN := 32, txK := 4 } (fun s => (s.txN, s.txK)) =
    some (0, 0) := by decide +kernel
theorem test_mix_time_and_index : after .mix { configured 0 with txN := 9 } (fun s => (s.txout.map (·.time), s.txN)) =
    some ([0x3F526E978D4FDF3B], 10) := by decide +kernel
theorem test_mix_refused : after .mix { configured 0 with txN := 9, sinkReplies := [.error] }
    (fun s => (s.txout, s.txN, s.faultWord, s.faultInfo)) = some ([], 9, 2, 1) := by decide +kernel
theorem test_mix_waits_for_late_answer : after .mix { configured 0 with sinkReplies := [.pending, .pending, .ok] }
    (fun s => (s.txN, s.busy, s.sinkReplies)) = some (1, false, []) := by decide +kernel
theorem test_mix_never_answered : after .mix { configured 0 with sinkReplies := [.never] }
    (fun s => (s.txN, s.statusWord)) = some (0, 0x2103) := by decide +kernel
theorem test_gensym_counts : after .gensym { configured 0 with bgq := [0x080], txN := 8, txK := 1 }
    (fun s => (s.txN, s.txK, s.txout.length, s.statusWord)) = some (16, 2, 8, 0x2) := by decide +kernel
theorem test_genrun_holds_on_empty_queue : after .genrun (configured 0) (fun s => (s.statusWord, s.txN)) =
    some (0x2303, 0) := by decide +kernel
theorem test_genrun_counts : after .genrun { configured 0 with bgq := [0x080, 0x0B0, 0x090, 0x0A0, 0x080] }
    (fun s => (s.txN, s.txK, s.txbits, s.txout.length, s.bgq)) = some (32, 4, 0x0A0, 32, [0x080]) := by decide +kernel
theorem test_rxinit : after .rxinit { configured 0 with rxK := 4, rxJ := 8, isum := 0x400FFFFFFFFFFFEE }
    (fun s => (s.rxK, s.rxJ, s.isum)) = some (0, 0, 0) := by decide +kernel
theorem test_acclr : after .acclr { configured 0 with rxK := 2, rxJ := 8, qsum := 0x400FFFFFFFFFFFEE }
    (fun s => (s.rxK, s.rxJ, s.qsum)) = some (2, 0, 0) := by decide +kernel
theorem test_corr_without_sample : after .corr { configured 0 with rxK := 1, isum := 0x3FF0000000000000 }
    (fun s => (s.rxJ, s.isum)) = some (1, 0x3FF0000000000000) := by decide +kernel
theorem test_corr_window_complete : after .corr { configured 0 with rxJ := 8 }
    (fun s => (s.faultWord, s.faultInfo, s.rxJ)) = some (6, 0x32, 8) := by decide +kernel
theorem test_avg : after .avg { configured 0 with isum := 0x4010000000000001, qsum := 0x4010000000000000 }
    (fun s => (s.iavg, s.qavg)) = some (0x3FE0000000000001, 0x3FE0000000000000) := by decide +kernel
theorem test_corrwin_empty : after .corrwin { configured 0 with iavg := 1, rxJ := 3 }
    (fun s => (s.rxJ, s.isum, s.iavg, s.qavg)) = some (8, 0, 0, 0) := by decide +kernel
theorem test_decide_qam16 : after .decideCmd { configured 1 with iavg := 0x3FF8000000000000, qavg := 0xBFF8000000000000 }
    (fun s => (s.rxbits, s.bitout)) = some (0x134, [true, true, false, true]) := by decide +kernel
theorem test_decide_qam64_tie : after .decideCmd { configured 2 with iavg := 0xC018000000000000, qavg := 0x400C000000000000 }
    (fun s => (s.rxbits, s.bitout)) = some (0x185, [false, false, false, true, false, true]) := by decide +kernel
theorem test_decide_qam64_artefacts : (nearestIndex 0x4360000000000000, nearestIndex 0x4370000000000000,
    nearestIndex 0x7E37E43C8800759C) = (7, 6, 0) := by decide +kernel
theorem test_decide_origin : after .decideCmd { configured 0 with iavg := 0x8000000000000000 } (·.rxbits) =
    some 0x0A0 := by decide +kernel
theorem test_decide_nonfinite : after .decideCmd { configured 0 with iavg := 0x3FF0000000000000, qavg := 0x7FF8000000000000 }
    (fun s => (s.faultWord, s.faultInfo, s.bitout)) = some (4, 2, []) := by decide +kernel
theorem test_decide_infinity_qam16 : after .decideCmd { configured 1 with iavg := 0x7FF0000000000000, qavg := 0xFFF0000000000000 }
    (fun s => (s.faultWord, s.rxbits)) = some (0, 0x120) := by decide +kernel
theorem test_demsym_empty_window : after .demsym { configured 0 with rxK := 4 }
    (fun s => (s.rxK, s.rxJ, s.bitout)) = some (5, 8, [true, false]) := by decide +kernel
theorem test_demrun_qam16_empty : after .demrun (configuredFor 1 2 8) (fun s => (s.rxK, s.rxJ, s.rxbits, s.bitout)) =
    some (2, 8, 0x13C, [true, true, true, true, true, true, true, true]) := by decide +kernel
theorem test_demrun_qam64_empty : after .demrun (configuredFor 2 1 8) (fun s => (s.rxbits, s.bitout)) =
    some (0x19B, [false, true, true, false, true, true]) := by decide +kernel

theorem test_bits_groups : bitsBeats .qam16 [true, false, false, true, false, false, false, true] = [0x124, 0x104] := by
  decide
/-- GENRUN, then SRESET: LOOPBACK still takes the samples of that run (30_encoding.md R112), and only them. -/
theorem test_loopback_after_sreset :
    (after .genrun { configuredFor 1 1 2 with bgq := [0x124], txout := [⟨7, 7⟩] } fun s =>
      (s.softReset.txout.length, s.softReset.lastRun.map (·.time))) =
      some (3, [ncoTime 0 0x40BF400000000000, ncoTime 1 0x40BF400000000000]) := by decide +kernel

/-! ## The host's accesses and the ports (sections 2.1, 2.2) -/

theorem test_issue_while_busy : (issue .nop (issue .genrun (configured 0))).statusWord = 0x6 := by decide +kernel
theorem test_busy_before_legality : (writeCmd 0x11 (issue .genrun (configured 0))).faultInfo = 0x11 := by decide +kernel
theorem test_write_fc_locked : (hostWrite 64 0x28 0 (configured 0)).faultInfo = 0x28 := by decide +kernel
theorem test_write_count_too_wide : (hostWrite 64 0x20 0x100000000 State.reset).faultWord = 7 := by decide +kernel
theorem test_write_modulation_3 : (hostWrite 64 0x40 3 State.reset).modulation = 3 := by decide +kernel
theorem test_read_reserved : ((hostRead 64 0xB0 State.reset).faultInfo, (hostRead 64 0xB0 State.reset).hostData) =
    (0xB0, none) := by decide +kernel
theorem test_read_narrow : (hostRead 32 0x08 State.reset).faultWord = 7 := by decide +kernel
theorem test_read_cmd : hostRead 64 0x00 (configured 2) = { configured 2 with hostData := some 0 } := by decide +kernel
theorem test_read_avail : (hostRead 64 0x70 { configured 2 with rxbuf := [⟨0, 0⟩] }).hostData = some 1 := by decide +kernel
theorem test_first_beat_accepted : (bitSourceTurn { configured 0 with bitSupply := [0x090] }).bgq = [0x090] := by
  decide +kernel
theorem test_sample_error : (sampleSourceTurn { configured 0 with sampleSupply := [⟨0, 0, true⟩] }).faultWord = 2 := by
  decide +kernel
theorem test_sample_waits_while_busy :
    (sampleSourceTurn { issue .genrun (configured 0) with sampleSupply := [⟨0, 0, false⟩] }).rxbuf = [] := by
  decide +kernel

/-! ## Witnesses: for each statement with hypotheses, concrete states and operands that meet them all, with one case for
each clause, at a boundary of its range -/

open Sys2Proof.Claims

/-- A field of the state after a command, as a fact about its next state. -/
theorem next_of_after {α : Type} {i : Instr} {s : State} {f : State → α} {v : α} (h : after i s f = some v) :
    ∃ t, exec i s = .next t ∧ f t = v := by
  unfold after nextOf at h
  split at h
  · rename_i t ht; exact ⟨t, ht, by simpa using h⟩
  · simp at h
  · simp at h

/-- A locked state with a command in flight meets the invariant. -/
theorem good_busy : (configured 1 |>.accepted .genrun).Good where
  lockedConfigLegal := fun _ => by decide +kernel
  faultedIsIdle := fun h => by revert h; decide
  noFaultNoInfo := fun _ => rfl
  curConsistent := ⟨by decide +kernel, rfl, List.suffix_refl _⟩
  buffersFit := ⟨Nat.zero_le _, Nat.zero_le _⟩
  sumsNotNegZero := by constructor <;> decide +kernel
  unlockedIsUntouched := fun h => by revert h; decide
  windowInRange := by show (0 : Count) ≤ 8; decide
  groupsHaveSchemeLength := ⟨.inl rfl, .inl rfl⟩
  runStartInRange := Nat.zero_le _

theorem witness_StepRunsDecodedCommand :
    (State.reset.withFetchWord 64 0x23).fetched = some 0x23 ∧ decode 0x23 = .ok .genrun := by decide
theorem witness_BytesDecodeAsTheirWord : 0 < 8 ∧ 7 < 8 := by decide
theorem witness_DecodeIsInverseOfEncode : ∀ i : Instr, i = .nop ∨ i = .demrun → i.wellFormed = true := by
  rintro i (rfl | rfl) <;> rfl
theorem witness_BeatLayout : List.length ([] : BitGroup) ≤ 6 ∧
    List.length ([true, false, true, false, true, true] : BitGroup) ≤ 6 := by decide
theorem witness_StepKeepsGood :
    ∃ t, (configured 1 |>.accepted .genrun).Good ∧ step (configured 1 |>.accepted .genrun) = .next t :=
  ⟨_, good_busy, rfl⟩
theorem witness_GoodStatesNeverStop : (configured 1 |>.accepted .genrun).Good := good_busy

/-- The host's next action is a write of this value to `CMD`. -/
def writing (s : State) (off v : Word) : State := { s with turns := [.host], hostActs := [.write 64 off v] }

theorem witness_CommandAcceptanceOrder :
    let busy := (configured 0).accepted .genrun
    let bad := { configured 0 with faultCode := .store }
    (writing State.reset 0 0).turns = [.host] ∧ (writing State.reset 0 0).hostActs = [.write 64 0 0] ∧
    (bad.faulted = true) ∧ (busy.faulted = false ∧ busy.busy = true) ∧
    (¬ (0x52 ∈ [0x00, 0x01] ++ datapathOpcodes) ∧ ¬ (0x0F ∈ [0x00, 0x01] ++ datapathOpcodes) ∧
      ¬ (0x100000010 ∈ [0x00, 0x01] ++ datapathOpcodes)) ∧
    (configured 0).locked = true ∧ (0x10 ∈ datapathOpcodes ∧ 0x51 ∈ datapathOpcodes ∧ State.reset.locked = false) := by
  decide
theorem witness_CommandTurnedAway :
    (Instr.nop ≠ .sreset ∧ State.faulted { configured 0 with faultCode := .store } = true) ∧
    (((configured 0).accepted .genrun).faulted = false ∧ ((configured 0).accepted .genrun).busy = true) ∧
    ((configured 0).faulted = false ∧ (configured 0).busy = false ∧ (configured 0).locked = true) ∧
    (State.reset.faulted = false ∧ State.reset.busy = false ∧ Instr.map ≠ .nop ∧ Instr.map ≠ .configure ∧
      State.reset.locked = false) := by decide
theorem witness_RaiseRecordsFirstFault :
    State.reset.faulted = false ∧ State.faulted { State.reset with faultCode := .access } = true := by decide
theorem witness_FaultedStateIsSticky :
    let s := writing { configured 0 with faultCode := .store } 0x50 1
    s.faulted = true ∧ s.cur = Cur.idle ∧ ¬ s.hostResets ∧ ∃ t, step s = .next t := by
  refine ⟨by decide, rfl, ?_, _, rfl⟩
  rintro ⟨ts, as, _, h | h⟩ <;> simp [writing] at h
theorem witness_BlockFaultIsPrecise :
    let s := { configured 0 with rxJ := 8, cur := ⟨some .corr, [.corr]⟩ }
    s.faulted = false ∧ ∃ t, blockStep s = .next t ∧ t.faulted = true := ⟨by decide, _, rfl, by decide +kernel⟩
theorem witness_BlockMakesProgress :
    let s (r : SinkReply) : State := { configured 0 with sinkReplies := [r], cur := ⟨some .mix, [.mix]⟩ }
    ((s .pending).busy = true ∧ ∃ t, blockStep (s .pending) = .next t) ∧
    ((s .never).busy = true ∧ ∃ t, blockStep (s .never) = .next t) := ⟨⟨by decide, _, rfl⟩, by decide, _, rfl⟩
theorem witness_NopChangesNothing : State.reset.faulted = false ∧ State.reset.busy = false := by decide
theorem witness_ConfigureChecksAndLocks :
    let least : State := { State.reset with symbolCount := 1, samplesPerSymbol := 1, modulation := 2, fs := 1 }
    (least.faulted = false ∧ least.busy = false ∧ least.locked = false ∧ configMask least = 0) ∧
    (State.reset.faulted = false ∧ State.reset.busy = false ∧ State.reset.locked = false ∧
      configMask State.reset = 0x13) := by decide +kernel
theorem witness_LockedConfigurationIsFixed :
    let s := writing (configured 0) 0x28 0
    s.locked = true ∧ ¬ s.hostResets ∧ ∃ t, step s = .next t := by
  refine ⟨rfl, ?_, _, rfl⟩
  rintro ⟨ts, as, _, h | h⟩ <;> simp [writing] at h
theorem witness_OutputsOnlyGrow : ∃ t, step (writing (configured 0) 0 0x02) = .next t := ⟨_, rfl⟩
theorem witness_ReceiveBufferOnlyGrows :
    let s := { configured 0 with turns := [.sampleSource], sampleSupply := [⟨0, 0, false⟩] }
    ¬ s.hostResets ∧ ∃ t, step s = .next t := by
  refine ⟨?_, _, rfl⟩
  rintro ⟨ts, as, h, _⟩
  simp at h

theorem ready_configured (m : BitVec 2) : Ready (configured m) := ⟨rfl, rfl, rfl⟩

theorem witness_MapWritesLevels :
    (Ready { configured 0 with bgq := [0x09F] } ∧ BitVec.extractLsb' 6 3 (0x09F : Beat) = 2) ∧
    (Ready { configured 1 with bgq := [0x124] } ∧ BitVec.extractLsb' 6 3 (0x124 : Beat) = 4) ∧
    (Ready { configured 2 with bgq := [0x1BF] } ∧ BitVec.extractLsb' 6 3 (0x1BF : Beat) = 6) :=
  ⟨⟨⟨rfl, rfl, rfl⟩, by decide⟩, ⟨⟨rfl, rfl, rfl⟩, by decide⟩, ⟨⟨rfl, rfl, rfl⟩, by decide⟩⟩
theorem witness_MapWrongLengthFaults :
    Ready { configured 0 with bgq := [0x000] } ∧ Ready { configured 2 with bgq := [0x1C0] } ∧
    schemeOfCode 0 = some .qpsk ∧ (BitVec.extractLsb' 6 3 (0x000 : Beat)).toNat ≠ bitsPerSymbol .qpsk ∧
    schemeOfCode 2 = some .qam64 ∧ (BitVec.extractLsb' 6 3 (0x1C0 : Beat)).toNat ≠ bitsPerSymbol .qam64 :=
  ⟨⟨rfl, rfl, rfl⟩, ⟨rfl, rfl, rfl⟩, rfl, by decide, rfl, by decide⟩
theorem witness_MapHoldsUntilGroupArrives :
    Ready (configured 1) ∧ (configured 1).bgq = [] ∧ schemeOfCode (configured 1).modulation = some .qam16 ∧
    (BitVec.extractLsb' 6 3 (0x124 : Beat)).toNat = bitsPerSymbol .qam16 :=
  ⟨ready_configured 1, rfl, rfl, by decide⟩
theorem witness_InitCommandsClear : Ready { configured 0 with txN := 32, txK := 4, rxK := 4, rxJ := 8 } :=
  ⟨rfl, rfl, rfl⟩
theorem witness_MixEmitsOneSample :
    Ready { configured 0 with txN := 0xFFFFFFFFFFFFFFFF, sinkReplies := [.ok, .error] } ∧
    SinkTakes 1 { configured 0 with sinkReplies := [.ok, .error] } := ⟨⟨rfl, rfl, rfl⟩, by simp [SinkTakes]⟩
theorem witness_MixWhenSinkRefuses :
    Ready { configured 0 with sinkReplies := [.error] } ∧ Ready { configured 0 with sinkReplies := [.pending, .ok] } ∧
    Ready { configured 0 with sinkReplies := [.never] } :=
  ⟨⟨rfl, rfl, rfl⟩, ⟨rfl, rfl, rfl⟩, ⟨rfl, rfl, rfl⟩⟩
theorem witness_FirstSampleIsTheILevel :
    (FinitePositive 0x0000000000000001 ∧ isfinite (fmul constTWO_PI 0) = true ∧ fsign (fmul constTWO_PI 0) = false) ∧
    (isfinite 0x8000000000000001 = true ∧ iszero 0x8000000000000001 = false ∧ isfinite 0x7FEFFFFFFFFFFFFF = true) :=
  ⟨⟨⟨by decide +kernel, by decide +kernel⟩, by decide +kernel, by decide +kernel⟩, by decide +kernel⟩
theorem witness_TimeIsNonDecreasing :
    FinitePositive 0x40BF400000000000 ∧ 0 ≤ 2 ^ 64 - 1 ∧ 2 ^ 64 - 1 < 2 ^ 64 :=
  ⟨⟨by decide +kernel, by decide +kernel⟩, by decide, by decide⟩

/-- Two symbols of one sample, the groups queued. -/
def twoSymbols : State := { configuredFor 1 2 1 with bgq := [0x124, 0x100, 0x000], sinkReplies := [.ok, .ok, .error] }

/-- One symbol of two samples whose sink takes the first and answers the second as given. -/
def secondAnswered (r : SinkReply) : State := { configuredFor 1 1 2 with bgq := [0x124], sinkReplies := [.ok, r] }

theorem witness_GensymEmitsOneSymbol :
    (Ready (configured 1) ∧ schemeOfCode (configured 1).modulation = some .qam16 ∧ (configured 1).bgq = []) ∧
    (Ready { configured 1 with bgq := [0x0E4] } ∧
      (BitVec.extractLsb' 6 3 (0x0E4 : Beat)).toNat ≠ bitsPerSymbol .qam16) ∧
    (Ready twoSymbols ∧ twoSymbols.bgq = 0x124 :: [0x100, 0x000] ∧
      schemeOfCode twoSymbols.modulation = some .qam16 ∧
      (BitVec.extractLsb' 6 3 (0x124 : Beat)).toNat = bitsPerSymbol .qam16 ∧
      SinkTakes twoSymbols.samplesPerSymbol.toNat twoSymbols) ∧
    (∀ r ∈ [SinkReply.error, .pending, .never],
      Ready (secondAnswered r) ∧ schemeOfCode (secondAnswered r).modulation = some .qam16 ∧
      (secondAnswered r).bgq = 0x124 :: [] ∧ 1 < (secondAnswered r).samplesPerSymbol.toNat ∧
      SinkTakes 1 (secondAnswered r) ∧ (secondAnswered r).sinkReplies[1]? = some r) :=
  ⟨⟨ready_configured 1, rfl, rfl⟩, ⟨⟨rfl, rfl, rfl⟩, by decide⟩,
    ⟨⟨rfl, rfl, rfl⟩, rfl, rfl, by decide, by simp [SinkTakes, twoSymbols, configuredFor]⟩,
    fun r _ => ⟨⟨rfl, rfl, rfl⟩, rfl, rfl, Nat.lt_succ_self 1, by simp [SinkTakes, secondAnswered], rfl⟩⟩
theorem groups_twoSymbols :
    ∀ b ∈ twoSymbols.bgq.take twoSymbols.symbolCount.toNat, (b.extractLsb' 6 3).toNat = bitsPerSymbol .qam16 := by
  decide
theorem sink_twoSymbols :
    SinkTakes (twoSymbols.symbolCount.toNat * twoSymbols.samplesPerSymbol.toNat) twoSymbols := by
  simp [SinkTakes, twoSymbols, configuredFor]
theorem witness_GenrunEmitsWholeRun :
    Ready twoSymbols ∧ schemeOfCode twoSymbols.modulation = some .qam16 ∧
    twoSymbols.symbolCount.toNat ≤ twoSymbols.bgq.length ∧
    (∀ b ∈ twoSymbols.bgq.take twoSymbols.symbolCount.toNat, (b.extractLsb' 6 3).toNat = bitsPerSymbol .qam16) ∧
    SinkTakes (twoSymbols.symbolCount.toNat * twoSymbols.samplesPerSymbol.toNat) twoSymbols :=
  ⟨⟨rfl, rfl, rfl⟩, rfl, by decide, groups_twoSymbols, sink_twoSymbols⟩
theorem genrun_twoSymbols : after .genrun twoSymbols (fun t => (t.busy, t.faulted)) = some (false, false) := by
  decide +kernel
theorem witness_GenrunRunLength :
    Ready twoSymbols ∧ ∃ t, exec .genrun twoSymbols = .next t ∧ t.busy = false ∧ t.faulted = false :=
  ⟨⟨rfl, rfl, rfl⟩, (next_of_after genrun_twoSymbols).imp fun _ h => ⟨h.1, by simpa using h.2⟩⟩
theorem witness_CorrAccumulatesOneSample :
    let s : State := { configuredFor 0 1 2 with rxJ := 1, rxbuf := [⟨0, 0⟩, ⟨0, 0⟩] }
    let truncated : State := { s with rxbuf := [⟨0, 0⟩] }
    (Ready s ∧ s.rxJ < s.samplesPerSymbol ∧
      s.rxK.toNat * s.samplesPerSymbol.toNat + s.rxJ.toNat < s.rxAvail.toNat) ∧
    (Ready truncated ∧ truncated.rxJ < truncated.samplesPerSymbol ∧
      truncated.rxAvail.toNat ≤
        truncated.rxK.toNat * truncated.samplesPerSymbol.toNat + truncated.rxJ.toNat) ∧
    (Ready { s with rxJ := 2 } ∧ (2 : Count) ≤ s.samplesPerSymbol) :=
  ⟨⟨⟨rfl, rfl, rfl⟩, by decide, by decide⟩, ⟨⟨rfl, rfl, rfl⟩, by decide, by decide⟩, ⟨rfl, rfl, rfl⟩, by decide⟩
theorem witness_AvgDividesBySamplesPerSymbol : Ready { configured 0 with isum := 0x4010000000000001 } := ⟨rfl, rfl, rfl⟩
theorem witness_CorrwinCorrelatesWindow : Ready { configured 0 with rxK := 1, rxbuf := [⟨0, 0⟩] } := ⟨rfl, rfl, rfl⟩
theorem witness_EmptyWindowGivesZero :
    let s : State := { configuredFor 0 2 1 with rxK := 1, rxbuf := [⟨0, 0⟩] }
    Ready s ∧ s.samplesPerSymbol ≠ 0 ∧ s.rxAvail.toNat ≤ s.rxK.toNat * s.samplesPerSymbol.toNat :=
  ⟨⟨rfl, rfl, rfl⟩, by decide, by decide⟩
theorem witness_WindowsAreIndependent :
    let s₁ : State := { configuredFor 0 2 1 with rxbuf := [⟨0, 7⟩, ⟨0, 1⟩] }
    let s₂ : State := { configuredFor 1 3 1 with rxbuf := [⟨5, 7⟩] }
    Ready s₁ ∧ Ready s₂ ∧ s₁.rxK = s₂.rxK ∧ s₁.fc = s₂.fc ∧ s₁.fs = s₂.fs ∧
    s₁.samplesPerSymbol = s₂.samplesPerSymbol ∧
    (∀ j, j < s₁.samplesPerSymbol.toNat →
      (sampleAt s₁ (s₁.rxK.toNat * s₁.samplesPerSymbol.toNat + j)).map (·.amp) =
      (sampleAt s₂ (s₁.rxK.toNat * s₁.samplesPerSymbol.toNat + j)).map (·.amp)) ∧
    (∃ t, exec .corrwin s₁ = .next t) ∧ ∃ t, exec .corrwin s₂ = .next t :=
  ⟨⟨rfl, rfl, rfl⟩, ⟨rfl, rfl, rfl⟩, rfl, rfl, rfl, rfl, by decide,
    (next_of_after (f := (·.rxJ)) (v := 1) (by decide +kernel)).imp fun _ h => h.1,
    (next_of_after (f := (·.rxJ)) (v := 1) (by decide +kernel)).imp fun _ h => h.1⟩
theorem witness_DecideEmitsGroup :
    (Ready { configured 0 with iavg := 1, qavg := 0x7FEFFFFFFFFFFFFF } ∧ isfinite 1 = true ∧
      isfinite 0x7FEFFFFFFFFFFFFF = true) ∧
    (Ready { configured 1 with iavg := 0x7FF0000000000000, qavg := 0xFFF0000000000000 } ∧
      isnan 0x7FF0000000000000 = false ∧ isnan 0xFFF0000000000000 = false) ∧
    (Ready { configured 2 with iavg := 0xC018000000000000, qavg := 0x4018000000000000 } ∧
      isfinite 0xC018000000000000 = true ∧ isfinite 0x4018000000000000 = true) :=
  ⟨⟨⟨rfl, rfl, rfl⟩, by decide⟩, ⟨⟨rfl, rfl, rfl⟩, by decide⟩, ⟨⟨rfl, rfl, rfl⟩, by decide⟩⟩
theorem witness_DecideNonFiniteFaults :
    (Ready { configured 2 with iavg := 0x7FF0000000000000, qavg := 1 } ∧
      ¬ (isfinite 0x7FF0000000000000 = true ∧ isfinite 1 = true)) ∧
    (Ready { configured 1 with iavg := 0x7FF0000000000001, qavg := 1 } ∧
      ¬ (isnan 0x7FF0000000000001 = false ∧ isnan 1 = false)) :=
  ⟨⟨⟨rfl, rfl, rfl⟩, by decide⟩, ⟨⟨rfl, rfl, rfl⟩, by decide⟩⟩
theorem witness_QpskOriginDecision :
    Ready { configured 0 with iavg := 0x8000000000000000 } ∧ iszero 0x8000000000000000 = true ∧ iszero 0 = true :=
  ⟨⟨rfl, rfl, rfl⟩, by decide, by decide⟩

/-- One sample, a NaN: its window cannot be decided. -/
def nanWindow : State := { configuredFor 1 1 1 with rxbuf := [⟨0, 0x7FF8000000000000⟩] }

theorem nanWindow_undecidable : ¬ WindowDecidable .qam16 nanWindow 0 := by
  have key : ∀ f : F64 → F64, isnan (windowAvg f nanWindow 0) = true := by
    intro f
    apply isnan_fdiv_left
    show isnan (fadd (fzero false) (fmul 0x7FF8000000000000 _)) = true
    exact isnan_fadd_right (isnan_fmul_left (by decide))
  unfold WindowDecidable nonFiniteMask
  simp [key]
theorem emptyWindow_decidable (k : Nat) : WindowDecidable .qam16 (configuredFor 1 2 8) k := by
  have key : ∀ f : F64 → F64, windowAvg f (configuredFor 1 2 8) k = fzero false := by
    intro f
    show fdiv (fzero false) (u2f 8) = fzero false
    decide +kernel
  unfold WindowDecidable
  rw [key, key]
  decide +kernel
theorem witness_DemsymDecidesOneWindow :
    (Ready (configuredFor 1 2 8) ∧ schemeOfCode 1 = some .qam16 ∧ WindowDecidable .qam16 (configuredFor 1 2 8) 0) ∧
    (Ready nanWindow ∧ ¬ WindowDecidable .qam16 nanWindow nanWindow.rxK.toNat) :=
  ⟨⟨⟨rfl, rfl, rfl⟩, rfl, emptyWindow_decidable 0⟩, ⟨rfl, rfl, rfl⟩, nanWindow_undecidable⟩
theorem witness_DemrunDecidesAllWindows :
    Ready (configuredFor 1 2 8) ∧ schemeOfCode (configuredFor 1 2 8).modulation = some .qam16 ∧
    ∀ k, k < (configuredFor 1 2 8).symbolCount.toNat → WindowDecidable .qam16 (configuredFor 1 2 8) k :=
  ⟨⟨rfl, rfl, rfl⟩, rfl, fun k _ => emptyWindow_decidable k⟩
theorem witness_DemrunRecoveredLength :
    Ready (configuredFor 1 2 8) ∧ schemeOfCode (configuredFor 1 2 8).modulation = some .qam16 ∧
    ∃ t, exec .demrun (configuredFor 1 2 8) = .next t ∧ t.faulted = false :=
  ⟨⟨rfl, rfl, rfl⟩, rfl, next_of_after (f := (·.faulted)) (by decide +kernel)⟩
theorem witness_DemrunOnEmptyBuffer :
    Ready (configuredFor 1 2 8) ∧ schemeOfCode (configuredFor 1 2 8).modulation = some .qam16 ∧
    (configuredFor 1 2 8).rxbuf = [] ∧ (configuredFor 1 2 8).samplesPerSymbol ≠ 0 :=
  ⟨⟨rfl, rfl, rfl⟩, rfl, rfl, by decide⟩
theorem witness_RunsAreTheirParts :
    Ready twoSymbols ∧
    (∃ t, t.busy = false ∧ exec .genrun twoSymbols = .next t) ∧
    ∃ t, t.busy = false ∧ exec .demrun twoSymbols = .next t :=
  ⟨⟨rfl, rfl, rfl⟩,
    (next_of_after genrun_twoSymbols).imp fun _ h => ⟨by have := h.2; simp at this; exact this.1, h.1⟩,
    (next_of_after (f := (·.busy)) (v := false) (by decide +kernel)).imp fun _ h => ⟨h.2, h.1⟩⟩
theorem witness_WholeRunRecoversByWindow :
    Ready twoSymbols ∧ schemeOfCode twoSymbols.modulation = some .qam16 ∧ twoSymbols.rxbuf = [] ∧
    twoSymbols.symbolCount.toNat ≤ twoSymbols.bgq.length ∧
    (∀ b ∈ twoSymbols.bgq.take twoSymbols.symbolCount.toNat, (b.extractLsb' 6 3).toNat = bitsPerSymbol .qam16) ∧
    SinkTakes (twoSymbols.symbolCount.toNat * twoSymbols.samplesPerSymbol.toNat) twoSymbols :=
  ⟨⟨rfl, rfl, rfl⟩, rfl, rfl, by decide, groups_twoSymbols, sink_twoSymbols⟩

/-- The host's next action is this read. -/
def reading (size : Nat) (off : Word) : State :=
  { configured 0 with turns := [.host], hostActs := [.read size off] }

theorem witness_HostReadsRegister :
    (reading 64 0).turns = [.host] ∧ (reading 64 0).hostActs = [.read 64 0] ∧
    (regAtOffset 0 = some .cmd ∧ regAtOffset 0xA8 = some .rxbits ∧ BitVec.toNat (0xA8 : Word) % 8 = 0) ∧
    (32 ≠ 64 ∧ BitVec.toNat (0x01 : Word) % 8 ≠ 0 ∧ 0xB0 ≤ BitVec.toNat (0xB0 : Word)) := by decide
theorem witness_StatusWordFields :
    let s := (configured 0).accepted .demrun
    s.cur.todo ≠ [] ∧ s.cur.op = some .demrun ∧ State.reset.cur.todo = [] := by decide
theorem witness_RegisterMapOffsets :
    0xB0 ≤ BitVec.toNat (0xB0 : Word) ∧ BitVec.toNat (0xA9 : Word) % 8 ≠ 0 := by decide
theorem witness_HostWriteRefused :
    (writing (configured 0) 0xA8 0).turns = [.host] ∧ (writing (configured 0) 0xA8 0).hostActs = [.write 64 0xA8 0] ∧
    (128 ≠ 64 ∧ BitVec.toNat (0x27 : Word) % 8 ≠ 0 ∧ 0xB0 ≤ BitVec.toNat (0xB0 : Word) ∧
      BitVec.toNat (0x08 : Word) ∈ [0x08, 0x10, 0x18, 0x48, 0x60, 0x68, 0x70, 0x78, 0x80, 0x88, 0x90, 0xA8] ∧
      BitVec.toNat (0xA8 : Word) ∈ [0x08, 0x10, 0x18, 0x48, 0x60, 0x68, 0x70, 0x78, 0x80, 0x88, 0x90, 0xA8]) := by
  decide
theorem witness_HostWritesConfiguration :
    (writing State.reset 0x40 3).turns = [.host] ∧ (writing State.reset 0x40 3).hostActs = [.write 64 0x40 3] ∧
    (State.reset.locked = false ∧ State.reset.busy = false ∧ State.reset.faulted = false) ∧
    (BitVec.toNat (0xFFFFFFFF : Word) < 2 ^ 32 ∧ BitVec.toNat (3 : Word) < 4) ∧
    ¬ ((configured 0).locked = false ∧ (configured 0).busy = false ∧ (configured 0).faulted = false) ∧
    2 ^ 32 ≤ BitVec.toNat (0x100000000 : Word) ∧ 4 ≤ BitVec.toNat (4 : Word) := by decide
theorem witness_HostWritesData :
    (writing (configured 0) 0xA0 3).turns = [.host] ∧ (writing (configured 0) 0xA0 3).hostActs = [.write 64 0xA0 3] ∧
    ((configured 0).busy = false ∧ (configured 0).faulted = false) ∧
    ¬ (((configured 0).accepted .genrun).busy = false ∧ ((configured 0).accepted .genrun).faulted = false) := by decide
theorem witness_BitSourcePush :
    let s : State := { configured 0 with turns := [.bitSource], bitSupply := [0x090] }
    s.turns = [.bitSource] ∧ s.bitSupply = [0x090] ∧ (s.faulted = false ∧ s.bgq.length < Config.bgqDepth) ∧
    (State.faulted { s with faultCode := .store } = true) ∧
    Config.bgqDepth ≤ List.length (List.replicate Config.bgqDepth (0x090 : Beat)) :=
  ⟨rfl, rfl, ⟨rfl, bgqDepth_pos⟩, rfl, by simp⟩
theorem witness_SampleSourcePush :
    let s : State := { configured 0 with turns := [.sampleSource], sampleSupply := [⟨0, 0, true⟩] }
    s.turns = [.sampleSource] ∧ s.sampleSupply = [⟨0, 0, true⟩] ∧
    (s.busy = false ∧ s.faulted = false ∧ s.rxAvail.toNat < Config.rxbufDepth) ∧
    ¬ ((s.accepted .genrun).busy = false) ∧
    ¬ (State.rxAvail { s with rxbuf := List.replicate Config.rxbufDepth ⟨0, 0⟩ }).toNat < Config.rxbufDepth :=
  ⟨rfl, rfl, ⟨rfl, rfl, rxbufDepth_pos⟩, by decide, by
    have h := rxbufDepth_lt
    simp only [State.rxAvail, List.length_replicate, BitVec.toNat_ofNat]
    rw [Nat.mod_eq_of_lt h]
    exact Nat.lt_irrefl _⟩
theorem witness_BitPushCommutesWithBlock :
    let s : State := { configured 1 with bitSupply := [0x124], cur := ⟨some .nop, [.nop]⟩ }
    s.bgAccepts = true ∧ ¬ (s.bgq = [] ∧ s.cur.todo.head? = some .map) ∧
    ∃ t, blockStep s = .next t ∧ t.faulted = false :=
  ⟨by simp [State.bgAccepts, State.faulted, configured, State.reset, bgqDepth_pos], by decide, _, rfl, rfl⟩

theorem witness_SlowSinkChangesNoValue :
    ∃ t, exec .mix { configured 0 with sinkReplies := [.pending, .error] } = .next t ∧ t.faultCode = .store :=
  next_of_after (by decide +kernel)

end Sys2Proof.Tests
end

section
/-! PROOFS of the family 00_scope.md: the mixer's one sample (O28), the signs of the QPSK levels (O26), the first sample
of a run (O30). The facts about binary64 come first: each operation on finite operands, and multiplication by one, by
zero and by a constant that is at least one. -/

namespace Sys2Proof.Proofs

open Sys2Proof.Machine Sys2Proof.Claims

/-! ## Binary64: classes of values -/

theorem isfinite_iff (x : F64) : isfinite x = true ↔ fmag x < infMag := decide_eq_true_iff

theorem isnan_eq_false_of_isfinite {x : F64} (hx : isfinite x = true) : isnan x = false :=
  decide_eq_false (Nat.lt_asymm ((isfinite_iff x).mp hx))

theorem isinf_eq_false_of_isfinite {x : F64} (hx : isfinite x = true) : isinf x = false :=
  beq_eq_false_iff_ne.mpr (Nat.ne_of_lt ((isfinite_iff x).mp hx))

/-- A value is finite, an infinity or a NaN. -/
theorem isfinite_or_isinf_or_isnan (x : F64) : isfinite x = true ∨ isinf x = true ∨ isnan x = true := by
  simp only [isfinite, isinf, isnan, decide_eq_true_eq, beq_iff_eq]
  omega

@[simp] theorem fmag_fzero (s : Bool) : fmag (fzero s) = 0 := fmag_pack s (by decide)

@[simp] theorem fsign_fzero (s : Bool) : fsign (fzero s) = s := fsign_pack s (by decide)

theorem units_of_fmag_zero {x : F64} (h : fmag x = 0) : units x = 0 := by simp [units_eq, h]

@[simp] theorem units_fzero (s : Bool) : units (fzero s) = 0 := units_of_fmag_zero (fmag_fzero s)

@[simp] theorem signedUnits_fzero (s : Bool) : signedUnits (fzero s) = 0 := by simp [signedUnits]

theorem isfinite_fzero (s : Bool) : isfinite (fzero s) = true := by simp [isfinite_iff, infMag]

@[simp] theorem fmag_finf (s : Bool) : fmag (finf s) = infMag := fmag_pack s (by decide)

@[simp] theorem fsign_finf (s : Bool) : fsign (finf s) = s := fsign_pack s (by decide)

theorem unitsPerOne_pos : 0 < unitsPerOne := by decide +kernel

/-! ## Binary64: comparison with zero -/

theorem zero_flt (x : F64) : flt (fzero false) x = (!isnan x && !fsign x && decide (0 < fmag x)) := by
  have hz := isnan_eq_false_of_isfinite (isfinite_fzero false)
  cases hs : fsign x <;> simp [flt, hz, orderKey, hs]

theorem flt_zero (x : F64) : flt x (fzero false) = (!isnan x && fsign x && decide (0 < fmag x)) := by
  have hz := isnan_eq_false_of_isfinite (isfinite_fzero false)
  cases hs : fsign x <;> simp [flt, hz, orderKey, hs]

/-- `y` is less than zero exactly when `x` is, and greater than zero exactly when `x` is. -/
def SameSide (y x : F64) : Prop :=
  flt (fzero false) y = flt (fzero false) x ∧ flt y (fzero false) = flt x (fzero false)

theorem sameSide_of_isnan {y x : F64} (hy : isnan y = true) (hx : isnan x = true) : SameSide y x := by
  simp [SameSide, zero_flt, flt_zero, hy, hx]

theorem sameSide_of_fsign_fmag {y x : F64} (hn : isnan y = isnan x) (hs : fsign y = fsign x)
    (hm : 0 < fmag y ↔ 0 < fmag x) : SameSide y x := by
  simp [SameSide, zero_flt, flt_zero, hn, hs, hm]

/-! ## Binary64: the operations on finite operands -/

/-- The product of two finite values is their exact product, narrowed once. -/
theorem fmul_finite {a b : F64} (ha : isfinite a = true) (hb : isfinite b = true) :
    fmul a b = pack (fsign a != fsign b) (roundMag (units a * units b) unitsPerOne) := by
  simp [fmul, isnan_eq_false_of_isfinite, isinf_eq_false_of_isfinite, ha, hb]

/-- The sum of two finite values that is not an exact zero is their exact sum, narrowed once. -/
theorem fadd_finite {a b : F64} (ha : isfinite a = true) (hb : isfinite b = true)
    (h0 : signedUnits a + signedUnits b ≠ 0) :
    fadd a b = pack (signedUnits a + signedUnits b < 0) (roundMag (signedUnits a + signedUnits b).natAbs 1) := by
  simp [fadd, isnan_eq_false_of_isfinite, isinf_eq_false_of_isfinite, ha, hb, h0]

theorem isfinite_one : isfinite 0x3FF0000000000000 = true := by decide +kernel

theorem fsign_one : fsign 0x3FF0000000000000 = false := by decide

theorem units_one : units 0x3FF0000000000000 = unitsPerOne := by decide +kernel

theorem fmul_one {x : F64} (hx : isfinite x = true) : fmul x 0x3FF0000000000000 = x := by
  rw [fmul_finite hx isfinite_one, units_one, roundMag_units x hx unitsPerOne_pos, fsign_one, Bool.bne_false,
    pack_fsign_fmag]

theorem fmul_posZero {x : F64} (hx : isfinite x = true) : fmul x (fzero false) = fzero (fsign x) := by
  rw [fmul_finite hx (isfinite_fzero false), units_fzero, Nat.mul_zero, roundMag_zero _ unitsPerOne_pos, fsign_fzero,
    Bool.bne_false, fzero]

theorem natAbs_signedUnits (x : F64) : (signedUnits x).natAbs = units x := by
  cases hs : fsign x <;> simp [signedUnits, hs]

theorem signedUnits_neg_iff {x : F64} (h : 0 < units x) : signedUnits x < 0 ↔ fsign x = true := by
  cases hs : fsign x <;> simp [signedUnits, hs, h]

/-- Adding a zero of either sign to a finite value other than zero changes nothing. -/
theorem fadd_fzero {x : F64} (hx : isfinite x = true) (h0 : iszero x = false) (s : Bool) :
    fadd x (fzero s) = x := by
  have hmag : 0 < fmag x := Nat.pos_of_ne_zero (beq_eq_false_iff_ne.mp h0)
  have hunits : 0 < units x := units_pos hmag
  have hsum : signedUnits x + signedUnits (fzero s) = signedUnits x := by simp
  have hne : signedUnits x ≠ 0 := fun h => by
    rw [← natAbs_signedUnits, h] at hunits; exact Nat.lt_irrefl 0 hunits
  have hround : roundMag (units x) 1 = fmag x := by simpa using roundMag_units x hx Nat.one_pos
  rw [fadd_finite hx (isfinite_fzero s) (by rwa [hsum]), hsum, natAbs_signedUnits, hround]
  simp only [signedUnits_neg_iff hunits, Bool.decide_eq_true, pack_fsign_fmag]

/-! ## Binary64: multiplication by a constant that is at least one -/

/-- Such a product of a finite value is not closer to zero than the value: the exact product is not, and narrowing is
monotone. So nothing underflows to a zero. -/
theorem fmag_le_roundMag_mul {c x : F64} (hc : unitsPerOne ≤ units c) (hx : isfinite x = true) :
    fmag x ≤ roundMag (units c * units x) unitsPerOne :=
  calc fmag x = roundMag (units x * unitsPerOne) unitsPerOne := (roundMag_units x hx unitsPerOne_pos).symm
    _ ≤ roundMag (units c * units x) unitsPerOne :=
      roundMag_mono unitsPerOne_pos (by rw [Nat.mul_comm]; exact Nat.mul_le_mul_right _ hc)

/-- Multiplication by a finite constant that is at least one keeps every value on its side of zero. -/
theorem sameSide_fmul {c : F64} (hf : isfinite c = true) (hs : fsign c = false) (hc : unitsPerOne ≤ units c) (x : F64) :
    SameSide (fmul c x) x := by
  have hcn := isnan_eq_false_of_isfinite hf
  rcases isfinite_or_isinf_or_isnan x with hx | hx | hx
  · rw [fmul_finite hf hx, hs, Bool.false_bne]
    refine sameSide_of_fsign_fmag ?_ (fsign_pack _ (roundMag_lt _ _)) ?_
    · rw [not_isnan_pack_roundMag, isnan_eq_false_of_isfinite hx]
    · rw [fmag_pack _ (roundMag_lt _ _)]
      refine ⟨fun h => Nat.pos_of_ne_zero fun h0 => ?_, fun h => Nat.lt_of_lt_of_le h (fmag_le_roundMag_mul hc hx)⟩
      rw [units_of_fmag_zero h0, Nat.mul_zero, roundMag_zero _ unitsPerOne_pos] at h
      exact Nat.lt_irrefl 0 h
  · have hm : fmag x = infMag := beq_iff_eq.mp hx
    have hxn : isnan x = false := by simp [isnan, hm]
    have hcz : iszero c = false := beq_eq_false_iff_ne.mpr fun h0 =>
      absurd (Nat.lt_of_lt_of_le unitsPerOne_pos hc) (by simp [units_of_fmag_zero h0])
    have hxz : iszero x = false := by simp [iszero, hm, infMag]
    have hprod : fmul c x = finf (fsign x) := by simp [fmul, hcn, hxn, hx, hcz, hxz, hs]
    rw [hprod]
    exact sameSide_of_fsign_fmag (by simp [isnan, hm]) (fsign_finf _) (by simp [hm])
  · exact sameSide_of_isnan (by simp [fmul, hx, isnan_nanOf]) hx

/-! ## The QPSK levels -/

theorem sameSide_fmul_sqrt2 (x : F64) : SameSide (fmul constSQRT2 x) x :=
  sameSide_fmul (by decide +kernel) (by decide) (by decide +kernel) x

/-- Settles O26: a level is `SQRT2`, which is at least one, times the carrier value. -/
theorem qpskLevelSigns : Obligations.QpskLevelSigns := by
  intro b0 b1
  obtain ⟨hIpos, hIneg⟩ := sameSide_fmul_sqrt2 (Config.cos (qpskPhase b0 b1))
  obtain ⟨hQpos, hQneg⟩ := sameSide_fmul_sqrt2 (Config.sin (qpskPhase b0 b1))
  exact ⟨hIpos, hIneg, hQpos, hQneg⟩

/-! ## The first sample of a run -/

theorem u2f_zero : u2f 0 = fzero false := by
  rw [u2f, Nat.zero_mul, roundMag_zero 1 Nat.one_pos, fzero]

theorem finitePositive_iff (x : F64) :
    FinitePositive x ↔ fsign x = false ∧ 0 < fmag x ∧ fmag x < infMag := by
  simp only [FinitePositive, zero_flt, isfinite_iff, Bool.and_eq_true, Bool.not_eq_true', decide_eq_true_eq]
  refine ⟨fun ⟨hfin, ⟨_, hsign⟩, hpos⟩ => ⟨hsign, hpos, hfin⟩, fun ⟨hsign, hpos, hfin⟩ => ⟨hfin, ⟨?_, hsign⟩, hpos⟩⟩
  exact isnan_eq_false_of_isfinite ((isfinite_iff x).mpr hfin)

theorem ncoTime_zero {fs : F64} (h : FinitePositive fs) : ncoTime 0 fs = fzero false := by
  obtain ⟨hsign, hpos, hfin⟩ := (finitePositive_iff fs).mp h
  rw [ncoTime, u2f_zero, fdiv_pos ⟨fsign_fzero _, by simp [infMag]⟩ ⟨hsign, hpos, hfin⟩, units_fzero, Nat.zero_mul,
    roundMag_zero _ (units_pos hpos), fzero]

theorem ncoPhase_zero {fc fs : F64} (h : FinitePositive fs) (hfin : isfinite (fmul constTWO_PI fc) = true)
    (hsign : fsign (fmul constTWO_PI fc) = false) : ncoPhase 0 fc fs = fzero false := by
  rw [ncoPhase, ncoTime_zero h, fmul_posZero hfin, hsign]

/-- Settles O30: time and angle are `+0` at index 0; `i` times one is `i`, and the zero added to it, of the sign of `q`,
leaves it. -/
theorem firstSampleIsTheILevel : Obligations.FirstSampleIsTheILevel := by
  refine ⟨fun i q fc fs hfs hfin hsign => ?_, fun i q hi h0 hq => ?_⟩
  · rw [mixSample, mixAmp, ncoCos, ncoSin, ncoPhase_zero hfs hfin hsign, ncoTime_zero hfs]
  · rw [fmul_one hi, fmul_posZero hq, fadd_fzero hi h0]

/-! ## MIX -/

theorem exec_mix (s : State) : exec .mix s = runCommand .mix s := exec_eq_runCommand s (by decide)

/-- In a ready state a command whose lock condition is the datapath's is accepted. -/
theorem accepts_of_ready {i : Instr} {s : State} (h : Ready s) (hi : lockAdmits i s = s.locked) :
    accepts i s = true := by
  obtain ⟨hfaulted, hbusy, hlocked⟩ := h
  exact (accepts_iff i s).mpr ⟨hfaulted, hbusy, hi.trans hlocked⟩

/-- A sink that takes the next beat answers `ok` to it, its replies run out or not (R82). -/
theorem sinkReply_of_sinkTakes {n : Nat} {s : State} (h : SinkTakes (n + 1) s) : s.sinkReply = .ok := by
  unfold SinkTakes at h
  unfold State.sinkReply
  cases hr : s.sinkReplies with
  | nil => rfl
  | cons r rs => exact h r (by simp [hr])

theorem primStep_mix_ok {s : State} (h : s.sinkReply = .ok) :
    primStep .mix s = .done { s.sinkReplied with txout := s.txout ++ [s.nextSample], txN := s.txN + 1 } := by
  simp [primStep, stepMix, h]

/-- Settles O28: the one step of `MIX` is performed, and its sample is the one of R171 in the order of R20. -/
theorem mixEmitsOneSample : Obligations.MixEmitsOneSample := by
  intro s hready hsink
  have hstep := primStep_mix_ok (sinkReply_of_sinkTakes hsink)
  have haccepted : accepts .mix s = true := accepts_of_ready hready rfl
  dsimp only
  rw [exec_mix, runCommand_performs haccepted (expand_ne_nil .mix s (by decide)) (.one hstep)]
  rfl

end Sys2Proof.Proofs
end

section
/-! PROOFS of the family 10_state.md. The facts about a performed primitive step come first; then the invariant (O8, O9),
what no step changes (O20, O21), time (O31), the length of a `GENRUN` (O34), the host's register accesses (O50, O53,
O54, O55), reset and the next command (O1, O2, O7). -/

namespace Sys2Proof.Proofs

open Sys2Proof.Machine Sys2Proof.Claims

/-! ## What a performed step writes -/

/-- The state `s'` that performing the step `p` in `s` leads to, with the condition under which it is performed (R134 and
the step's own rule). -/
def StepWrites (p : Prim) (s s' : State) : Prop :=
  match p with
  | .nop => s' = s
  | .configure => configMask s = 0 ∧ s' = { s with locked := true }
  | .map => ∃ beat rest sch, s.bgq = beat :: rest ∧ schemeOfCode s.modulation = some sch ∧
      (beatLen beat).toNat = bitsPerSymbol sch ∧
      s' = { s with
        bgq := rest
        txbits := beat
        lvlI := (mapLevels sch (beatBits beat)).1
        lvlQ := (mapLevels sch (beatBits beat)).2 }
  | .txinit => s' = { s with txN := 0, txK := 0, runStart := s.txout.length }
  | .mix => s' = { s.sinkReplied with txout := s.txout ++ [s.nextSample], txN := s.txN + 1 }
  | .txkinc => s' = { s with txK := s.txK + 1 }
  | .rxinit => s' = { s with rxK := 0, rxJ := 0, isum := fzero false, qsum := fzero false }
  | .acclr => s' = { s with rxJ := 0, isum := fzero false, qsum := fzero false }
  | .corr => s.rxJ < s.samplesPerSymbol ∧
      s' = { s with isum := s.isumAfter s.rxIndex, qsum := s.qsumAfter s.rxIndex, rxJ := s.rxJ + 1 }
  | .avg => s' = { s with
      iavg := fdiv s.isum (u2f s.samplesPerSymbol.toNat)
      qavg := fdiv s.qsum (u2f s.samplesPerSymbol.toNat) }
  | .decideStep => ∃ sch, schemeOfCode s.modulation = some sch ∧
      s' = { s with
        rxbits := beatOfGroup (decideGroup sch s.iavg s.qavg)
        bitout := s.bitout ++ decideGroup sch s.iavg s.qavg }
  | .rxkinc => s' = { s with rxK := s.rxK + 1 }

theorem stepConfigure_done {s s' : State} (h : stepConfigure s = .done s') : StepWrites .configure s s' := by
  unfold stepConfigure at h
  split at h
  case isTrue hmask => exact ⟨hmask, (StepAnswer.done.inj h).symm⟩
  case isFalse => cases h

theorem stepMap_done {s s' : State} (h : stepMap s = .done s') : StepWrites .map s s' := by
  unfold stepMap at h
  split at h
  case h_1 => cases h
  case h_2 beat rest hbgq =>
    split at h
    case h_1 => cases h
    case h_2 sch hsch =>
      split at h
      case isTrue hlen => exact ⟨beat, rest, sch, hbgq, hsch, hlen, (StepAnswer.done.inj h).symm⟩
      case isFalse => cases h

theorem stepMix_done {s s' : State} (h : stepMix s = .done s') : StepWrites .mix s s' := by
  unfold stepMix at h
  split at h
  case h_1 => exact (StepAnswer.done.inj h).symm
  all_goals cases h

theorem stepCorr_done {s s' : State} (h : stepCorr s = .done s') : StepWrites .corr s s' := by
  unfold stepCorr at h
  split at h
  case isTrue => cases h
  case isFalse hwindow => exact ⟨BitVec.not_le.mp hwindow, (StepAnswer.done.inj h).symm⟩

theorem stepDecide_done {s s' : State} (h : stepDecide s = .done s') : StepWrites .decideStep s s' := by
  unfold stepDecide at h
  split at h
  case h_1 => cases h
  case h_2 sch hsch =>
    split at h
    case isTrue => exact ⟨sch, hsch, (StepAnswer.done.inj h).symm⟩
    case isFalse => cases h

theorem stepWrites_of_done {p : Prim} {s s' : State} (h : primStep p s = .done s') : StepWrites p s s' := by
  cases p
  case configure => exact stepConfigure_done h
  case map => exact stepMap_done h
  case mix => exact stepMix_done h
  case corr => exact stepCorr_done h
  case decideStep => exact stepDecide_done h
  all_goals exact (StepAnswer.done.inj h).symm

/-- Only `CONFIGURE` writes the lock, and only after its checks (R132). -/
theorem StepWrites.locked {p : Prim} {s s' : State} (h : StepWrites p s s') :
    (p = .configure ∧ configMask s = 0 ∧ s'.locked = true) ∨ s'.locked = s.locked := by
  cases p
  case configure => obtain ⟨hmask, rfl⟩ := h; exact .inl ⟨rfl, hmask, rfl⟩
  case map => obtain ⟨_, _, _, _, _, _, rfl⟩ := h; exact .inr rfl
  case corr => obtain ⟨_, rfl⟩ := h; exact .inr rfl
  case decideStep => obtain ⟨_, _, rfl⟩ := h; exact .inr rfl
  all_goals obtain rfl := h; exact .inr rfl

/-- A performed step leaves BGQ, or takes beats from its head. -/
theorem StepWrites.bgq_suffix {p : Prim} {s s' : State} (h : StepWrites p s s') : s'.bgq <:+ s.bgq := by
  cases p
  case configure => obtain ⟨_, rfl⟩ := h; exact List.suffix_refl _
  case map => obtain ⟨beat, _, _, hbgq, _, _, rfl⟩ := h; exact hbgq ▸ List.suffix_cons beat _
  case corr => obtain ⟨_, rfl⟩ := h; exact List.suffix_refl _
  case decideStep => obtain ⟨_, _, rfl⟩ := h; exact List.suffix_refl _
  all_goals obtain rfl := h; exact List.suffix_refl _

/-- The window position and the sums are kept, cleared, or advanced by one sample inside the window (R190 to R192). -/
theorem StepWrites.window {p : Prim} {s s' : State} (h : StepWrites p s s') :
    (s'.rxJ = s.rxJ ∧ s'.isum = s.isum ∧ s'.qsum = s.qsum) ∨
    (s'.rxJ = 0 ∧ s'.isum = fzero false ∧ s'.qsum = fzero false) ∨
    (s.rxJ < s.samplesPerSymbol ∧ s'.rxJ = s.rxJ + 1 ∧
      s'.isum = s.isumAfter s.rxIndex ∧ s'.qsum = s.qsumAfter s.rxIndex) := by
  cases p
  case configure => obtain ⟨_, rfl⟩ := h; exact .inl ⟨rfl, rfl, rfl⟩
  case map => obtain ⟨_, _, _, _, _, _, rfl⟩ := h; exact .inl ⟨rfl, rfl, rfl⟩
  case rxinit => obtain rfl := h; exact .inr (.inl ⟨rfl, rfl, rfl⟩)
  case acclr => obtain rfl := h; exact .inr (.inl ⟨rfl, rfl, rfl⟩)
  case corr => obtain ⟨hwindow, rfl⟩ := h; exact .inr (.inr ⟨hwindow, rfl, rfl, rfl⟩)
  case decideStep => obtain ⟨_, _, rfl⟩ := h; exact .inl ⟨rfl, rfl, rfl⟩
  all_goals obtain rfl := h; exact .inl ⟨rfl, rfl, rfl⟩

/-- `TXBITS` and `RXBITS` are kept, but `MAP` writes `TXBITS` a group of the scheme's length, and `DECIDE` writes `RXBITS`
the group it decides (R150, R210). -/
theorem StepWrites.groups {p : Prim} {s s' : State} (h : StepWrites p s s') :
    (s'.txbits = s.txbits ∨
      ∃ sch, schemeOfCode s.modulation = some sch ∧ (beatLen s'.txbits).toNat = bitsPerSymbol sch) ∧
    (s'.rxbits = s.rxbits ∨
      ∃ sch, schemeOfCode s.modulation = some sch ∧ s'.rxbits = beatOfGroup (decideGroup sch s.iavg s.qavg)) := by
  cases p
  case configure => obtain ⟨_, rfl⟩ := h; exact ⟨.inl rfl, .inl rfl⟩
  case map => obtain ⟨_, _, sch, _, hsch, hlen, rfl⟩ := h; exact ⟨.inr ⟨sch, hsch, hlen⟩, .inl rfl⟩
  case corr => obtain ⟨_, rfl⟩ := h; exact ⟨.inl rfl, .inl rfl⟩
  case decideStep => obtain ⟨sch, hsch, rfl⟩ := h; exact ⟨.inl rfl, .inr ⟨sch, hsch, rfl⟩⟩
  all_goals obtain rfl := h; exact ⟨.inl rfl, .inl rfl⟩

/-- No performed step rewrites an output sequence (R56, R57). -/
theorem primStep_done_outputs {p : Prim} {s s' : State} (h : primStep p s = .done s') :
    s.txout <+: s'.txout ∧ s.bitout <+: s'.bitout := by
  obtain ⟨_, _, _, _, _, _, _, _, _, _, _, _, _, _, houtputs⟩ := primStep_done_frame h
  exact houtputs

/-! ## When the registers are open to the host (R72) -/

theorem configOpen_iff (s : State) :
    s.configOpen = true ↔ s.locked = false ∧ s.busy = false ∧ s.faulted = false := by
  simp [State.configOpen, and_assoc]

theorem dataOpen_iff (s : State) : s.dataOpen = true ↔ s.busy = false ∧ s.faulted = false := by
  simp [State.dataOpen]

/-! ## The length of a decided group -/

theorem length_decQpsk (i q : F64) : (decQpsk i q).length = 2 := by
  have hquadrant : quadrantOfAngle (qpskAngle i q) < 4 := by unfold quadrantOfAngle; grind
  unfold decQpsk
  generalize quadrantOfAngle (qpskAngle i q) = k at hquadrant
  revert k
  decide

theorem length_decQam16 (v : F64) : (decQam16 v).length = 2 := by
  unfold decQam16
  split_ifs <;> rfl

theorem length_decideGroup (sch : Scheme) (i q : F64) : (decideGroup sch i q).length = bitsPerSymbol sch := by
  cases sch
  case qpsk => exact length_decQpsk i q
  case qam16 => rw [decideGroup, List.length_append, length_decQam16, length_decQam16, bitsPerSymbol]
  case qam64 => rfl

/-- Bits shifted in one after another stay below the power of two of their number. -/
theorem foldl_bits_lt (f : Nat → Bool) (l : List Nat) (a : Nat) :
    l.foldl (fun acc m => acc * 2 + (f m).toNat) a < (a + 1) * 2 ^ l.length := by
  induction l generalizing a with
  | nil => simp
  | cons m l ih =>
    have hbit := Bool.toNat_le (f m)
    calc (m :: l).foldl (fun acc m => acc * 2 + (f m).toNat) a
        < (a * 2 + (f m).toNat + 1) * 2 ^ l.length := ih _
      _ ≤ (a + 1) * 2 * 2 ^ l.length := Nat.mul_le_mul_right _ (by omega)
      _ = (a + 1) * 2 ^ (m :: l).length := by rw [List.length_cons, Nat.pow_succ]; ring

/-- The length field of a group's beat is the group's length (R104). -/
theorem beatLen_beatOfGroup {g : BitGroup} (h : g.length ≤ 6) : (beatLen (beatOfGroup g)).toNat = g.length := by
  have hbits := foldl_bits_lt (fun m => g.getD m false) (List.range 6) 0
  simp only [beatLen, beatOfGroup, BitVec.extractLsb'_toNat, BitVec.toNat_ofNat, Nat.shiftRight_eq_div_pow]
  rw [List.length_range] at hbits
  omega

theorem beatLen_decided (sch : Scheme) (i q : F64) :
    (beatLen (beatOfGroup (decideGroup sch i q))).toNat = bitsPerSymbol sch := by
  rw [beatLen_beatOfGroup (by rw [length_decideGroup]; cases sch <;> decide), length_decideGroup]

/-! ## Sums -/

theorem fzero_false_ne_fzero_true : fzero false ≠ fzero true := by decide

/-- R193: adding to a sum that is no negative zero gives no negative zero. -/
theorem fadd_ne_negZero {a : F64} (h : a ≠ fzero true) (b : F64) : fadd a b ≠ fzero true :=
  fun he => h (fadd_eq_negZero he).1

theorem isumAfter_ne_negZero {s : State} (h : s.isum ≠ fzero true) (n : Word) : s.isumAfter n ≠ fzero true := by
  unfold State.isumAfter
  split
  · exact fadd_ne_negZero h _
  · exact h

theorem qsumAfter_ne_negZero {s : State} (h : s.qsum ≠ fzero true) (n : Word) : s.qsumAfter n ≠ fzero true := by
  unfold State.qsumAfter
  split
  · exact fadd_ne_negZero h _
  · exact h

/-! ## The invariant: what the other agents' fields and the fault registers do to it -/

/-- `Good` says nothing of the levels, the averages and the other agents' fields. -/
theorem good_withFree {s : State} (h : s.Good) (li lq ia qa : F64) (ts : List Agent) (as : List HostAction)
    (hd : Option Word) (bs : List Beat) (xs : List InBeat) (rs : List SinkReply) :
    State.Good { s with
      lvlI := li, lvlQ := lq, iavg := ia, qavg := qa
      turns := ts, hostActs := as, hostData := hd, bitSupply := bs, sampleSupply := xs, sinkReplies := rs } where
  lockedConfigLegal := h.lockedConfigLegal
  faultedIsIdle := h.faultedIsIdle
  noFaultNoInfo := h.noFaultNoInfo
  curConsistent := h.curConsistent
  buffersFit := h.buffersFit
  sumsNotNegZero := h.sumsNotNegZero
  unlockedIsUntouched := h.unlockedIsUntouched
  windowInRange := h.windowInRange
  groupsHaveSchemeLength := h.groupsHaveSchemeLength
  runStartInRange := h.runStartInRange

theorem good_withInputs {s : State} (h : s.Good) (ts : List Agent) (as : List HostAction) (hd : Option Word)
    (bs : List Beat) (xs : List InBeat) (rs : List SinkReply) :
    State.Good { s with
      turns := ts, hostActs := as, hostData := hd, bitSupply := bs, sampleSupply := xs, sinkReplies := rs } :=
  good_withFree h _ _ _ _ ts as hd bs xs rs

theorem good_withData {s : State} (h : s.Good) (li lq ia qa : F64) :
    State.Good { s with lvlI := li, lvlQ := lq, iavg := ia, qavg := qa } :=
  good_withFree h li lq ia qa _ _ _ _ _ _

theorem curConsistent_of_idle {s : State} (h : s.cur = Cur.idle) : s.curConsistent := by
  unfold State.curConsistent
  rw [h]
  rfl

theorem good_raiseFault {s : State} (h : s.Good) {c : FaultCode} (hc : c ≠ .none) (info : Word) :
    (s.raiseFault c info).Good where
  lockedConfigLegal := h.lockedConfigLegal
  faultedIsIdle := fun _ => rfl
  noFaultNoInfo := fun hnone => by
    have hfaulted := raiseFault_faulted s c info hc
    rw [(faulted_eq_false_iff _).mpr hnone] at hfaulted
    cases hfaulted
  curConsistent := curConsistent_of_idle rfl
  buffersFit := h.buffersFit
  sumsNotNegZero := h.sumsNotNegZero
  unlockedIsUntouched := h.unlockedIsUntouched
  windowInRange := h.windowInRange
  groupsHaveSchemeLength := h.groupsHaveSchemeLength
  runStartInRange := h.runStartInRange

/-- An idle block has no command in `CUR` either (R58). -/
theorem cur_eq_idle_of_good {s : State} (h : s.Good) (hb : s.busy = false) : s.cur = Cur.idle := by
  have htodo := (busy_eq_false_iff s).mp hb
  have hcur := h.curConsistent
  unfold State.curConsistent at hcur
  rcases hc : s.cur with ⟨_ | i, todo⟩
  · rw [hc] at htodo
    rw [show todo = [] from htodo, Cur.idle]
  · rw [hc] at htodo hcur
    exact absurd htodo hcur.1

theorem good_accepted {s : State} (h : s.Good) {i : Instr} (ha : accepts i s = true) (hi : i ≠ .sreset) :
    (s.accepted i).Good := by
  obtain ⟨hfaulted, _, hlock⟩ := (accepts_iff i s).mp ha
  exact
    { lockedConfigLegal := h.lockedConfigLegal
      faultedIsIdle := fun hf => absurd (hfaulted.symm.trans hf) (by decide)
      noFaultNoInfo := h.noFaultNoInfo
      curConsistent := ⟨expand_ne_nil i s hi, (lockAdmits_congr i rfl).trans hlock,
        (expand_congr i rfl rfl : expand i (s.accepted i) = _) ▸ List.suffix_refl _⟩
      buffersFit := h.buffersFit
      sumsNotNegZero := h.sumsNotNegZero
      unlockedIsUntouched := h.unlockedIsUntouched
      windowInRange := h.windowInRange
      groupsHaveSchemeLength := h.groupsHaveSchemeLength
      runStartInRange := h.runStartInRange }

theorem good_softReset {s : State} (h : s.runStartInRange) : s.softReset.Good where
  lockedConfigLegal := fun hl => by cases hl
  faultedIsIdle := fun _ => rfl
  noFaultNoInfo := fun _ => rfl
  curConsistent := curConsistent_of_idle rfl
  buffersFit := ⟨Nat.zero_le _, memory_wf_nil⟩
  sumsNotNegZero := ⟨fzero_false_ne_fzero_true, fzero_false_ne_fzero_true⟩
  unlockedIsUntouched := fun _ => ⟨rfl, rfl, rfl, rfl, rfl, rfl, rfl, rfl⟩
  windowInRange := Nat.le_refl 0
  groupsHaveSchemeLength := ⟨.inl rfl, .inl rfl⟩
  runStartInRange := h

/-! ## The invariant: the ports and the register writes -/

theorem good_withBuffers {s : State} (h : s.Good) {q : List Beat} {m : Memory} (hq : q.length ≤ Config.bgqDepth)
    (hm : Memory.wf m) : State.Good { s with bgq := q, rxbuf := m } where
  lockedConfigLegal := h.lockedConfigLegal
  faultedIsIdle := h.faultedIsIdle
  noFaultNoInfo := h.noFaultNoInfo
  curConsistent := h.curConsistent
  buffersFit := ⟨hq, hm⟩
  sumsNotNegZero := h.sumsNotNegZero
  unlockedIsUntouched := h.unlockedIsUntouched
  windowInRange := h.windowInRange
  groupsHaveSchemeLength := h.groupsHaveSchemeLength
  runStartInRange := h.runStartInRange

theorem good_bgPush {s : State} (h : s.Good) (ha : s.bgAccepts = true) (b : Beat) : (s.bgPush b).Good := by
  simp only [State.bgAccepts, Bool.and_eq_true, decide_eq_true_eq] at ha
  exact good_withBuffers h (q := s.bgq ++ [b]) (by simpa using ha.2) h.buffersFit.2

theorem good_memAppend {s : State} (h : s.Good) (ha : s.sampleAccepts = true) (x : Sample) : (s.memAppend x).Good := by
  simp only [State.sampleAccepts, Bool.and_eq_true, decide_eq_true_eq, rxAvail_toNat h.buffersFit.2] at ha
  exact good_withBuffers h h.buffersFit.1 (memAppend_wf x ha.2)

/-- Any configuration may be written while the block is idle and unlocked: what the configuration bounds is then as after
reset. -/
theorem good_withConfig {s : State} (h : s.Good) (hl : s.locked = false) (hb : s.busy = false) (n k : Count) (fc fs : F64)
    (m : BitVec 2) :
    State.Good { s with symbolCount := n, fc := fc, fs := fs, samplesPerSymbol := k, modulation := m } := by
  have hidle := cur_eq_idle_of_good h hb
  obtain ⟨htxbits, _, _, _, hrxJ, _, _, hrxbits⟩ := h.unlockedIsUntouched hl
  exact
    { lockedConfigLegal := fun hl' => absurd (hl.symm.trans hl') (by decide)
      faultedIsIdle := h.faultedIsIdle
      noFaultNoInfo := h.noFaultNoInfo
      curConsistent := curConsistent_of_idle hidle
      buffersFit := h.buffersFit
      sumsNotNegZero := h.sumsNotNegZero
      unlockedIsUntouched := h.unlockedIsUntouched
      windowInRange := by
        show s.rxJ ≤ k
        rw [hrxJ]
        exact Nat.zero_le _
      groupsHaveSchemeLength := ⟨.inl htxbits, .inl hrxbits⟩
      runStartInRange := h.runStartInRange }

theorem good_storeReg {s t : State} {r : Reg} {v : Word} (h : s.Good) (hs : s.storeReg r v = some t) : t.Good := by
  rcases storeReg_cases hs with ⟨hopen, hconfig⟩ | ⟨_, hdata⟩
  · obtain ⟨hl, hb, _⟩ := (configOpen_iff s).mp hopen
    rcases hconfig with ⟨x, rfl⟩ | rfl | rfl | ⟨x, rfl⟩ | ⟨x, rfl⟩ <;> exact good_withConfig h hl hb _ _ _ _ _
  · rcases hdata with rfl | rfl | rfl | rfl <;> exact good_withData h _ _ _ _

/-! ## The invariant: an action of the block -/

/-- A command in flight has a head step that its lock condition allows: `NOP`, `CONFIGURE` while unlocked, or a datapath
step while locked. -/
theorem head_step_of_good {s : State} (h : s.Good) {p : Prim} {rest : List Prim} (hc : s.cur.todo = p :: rest) :
    ∃ i, s.cur.op = some i ∧ lockAdmits i s = true ∧ p :: rest <:+ expand i s ∧
      (p = .nop ∨ (i = .configure ∧ p = .configure) ∨ (s.locked = true ∧ p ≠ .configure)) := by
  have hcur := h.curConsistent
  unfold State.curConsistent at hcur
  rw [hc] at hcur
  cases hop : s.cur.op with
  | none => simp [hop] at hcur
  | some i =>
    simp only [hop] at hcur
    obtain ⟨_, hlock, hsuffix⟩ := hcur
    refine ⟨i, rfl, hlock, hsuffix, ?_⟩
    rcases mem_expand (hsuffix.subset List.mem_cons_self) with ⟨_, hp⟩ | hp | ⟨hl, hp⟩
    · exact .inl hp
    · exact .inr (.inl hp)
    · exact .inr (.inr ⟨hl.symm.trans hlock, hp⟩)

section PerformedStep

variable {s s' : State} {p : Prim} {rest : List Prim}

theorem not_faulted_of_good (h : s.Good) (hc : s.cur.todo = p :: rest) : s.faulted = false := by
  by_contra hf
  have hidle := h.faultedIsIdle (by simpa using hf)
  rw [hidle] at hc
  cases hc

theorem configMask_congr (hn : s'.symbolCount = s.symbolCount) (hfc : s'.fc = s.fc) (hfs : s'.fs = s.fs)
    (hk : s'.samplesPerSymbol = s.samplesPerSymbol) (hm : s'.modulation = s.modulation) :
    configMask s' = configMask s := by
  simp [configMask, hn, hfc, hfs, hk, hm]

/-- A performed step keeps a legal locked configuration, and makes one when it is `CONFIGURE`. -/
theorem lockedConfigLegal_of_done (h : s.Good) (hp : primStep p s = .done s') : s'.lockedConfigLegal := by
  obtain ⟨hn, hfc, hfs, hk, hm, _⟩ := primStep_done_frame hp
  intro hl
  rw [configMask_congr hn hfc hfs hk hm]
  rcases (stepWrites_of_done hp).locked with ⟨_, hmask, _⟩ | hsame
  · exact hmask
  · exact h.lockedConfigLegal (hsame ▸ hl)

/-- A step performed in the unlocked state that leaves it unlocked is `NOP`. -/
theorem unlockedIsUntouched_of_done (h : s.Good) (hc : s.cur.todo = p :: rest) (hp : primStep p s = .done s') :
    s'.unlockedIsUntouched := by
  intro hl
  obtain ⟨i, _, _, _, rfl | ⟨_, rfl⟩ | ⟨hlocked, _⟩⟩ := head_step_of_good h hc
  · obtain rfl : s' = s := stepWrites_of_done hp
    exact h.unlockedIsUntouched hl
  · obtain ⟨_, rfl⟩ : StepWrites .configure s s' := stepWrites_of_done hp
    cases hl
  · rw [primStep_done_locked hp hlocked] at hl
    cases hl

theorem sumsNotNegZero_of_done (h : s.Good) (hp : primStep p s = .done s') : s'.sumsNotNegZero := by
  obtain ⟨hi, hq⟩ := h.sumsNotNegZero
  unfold State.sumsNotNegZero
  rcases (stepWrites_of_done hp).window with ⟨_, ei, eq⟩ | ⟨_, ei, eq⟩ | ⟨_, _, ei, eq⟩ <;> rw [ei, eq]
  · exact ⟨hi, hq⟩
  · exact ⟨fzero_false_ne_fzero_true, fzero_false_ne_fzero_true⟩
  · exact ⟨isumAfter_ne_negZero hi _, qsumAfter_ne_negZero hq _⟩

theorem windowInRange_of_done (h : s.Good) (hp : primStep p s = .done s') : s'.windowInRange := by
  obtain ⟨_, _, _, hk, _⟩ := primStep_done_frame hp
  have hwindow := h.windowInRange
  unfold State.windowInRange at hwindow ⊢
  rw [hk]
  rcases (stepWrites_of_done hp).window with ⟨e, _, _⟩ | ⟨e, _, _⟩ | ⟨hlt, e, _, _⟩ <;> rw [e]
  · exact hwindow
  · exact Nat.zero_le _
  · bv_omega

theorem groupsHaveSchemeLength_of_done (h : s.Good) (hp : primStep p s = .done s') :
    s'.groupsHaveSchemeLength := by
  obtain ⟨_, _, _, _, hm, _⟩ := primStep_done_frame hp
  obtain ⟨htx, hrx⟩ := h.groupsHaveSchemeLength
  obtain ⟨htx', hrx'⟩ := (stepWrites_of_done hp).groups
  unfold State.groupsHaveSchemeLength
  rw [hm]
  constructor
  · rcases htx' with e | hmapped
    · exact e ▸ htx
    · exact .inr hmapped
  · rcases hrx' with e | ⟨sch, hsch, e⟩
    · exact e ▸ hrx
    · exact .inr ⟨sch, hsch, e ▸ beatLen_decided sch _ _⟩

theorem runStartInRange_of_done (h : s.Good) (hp : primStep p s = .done s') : s'.runStartInRange := by
  have htxout : s.txout.length ≤ s'.txout.length := (primStep_done_outputs hp).1.length_le
  have hstart := h.runStartInRange
  unfold State.runStartInRange at hstart ⊢
  rcases primStep_done_runStart hp with e | e <;> omega

/-- What is left of a command after its head step is a tail of its expansion still; only `CONFIGURE` changes what the lock
admits, and nothing is left of it. -/
theorem curConsistent_of_done (h : s.Good) (hc : s.cur.todo = p :: rest) (hp : primStep p s = .done s') :
    s'.retire.curConsistent := by
  obtain ⟨hn, _, _, hk, _, _, _, _, hcur, _⟩ := primStep_done_frame hp
  obtain ⟨i, hop, hlock, hsuffix, hwhich⟩ := head_step_of_good h hc
  cases rest with
  | nil => exact curConsistent_of_idle (by simp [State.retire, hcur, hc])
  | cons q rest =>
    have hlocked : s'.locked = s.locked := by
      rcases (stepWrites_of_done hp).locked with ⟨rfl, _, _⟩ | e
      · rcases hwhich with hne | ⟨rfl, _⟩ | ⟨_, hne⟩
        · cases hne
        · exact absurd hsuffix.length_le (by simp [expand])
        · exact absurd rfl hne
      · exact e
    have hretire : s'.retire.cur = ⟨some i, q :: rest⟩ := by simp [State.retire, hcur, hc, hop]
    unfold State.curConsistent
    rw [hretire]
    refine ⟨List.cons_ne_nil q rest, (lockAdmits_congr i hlocked).trans hlock, ?_⟩
    rw [expand_congr i (s := s) (t := s'.retire) hn hk]
    exact (List.suffix_cons p _).trans hsuffix

theorem good_retire_of_done (h : s.Good) (hc : s.cur.todo = p :: rest) (hp : primStep p s = .done s') :
    s'.retire.Good := by
  obtain ⟨_, _, _, _, _, hcode, hinfo, hrxbuf, _⟩ := primStep_done_frame hp
  have hlegal := lockedConfigLegal_of_done h hp
  have hsums := sumsNotNegZero_of_done h hp
  have huntouched := unlockedIsUntouched_of_done h hc hp
  have hwindow := windowInRange_of_done h hp
  have hgroups := groupsHaveSchemeLength_of_done h hp
  have hstart := runStartInRange_of_done h hp
  have hfaulted : s'.faulted = false := (faulted_eq_false_iff _).mpr
    (hcode.trans ((faulted_eq_false_iff s).mp (not_faulted_of_good h hc)))
  exact
    { lockedConfigLegal := hlegal
      faultedIsIdle := fun hf => absurd (hfaulted.symm.trans hf) (by decide)
      noFaultNoInfo := fun hnone => hinfo.trans (h.noFaultNoInfo (hcode.symm.trans hnone))
      curConsistent := curConsistent_of_done h hc hp
      buffersFit := ⟨(stepWrites_of_done hp).bgq_suffix.length_le.trans h.buffersFit.1, by
        rw [retire_rxbuf, hrxbuf]; exact h.buffersFit.2⟩
      sumsNotNegZero := hsums
      unlockedIsUntouched := huntouched
      windowInRange := hwindow
      groupsHaveSchemeLength := hgroups
      runStartInRange := hstart }

end PerformedStep

theorem good_sinkReplied {s : State} (h : s.Good) : s.sinkReplied.Good := good_withInputs h _ _ _ _ _ _

theorem good_blockStep {s t : State} (h : s.Good) (hb : blockStep s = .next t) : t.Good := by
  rcases blockStep_cases hb with ⟨_, rfl⟩ | ⟨p, rest, hc, ⟨s', hp, rfl⟩ | hp | ⟨s', c, info, hp, rfl⟩⟩
  · exact h
  · exact good_retire_of_done h hc hp
  · rcases primStep_hold hp with ⟨_, _, rfl⟩ | ⟨_, _, rfl⟩ | ⟨_, _, rfl⟩
    · exact h
    · exact good_sinkReplied h
    · exact h
  · rcases primStep_raised hp with rfl | ⟨_, rfl⟩
    · exact good_raiseFault h (primStep_raised_code hp) info
    · exact good_raiseFault (good_sinkReplied h) (primStep_raised_code hp) info

/-! ## The invariant: every step -/

theorem good_change {s t : State} (h : s.Good) (hst : Change s t) : t.Good := by
  cases hst with
  | blk hb => exact good_blockStep h hb
  | env ts as hd => exact good_withInputs h ts as hd _ _ _
  | raise c info hc => exact good_raiseFault h hc info
  | acc i ha hi => exact good_accepted h ha hi
  | store hs => exact good_storeReg h hs
  | push ha => exact good_withInputs (good_bgPush h ha _) _ _ _ _ _ _
  | smp ha => exact good_withInputs (good_memAppend h ha _) _ _ _ _ _ _
  | supp => exact good_withInputs h _ _ _ _ _ _

theorem good_chain {s t : State} (h : s.Good) (hst : Chain s t) : t.Good :=
  hst.lift (R := fun a b => a.Good → b.Good) (fun _ ha => ha) (fun _ _ _ f g ha => g (f ha))
    (fun _ _ hab ha => good_change ha hab) h

/-- Settles O8: the state after reset is what `SRESET` makes of itself. -/
theorem resetIsGood : Obligations.ResetIsGood := good_softReset (s := State.reset) (Nat.le_refl 0)

/-- Settles O9: a step is the host's `SRESET`, which gives a good state again, or a chain of elementary changes, each of
which keeps `Good`. -/
theorem stepKeepsGood : Obligations.StepKeepsGood := by
  intro s t h hstep
  rcases step_chain hstep with ⟨_, ts, as, rfl⟩ | hchain
  · exact good_softReset h.runStartInRange
  · exact good_chain h hchain

/-! ## What no step changes -/

/-- An action of the block performs the head step, or writes nothing but `CUR`, the fault registers and the sink's replies. -/
theorem blockStep_performs_or_keeps {s t : State} (h : blockStep s = .next t) :
    (∃ p s', primStep p s = .done s' ∧ t = s'.retire) ∨
    ∃ cur code info rs, t = { s with cur := cur, faultCode := code, faultInfo := info, sinkReplies := rs } := by
  rcases blockStep_cases h with ⟨_, rfl⟩ | ⟨p, rest, _, ⟨s', hp, rfl⟩ | hp | ⟨s', c, info, hp, rfl⟩⟩
  · exact .inr ⟨_, _, _, _, rfl⟩
  · exact .inl ⟨p, s', hp, rfl⟩
  · rcases primStep_hold hp with ⟨_, _, rfl⟩ | ⟨_, _, rfl⟩ | ⟨_, _, rfl⟩ <;> exact .inr ⟨_, _, _, _, rfl⟩
  · rcases primStep_raised hp with rfl | ⟨_, rfl⟩ <;> exact .inr ⟨_, _, _, _, rfl⟩

/-- `b` has the lock and the configuration of `a`, if `a` is locked (R33). -/
def KeepsLockedConfig (a b : State) : Prop :=
  a.locked = true →
    b.locked = true ∧ b.symbolCount = a.symbolCount ∧ b.fc = a.fc ∧ b.fs = a.fs ∧
    b.samplesPerSymbol = a.samplesPerSymbol ∧ b.modulation = a.modulation

theorem KeepsLockedConfig.refl (s : State) : KeepsLockedConfig s s := fun hl => ⟨hl, rfl, rfl, rfl, rfl, rfl⟩

theorem KeepsLockedConfig.trans (a b c : State) (h : KeepsLockedConfig a b) (g : KeepsLockedConfig b c) :
    KeepsLockedConfig a c := by
  intro hl
  obtain ⟨hl', hn, hfc, hfs, hk, hm⟩ := h hl
  obtain ⟨hl'', hn', hfc', hfs', hk', hm'⟩ := g hl'
  exact ⟨hl'', hn'.trans hn, hfc'.trans hfc, hfs'.trans hfs, hk'.trans hk, hm'.trans hm⟩

theorem keepsLockedConfig_blockStep {s t : State} (h : blockStep s = .next t) : KeepsLockedConfig s t := by
  rcases blockStep_performs_or_keeps h with ⟨p, s', hp, rfl⟩ | ⟨_, _, _, _, rfl⟩
  · obtain ⟨hn, hfc, hfs, hk, hm, _⟩ := primStep_done_frame hp
    intro hl
    have hl' : s'.locked = true := primStep_done_locked hp hl
    exact ⟨hl', hn, hfc, hfs, hk, hm⟩
  · exact KeepsLockedConfig.refl s

theorem keepsLockedConfig_storeReg {s t : State} {r : Reg} {v : Word} (h : s.storeReg r v = some t) :
    KeepsLockedConfig s t := by
  rcases storeReg_cases h with ⟨hopen, _⟩ | ⟨_, hdata⟩
  · obtain ⟨hunlocked, _⟩ := (configOpen_iff s).mp hopen
    exact fun hl => absurd (hl.symm.trans hunlocked) (by decide)
  · rcases hdata with rfl | rfl | rfl | rfl <;> exact KeepsLockedConfig.refl _

theorem keepsLockedConfig_change (s t : State) (h : Change s t) : KeepsLockedConfig s t := by
  cases h with
  | blk hb => exact keepsLockedConfig_blockStep hb
  | store hs => exact keepsLockedConfig_storeReg hs
  | _ => exact KeepsLockedConfig.refl s

/-- Settles O20: a step that is no `SRESET` of the host is a chain of changes that each keep a locked configuration. -/
theorem lockedConfigurationIsFixed : Obligations.LockedConfigurationIsFixed := by
  intro s t hl hreset hstep
  rcases step_chain hstep with ⟨h, _⟩ | hchain
  · exact absurd h hreset
  · exact hchain.lift KeepsLockedConfig.refl KeepsLockedConfig.trans keepsLockedConfig_change hl

/-- Both output sequences of `b` begin with those of `a` (R56, R57). -/
def OutputsExtend (a b : State) : Prop := a.txout <+: b.txout ∧ a.bitout <+: b.bitout

theorem OutputsExtend.refl (s : State) : OutputsExtend s s := ⟨List.prefix_refl _, List.prefix_refl _⟩

theorem OutputsExtend.trans (a b c : State) (h : OutputsExtend a b) (g : OutputsExtend b c) : OutputsExtend a c :=
  ⟨h.1.trans g.1, h.2.trans g.2⟩

theorem outputsExtend_blockStep {s t : State} (h : blockStep s = .next t) : OutputsExtend s t := by
  rcases blockStep_performs_or_keeps h with ⟨p, s', hp, rfl⟩ | ⟨_, _, _, _, rfl⟩
  · have houtputs : OutputsExtend s s' := primStep_done_outputs hp
    exact houtputs
  · exact OutputsExtend.refl s

theorem outputsExtend_storeReg {s t : State} {r : Reg} {v : Word} (h : s.storeReg r v = some t) :
    OutputsExtend s t := by
  rcases storeReg_cases h with ⟨_, ⟨_, rfl⟩ | rfl | rfl | ⟨_, rfl⟩ | ⟨_, rfl⟩⟩ | ⟨_, rfl | rfl | rfl | rfl⟩ <;>
    exact OutputsExtend.refl s

theorem outputsExtend_change (s t : State) (h : Change s t) : OutputsExtend s t := by
  cases h with
  | blk hb => exact outputsExtend_blockStep hb
  | store hs => exact outputsExtend_storeReg hs
  | _ => exact OutputsExtend.refl s

/-- Settles O21: `SRESET` keeps both sequences, and every elementary change extends them. -/
theorem outputsOnlyGrow : Obligations.OutputsOnlyGrow := by
  intro s t hstep
  rcases step_chain hstep with ⟨_, ts, as, rfl⟩ | hchain
  · exact OutputsExtend.refl s
  · exact hchain.lift OutputsExtend.refl OutputsExtend.trans outputsExtend_change

/-! ## Time -/

/-- The conversion of an index does not decrease with it (R17). -/
theorem fmag_u2f_mono {n m : Nat} (h : n ≤ m) : fmag (u2f n) ≤ fmag (u2f m) := by
  rw [(u2f_mag n).1, (u2f_mag m).1]
  exact roundMag_mono Nat.one_pos (Nat.mul_le_mul_right _ h)

theorem ncoTime_eq {fs : F64} (h : FinitePositive fs) {n : Nat} (hn : n < 2 ^ 64) :
    ncoTime n fs = pack false (roundMag (units (u2f n) * unitsPerOne) (units fs)) :=
  fdiv_pos ⟨(u2f_mag n).2, u2f_lt hn.le⟩ ((finitePositive_iff fs).mp h)

/-- Values of positive sign that are no NaN are ordered as their magnitude bits are. -/
theorem fle_pack_roundMag {a b c d : Nat} (h : roundMag a c ≤ roundMag b d) :
    fle (pack false (roundMag a c)) (pack false (roundMag b d)) = true := by
  have hkey : ∀ num den, orderKey (pack false (roundMag num den)) = roundMag num den := fun num den => by
    rw [orderKey, fsign_pack _ (roundMag_lt num den), fmag_pack _ (roundMag_lt num den)]
    rfl
  simp [fle, not_isnan_pack_roundMag, hkey, h]

/-- Settles O31: conversion, the count of units, and the narrowing of the quotient are each monotone. -/
theorem timeIsNonDecreasing : Obligations.TimeIsNonDecreasing := by
  intro fs n m hfs hnm hm
  obtain ⟨_, hpos, _⟩ := (finitePositive_iff fs).mp hfs
  have hunits : units (u2f n) ≤ units (u2f m) := units_mono (fmag_u2f_mono hnm)
  change fle (ncoTime n fs) (ncoTime m fs) = true
  rw [ncoTime_eq hfs (hnm.trans_lt hm), ncoTime_eq hfs hm]
  exact fle_pack_roundMag (roundMag_mono (units_pos hpos) (Nat.mul_le_mul_right _ hunits))

/-! ## The length of a GENRUN -/

/-- The times of the `k` samples from index `n` on (R62). -/
def timesFrom (n : Word) (k : Nat) (fs : F64) : List F64 :=
  (List.range k).map fun j => ncoTime (n + BitVec.ofNat 64 j).toNat fs

theorem timesFrom_succ (n : Word) (k : Nat) (fs : F64) :
    timesFrom n (k + 1) fs = ncoTime n.toNat fs :: timesFrom (n + 1) k fs := by
  have hnext : ∀ j, n + BitVec.ofNat 64 (j + 1) = n + 1 + BitVec.ofNat 64 j := fun j => by
    rw [BitVec.ofNat_add, BitVec.add_comm (BitVec.ofNat 64 j), ← BitVec.add_assoc]
    rfl
  rw [timesFrom, List.range_succ_eq_map, List.map_cons, List.map_map, BitVec.add_zero]
  exact congrArg _ (List.map_congr_left fun j _ => by rw [Function.comp_apply, hnext])

/-- From `s` to `u`, `m` groups were popped and `k` samples emitted in index order; neither `FS` nor the note of where the
run began changed. -/
def Emitted (m k : Nat) (s u : State) : Prop :=
  m ≤ s.bgq.length ∧ u.bgq = s.bgq.drop m ∧ u.fs = s.fs ∧ u.runStart = s.runStart ∧
  ∃ l, u.txout = s.txout ++ l ∧ l.map (·.time) = timesFrom s.txN k s.fs

/-- The steps of a `GENSYM` (R134). -/
def IsGensymPrim (p : Prim) : Prop := p = .map ∨ p = .mix ∨ p = .txkinc

theorem Emitted.map_step {m k : Nat} {s s' u : State} (h : StepWrites .map s s') (g : Emitted m k s' u) :
    Emitted (m + 1) k s u := by
  obtain ⟨beat, rest, _, hbgq, _, _, rfl⟩ := h
  obtain ⟨hm, hu, hrun⟩ := g
  exact ⟨by rw [hbgq]; exact Nat.succ_le_succ hm, by rw [hbgq]; exact hu, hrun⟩

theorem Emitted.mix_step {m k : Nat} {s s' u : State} (h : StepWrites .mix s s') (g : Emitted m k s' u) :
    Emitted m (k + 1) s u := by
  obtain rfl := h
  obtain ⟨hm, hu, hfs, hstart, l, hl, ht⟩ := g
  refine ⟨hm, hu, hfs, hstart, s.nextSample :: l, hl.trans (List.append_assoc _ [_] _), ?_⟩
  rw [timesFrom_succ, List.map_cons, ht]
  rfl

/-- Steps of `GENSYM`s that are performed pop a group for each `MAP` and emit a sample for each `MIX`, whatever answers come
late. -/
theorem emitted_of_performs {l : List Prim} {s u : State} (h : Performs l s u) (hl : ∀ p ∈ l, IsGensymPrim p) :
    Emitted (l.count .map) (l.count .mix) s u := by
  induction h with
  | nil s => exact ⟨Nat.zero_le _, rfl, rfl, rfl, [], (List.append_nil _).symm, rfl⟩
  | @cons p l s s' u hp _ ih =>
    have hrest := ih fun q hq => hl q (List.mem_cons_of_mem p hq)
    have hwrites := stepWrites_of_done hp
    rcases hl p List.mem_cons_self with rfl | rfl | rfl
    · simpa using hrest.map_step hwrites
    · simpa using hrest.mix_step hwrites
    · obtain rfl := hwrites
      rw [List.count_cons_of_ne (by decide), List.count_cons_of_ne (by decide)]
      exact hrest
  | late _ _ ih => exact ih hl

theorem isGensymPrim_of_mem {n k : Nat} {p : Prim} (h : p ∈ repeatSteps n (gensymSteps k)) : IsGensymPrim p := by
  simp only [repeatSteps, gensymSteps, List.mem_flatten, List.mem_replicate] at h
  obtain ⟨_, ⟨_, rfl⟩, hp⟩ := h
  simp only [List.mem_append, List.mem_singleton, List.mem_replicate] at hp
  rcases hp with (hp | ⟨_, hp⟩) | hp
  · exact .inl hp
  · exact .inr (.inl hp)
  · exact .inr (.inr hp)

theorem count_repeatSteps (p : Prim) (n : Nat) (l : List Prim) : (repeatSteps n l).count p = n * l.count p := by
  simp [repeatSteps, List.count_flatten]

theorem count_map_gensymSteps (k : Nat) : (gensymSteps k).count .map = 1 := by
  simp [gensymSteps, List.count_replicate]

theorem count_mix_gensymSteps (k : Nat) : (gensymSteps k).count .mix = k := by
  simp [gensymSteps]

/-- A command that ends neither busy nor faulted has performed all its steps. -/
theorem performs_of_clean_end {i : Instr} {s t : State} (ha : accepts i s = true) (hne : expand i s ≠ [])
    (h : runCommand i s = .next t) (hb : t.busy = false) (hf : t.faulted = false) :
    ∃ u, Performs (expand i s) s u ∧ t = u.withCur Cur.idle := by
  rcases runCommand_outcome ha hne h with
    ⟨_, p, l2, _, v, _, _, _, _, rfl⟩ | hdone | ⟨_, _, _, _, _, u', c, info, _, _, _, hp, rfl⟩
  · cases hb
  · exact hdone
  · rw [raiseFault_faulted u' c info (primStep_raised_code hp)] at hf
    cases hf

/-- The steps of `GENRUN` performed: `TXINIT`, and then the steps of the `GENSYM`s from the state it leaves (R173). -/
theorem performs_genrun {s u : State} (h : Performs (expand .genrun s) s u) :
    Performs (repeatSteps s.symbolCount.toNat (gensymSteps s.samplesPerSymbol.toNat))
      { s with txN := 0, txK := 0, runStart := s.txout.length } u := by
  obtain ⟨s', hinit, hrest⟩ := Performs.split (l := [.txinit]) h
  cases hinit with
  | cons hp hnil =>
    cases hnil
    obtain rfl := stepWrites_of_done hp
    exact hrest

/-- Counted from index 0, the indices of a run of fewer than 2^64 samples do not wrap. -/
theorem timesFrom_zero {k : Nat} (h : k ≤ 2 ^ 64) (fs : F64) :
    timesFrom 0 k fs = (List.range k).map fun n => fdiv (u2f n) fs := by
  refine List.map_congr_left fun j hj => ?_
  have hlt : j < 2 ^ 64 := (List.mem_range.mp hj).trans_le h
  have htoNat : (0 + BitVec.ofNat 64 j : Word).toNat = j := by
    rw [show (0 : Word) = 0#64 from rfl, BitVec.zero_add, BitVec.toNat_ofNat, Nat.mod_eq_of_lt hlt]
  rw [htoNat, ncoTime]

theorem mul_counts_le (a b : Count) : a.toNat * b.toNat ≤ 2 ^ 64 :=
  calc a.toNat * b.toNat ≤ 2 ^ 32 * 2 ^ 32 := Nat.mul_le_mul a.isLt.le b.isLt.le
    _ = 2 ^ 64 := by decide

/-- Settles O34: a run that ends unfaulted has performed `TXINIT` and all steps of its `GENSYM`s, among which are
`SYMBOL_COUNT` `MAP`s and `SYMBOL_COUNT * SAMPLES_PER_SYMBOL` `MIX`es. -/
theorem genrunRunLength : Obligations.GenrunRunLength := by
  intro s t hready hexec hb hf
  rw [exec_eq_runCommand s (by decide)] at hexec
  obtain ⟨u, hperforms, rfl⟩ :=
    performs_of_clean_end (accepts_of_ready hready rfl) (expand_ne_nil .genrun s (by decide)) hexec hb hf
  have hemitted := emitted_of_performs (performs_genrun hperforms) fun p => isGensymPrim_of_mem
  rw [count_repeatSteps, count_repeatSteps, count_map_gensymSteps, count_mix_gensymSteps, Nat.mul_one] at hemitted
  obtain ⟨hqueued, hbgq, _, hstart, l, htxout, htimes⟩ := hemitted
  rw [timesFrom_zero (mul_counts_le _ _)] at htimes
  have hlength := congrArg List.length htimes
  rw [List.length_map, List.length_map, List.length_range] at hlength
  have hlast : (u.withCur Cur.idle).lastRun = l := by
    change u.txout.drop u.runStart = l
    rw [hstart, htxout, List.drop_left]
  exact ⟨hqueued, hbgq, l, htxout, hlast, hlength, htimes⟩

/-! ## Register accesses: which register an access reaches -/

theorem regAtOffset_eq_none {off : Word} (h : 0xB0 ≤ off.toNat) : regAtOffset off = none := by
  unfold regAtOffset
  split
  case h_23 => rfl
  all_goals omega

/-- R73, R77: a whole word at a multiple of 8 reaches what the map has there. -/
theorem regOfAccess_aligned {off : Word} (h : off.toNat % 8 = 0) : regOfAccess 64 off = regAtOffset off := by
  simp [regOfAccess, h]

theorem regOfAccess_eq_none {size : Nat} {off : Word} (h : size ≠ 64 ∨ off.toNat % 8 ≠ 0 ∨ 0xB0 ≤ off.toNat) :
    regOfAccess size off = none := by
  rcases h with hsize | halign | hrange
  · simp [regOfAccess, hsize]
  · simp [regOfAccess, halign]
  · simp [regOfAccess, regAtOffset_eq_none hrange]

/-! ## Register reads and writes -/

/-- The word of a register, as R32 lays it out (`Claims.registerWord`), is what a read gives. -/
theorem readReg_eq_registerWord (s : State) (r : Reg) : s.readReg r = registerWord s r := by
  cases r
  case fault =>
    simp only [State.readReg, State.faultWord, registerWord]
    cases s.faultCode <;> rfl
  all_goals rfl

section HostTurn

variable {s : State} {ts : List Agent} {as : List HostAction} {size : Nat} {off v : Word}

theorem step_hostRead (ht : s.turns = .host :: ts) (ha : s.hostActs = .read size off :: as) :
    step s = .next (hostRead size off { s with turns := ts, hostActs := as }) := by
  simp [step, transition, ht, hostTurn, ha]

theorem step_hostWrite (ht : s.turns = .host :: ts) (ha : s.hostActs = .write size off v :: as) :
    step s = .next (hostWrite size off v { s with turns := ts, hostActs := as }) := by
  simp [step, transition, ht, hostTurn, ha]

theorem hostWrite_reg {r : Reg} (hr : regOfAccess size off = some r) (hne : r ≠ .cmd) (s : State) :
    hostWrite size off v s = (s.storeReg r v).getD (s.raiseFault .access off) := by
  rw [hostWrite, hr]
  cases r
  case cmd => exact absurd rfl hne
  all_goals rfl

/-- A write that its register takes. -/
theorem step_hostWrite_taken {r : Reg} {t : State} (ht : s.turns = .host :: ts)
    (ha : s.hostActs = .write size off v :: as) (hr : regOfAccess size off = some r) (hne : r ≠ .cmd)
    (hs : State.storeReg { s with turns := ts, hostActs := as } r v = some t) : step s = .next t := by
  rw [step_hostWrite ht ha, hostWrite_reg hr hne, hs, Option.getD_some]

/-- A write that its register does not take. -/
theorem step_hostWrite_refused {r : Reg} (ht : s.turns = .host :: ts)
    (ha : s.hostActs = .write size off v :: as) (hr : regOfAccess size off = some r) (hne : r ≠ .cmd)
    (hs : State.storeReg { s with turns := ts, hostActs := as } r v = none) :
    step s = .next (State.raiseFault { s with turns := ts, hostActs := as } .access off) := by
  rw [step_hostWrite ht ha, hostWrite_reg hr hne, hs, Option.getD_none]

end HostTurn

/-- Settles O50: a read of a register of the map, and a read that reaches none. -/
theorem hostReadsRegister : Obligations.HostReadsRegister := by
  intro s ts as size off ht ha
  refine ⟨fun r hsize halign hr => ?_, fun hrefused => ?_⟩
  · subst hsize
    rw [step_hostRead ht ha, hostRead, regOfAccess_aligned halign, hr]
    exact congrArg (fun w => Host.Outcome.next { s with turns := ts, hostActs := as, hostData := some w })
      (readReg_eq_registerWord s r)
  · rw [step_hostRead ht ha, hostRead, regOfAccess_eq_none hrefused]

/-- The five configuration registers (R33). -/
def IsConfigReg (r : Reg) : Prop :=
  r = .symbolCount ∨ r = .fc ∨ r = .fs ∨ r = .samplesPerSymbol ∨ r = .modulation

/-- The four data registers that the host may write (R44, R52). -/
def IsDataReg (r : Reg) : Prop := r = .lvlI ∨ r = .lvlQ ∨ r = .iavg ∨ r = .qavg

theorem IsConfigReg.ne_cmd {r : Reg} (h : IsConfigReg r) : r ≠ .cmd := by
  rcases h with rfl | rfl | rfl | rfl | rfl <;> decide

theorem IsDataReg.ne_cmd {r : Reg} (h : IsDataReg r) : r ≠ .cmd := by
  rcases h with rfl | rfl | rfl | rfl <;> decide

theorem storeReg_config_closed {s : State} {r : Reg} (hr : IsConfigReg r) (hs : s.configOpen = false) (v : Word) :
    s.storeReg r v = none := by
  rcases hr with rfl | rfl | rfl | rfl | rfl <;> simp [State.storeReg, hs]

theorem storeReg_data_closed {s : State} {r : Reg} (hr : IsDataReg r) (hs : s.dataOpen = false) (v : Word) :
    s.storeReg r v = none := by
  rcases hr with rfl | rfl | rfl | rfl <;> simp [State.storeReg, hs]

theorem eq_of_toNat_eq_literal {off : Word} {n : Nat} (h : off.toNat = n) : off = BitVec.ofNat 64 n :=
  BitVec.eq_of_toNat_eq (by rw [h, BitVec.toNat_ofNat, Nat.mod_eq_of_lt (h ▸ off.isLt)])

theorem regOfAccess_config {off : Word} (h : off.toNat ∈ [0x20, 0x28, 0x30, 0x38, 0x40]) :
    ∃ r, regOfAccess 64 off = some r ∧ IsConfigReg r := by
  simp only [List.mem_cons, List.not_mem_nil, or_false] at h
  rcases h with h | h | h | h | h <;> obtain rfl := eq_of_toNat_eq_literal h
  · exact ⟨.symbolCount, rfl, .inl rfl⟩
  · exact ⟨.fc, rfl, .inr (.inl rfl)⟩
  · exact ⟨.fs, rfl, .inr (.inr (.inl rfl))⟩
  · exact ⟨.samplesPerSymbol, rfl, .inr (.inr (.inr (.inl rfl)))⟩
  · exact ⟨.modulation, rfl, .inr (.inr (.inr (.inr rfl)))⟩

theorem regOfAccess_data {off : Word} (h : off.toNat ∈ [0x50, 0x58, 0x98, 0xA0]) :
    ∃ r, regOfAccess 64 off = some r ∧ IsDataReg r := by
  simp only [List.mem_cons, List.not_mem_nil, or_false] at h
  rcases h with h | h | h | h <;> obtain rfl := eq_of_toNat_eq_literal h
  · exact ⟨.lvlI, rfl, .inl rfl⟩
  · exact ⟨.lvlQ, rfl, .inr (.inl rfl)⟩
  · exact ⟨.iavg, rfl, .inr (.inr (.inl rfl))⟩
  · exact ⟨.qavg, rfl, .inr (.inr (.inr rfl))⟩

/-- A count register refuses a value with a 1 in bits 63:32 (R32). -/
theorem storeReg_count_too_wide {off v : Word} (h : off.toNat ∈ [0x20, 0x38]) (hv : 2 ^ 32 ≤ v.toNat) :
    ∃ r, regOfAccess 64 off = some r ∧ r ≠ .cmd ∧ ∀ s : State, s.storeReg r v = none := by
  have hguard : ∀ b : Bool, ¬ (b && decide (v.toNat < 2 ^ 32)) = true := fun b h =>
    Nat.not_lt.mpr hv (of_decide_eq_true (Bool.and_eq_true_iff.mp h).2)
  simp only [List.mem_cons, List.not_mem_nil, or_false] at h
  rcases h with h | h <;> obtain rfl := eq_of_toNat_eq_literal h
  · exact ⟨.symbolCount, rfl, by decide, fun s => if_neg (hguard s.configOpen)⟩
  · exact ⟨.samplesPerSymbol, rfl, by decide, fun s => if_neg (hguard s.configOpen)⟩

/-- Settles O53: each register's write taken, then the three refusals. -/
theorem hostWritesConfiguration : Obligations.HostWritesConfiguration := by
  intro s ts as off v ht ha s' isOpen
  have hopen : isOpen → s'.configOpen = true := (configOpen_iff s').mpr
  refine ⟨?_, ?_, ?_, ?_, ?_, fun hoff hclosed => ?_, fun hoff hv => ?_, ?_⟩
  · rintro rfl h hv
    exact step_hostWrite_taken (r := .symbolCount) ht ha rfl (by decide)
      (if_pos (Bool.and_eq_true_iff.mpr ⟨hopen h, decide_eq_true hv⟩))
  · rintro rfl h
    exact step_hostWrite_taken (r := .fc) ht ha rfl (by decide) (if_pos (hopen h))
  · rintro rfl h
    exact step_hostWrite_taken (r := .fs) ht ha rfl (by decide) (if_pos (hopen h))
  · rintro rfl h hv
    exact step_hostWrite_taken (r := .samplesPerSymbol) ht ha rfl (by decide)
      (if_pos (Bool.and_eq_true_iff.mpr ⟨hopen h, decide_eq_true hv⟩))
  · rintro rfl h hv
    exact step_hostWrite_taken (r := .modulation) ht ha rfl (by decide)
      (if_pos (Bool.and_eq_true_iff.mpr ⟨hopen h, decide_eq_true hv⟩))
  · obtain ⟨r, hr, hconfig⟩ := regOfAccess_config hoff
    have hclosed' : s'.configOpen = false := Bool.eq_false_iff.mpr fun h => hclosed ((configOpen_iff s').mp h)
    exact step_hostWrite_refused ht ha hr hconfig.ne_cmd (storeReg_config_closed hconfig hclosed' v)
  · obtain ⟨r, hr, hne, hs⟩ := storeReg_count_too_wide hoff hv
    exact step_hostWrite_refused ht ha hr hne (hs _)
  · rintro rfl hv
    exact step_hostWrite_refused (r := .modulation) ht ha rfl (by decide)
      (if_neg (by simp [Nat.not_lt.mpr hv]))

/-- Settles O54: each register's write taken, then the refusal. -/
theorem hostWritesData : Obligations.HostWritesData := by
  intro s ts as off v ht ha s' idle
  have hopen : idle → s'.dataOpen = true := (dataOpen_iff s').mpr
  refine ⟨?_, ?_, ?_, ?_, fun hoff hclosed => ?_⟩
  · rintro rfl h
    exact step_hostWrite_taken (r := .lvlI) ht ha rfl (by decide) (if_pos (hopen h))
  · rintro rfl h
    exact step_hostWrite_taken (r := .lvlQ) ht ha rfl (by decide) (if_pos (hopen h))
  · rintro rfl h
    exact step_hostWrite_taken (r := .iavg) ht ha rfl (by decide) (if_pos (hopen h))
  · rintro rfl h
    exact step_hostWrite_taken (r := .qavg) ht ha rfl (by decide) (if_pos (hopen h))
  · obtain ⟨r, hr, hdata⟩ := regOfAccess_data hoff
    have hclosed' : s'.dataOpen = false := Bool.eq_false_iff.mpr fun h => hclosed ((dataOpen_iff s').mp h)
    exact step_hostWrite_refused ht ha hr hdata.ne_cmd (storeReg_data_closed hdata hclosed' v)

/-! ## The STATUS word -/

theorem getLsbD_eq_of_toNat {v : Word} {k : Nat} {b : Bool} (h : v.toNat / 2 ^ k % 2 = b.toNat) :
    v.getLsbD k = b := by
  rw [BitVec.getLsbD, Nat.testBit_eq_decide_div_mod_eq, h]
  cases b <;> rfl

theorem extractLsb'_eq_of_toNat {v : Word} {k n : Nat} {x : BitVec n} (h : v.toNat / 2 ^ k % 2 ^ n = x.toNat) :
    v.extractLsb' k n = x :=
  BitVec.eq_of_toNat_eq (by rw [BitVec.extractLsb'_toNat, Nat.shiftRight_eq_div_pow, h])

/-- A word made of three flags in bits 2:0 and a byte in bits 15:8, field by field. -/
theorem flagsWord_fields (b l f : Bool) (op : BitVec 8) :
    let v : Word := BitVec.ofNat 64 (b.toNat + 2 * l.toNat + 4 * f.toNat + 256 * op.toNat)
    v.getLsbD 0 = b ∧ v.getLsbD 1 = l ∧ v.getLsbD 2 = f ∧ v.extractLsb' 3 5 = 0 ∧ v.extractLsb' 16 48 = 0 ∧
    v.extractLsb' 8 8 = op := by
  intro v
  have hop := op.isLt
  have hb := Bool.toNat_le b
  have hl := Bool.toNat_le l
  have hf := Bool.toNat_le f
  have hv : v.toNat = b.toNat + 2 * l.toNat + 4 * f.toNat + 256 * op.toNat := by
    rw [BitVec.toNat_ofNat]
    omega
  exact ⟨getLsbD_eq_of_toNat (by omega), getLsbD_eq_of_toNat (by omega), getLsbD_eq_of_toNat (by omega),
    extractLsb'_eq_of_toNat (by rw [hv]; change _ = 0; omega), extractLsb'_eq_of_toNat (by rw [hv]; change _ = 0; omega),
    extractLsb'_eq_of_toNat (by omega)⟩

theorem busy_eq_true_iff (s : State) : s.busy = true ↔ s.cur.todo ≠ [] := by
  rw [← Bool.not_eq_false, busy_eq_false_iff]

theorem faulted_eq_true_iff (s : State) : s.faulted = true ↔ s.faultCode ≠ .none := by
  rw [← Bool.not_eq_false, faulted_eq_false_iff]

theorem encode_opcode (i : Instr) : (encode i).extractLsb' 0 8 = i.opcode := by cases i <;> rfl

theorem curOp_of_busy {s : State} {i : Instr} (hb : s.busy = true) (hop : s.cur.op = some i) : s.curOp = i.opcode := by
  simp [State.curOp, hb, hop]

theorem curOp_of_not_busy {s : State} (hb : s.busy = false) : s.curOp = 0 := by
  simp [State.curOp, hb]

/-- Settles O55: the word is made of the flags and `CUR_OP`, and each of these says what R40 says of it. -/
theorem statusWordFields : Obligations.StatusWordFields := by
  intro s
  obtain ⟨hbusy, hlocked, hfaulted, hlow, hhigh, hop⟩ := flagsWord_fields s.busy s.locked s.faulted s.curOp
  refine ⟨?_, hlocked, ?_, hlow, hhigh, fun i htodo hi => ?_, fun htodo => ?_⟩
  · exact hbusy ▸ busy_eq_true_iff s
  · exact hfaulted ▸ faulted_eq_true_iff s
  · rw [encode_opcode, ← curOp_of_busy ((busy_eq_true_iff s).mpr htodo) hi]
    exact hop
  · rw [← curOp_of_not_busy ((busy_eq_false_iff s).mpr htodo)]
    exact hop

/-! ## Reset, and the next command -/

/-- Settles O7: register by register, the word of a field that is 0 after reset is 0. -/
theorem resetReadsZero : Obligations.ResetReadsZero :=
  ⟨fun r => by cases r <;> rfl, rfl, rfl, rfl, rfl, rfl⟩

theorem fetched_eq_some {s : State} {v : Word} (h : s.fetched = some v) :
    ∃ ts as, s.turns = .host :: ts ∧ s.hostActs = .command v :: as := by
  unfold State.fetched at h
  split at h
  case h_1 ts w as ht ha =>
    obtain rfl := Option.some.inj h
    exact ⟨ts, as, ht, ha⟩
  case h_2 => cases h

/-- The host's turn with a command word next is what that word does once it is taken. -/
theorem step_of_fetched {s : State} {v : Word} (h : s.fetched = some v) : step s = hostCommand v s.afterFetch := by
  obtain ⟨ts, as, ht, ha⟩ := fetched_eq_some h
  simp [step, transition, ht, hostTurn, ha, State.afterFetch]

theorem hostCommand_of_decode {v : Word} {i : Instr} (h : decode v = .ok i) (s : State) : hostCommand v s = exec i s := by
  rw [hostCommand, h]

/-- Settles O1: the fetched word is what the host's turn takes, and its command is what runs. -/
theorem stepRunsDecodedCommand : Obligations.StepRunsDecodedCommand := by
  intro s v i hfetched hdecode
  rw [step_of_fetched hfetched, hostCommand_of_decode hdecode]

theorem decode_encode (i : Instr) : decode (encode i) = .ok i := by cases i <;> rfl

theorem tableWord_toNat (v : Word) : tableWord 64 v.toNat = v := by
  rw [tableWord, Nat.mod_eq_of_lt v.isLt, BitVec.ofNat_toNat, BitVec.setWidth_eq]

/-- Settles O2: the placed word is fetched, taking it gives back the state, and it decodes to the command. -/
theorem placedWordRunsNext : Obligations.PlacedWordRunsNext := by
  intro s i
  have hfetched : (s.withFetchWord 64 (encode i).toNat).fetched = some (encode i) := by
    rw [State.withFetchWord, tableWord_toNat]
    rfl
  have hrest : (s.withFetchWord 64 (encode i).toNat).afterFetch = s := rfl
  rw [stepRunsDecodedCommand _ _ i hfetched (decode_encode i), hrest]

end Sys2Proof.Proofs
end

section
/-! PROOFS of the family 20_memory.md. First the encoding of words and offsets (O5, O51, O52), then the ports (O56, O57)
and RXBUF (O22), what a push and a late answer leave to the block's steps (O58, O60), `MIX` and `GENSYM` before each answer
of the sink (O29, O32), and the whole run (O59). -/

namespace Sys2Proof.Proofs

open Sys2Proof.Machine Sys2Proof.Claims

/-! ## The bytes of a word (R76) -/

/-- Bit `i` of the word that bytes hold is bit `i % 8` of byte `i / 8`. -/
theorem getLsbD_wordOfBytes (bs : List Byte) (i : Nat) (hi : i < 64) :
    (wordOfBytes bs).getLsbD i = (bs.getD (i / 8) 0).getLsbD (i % 8) := by
  induction bs generalizing i with
  | nil => simp [wordOfBytes]
  | cons b bs ih =>
    rw [wordOfBytes, BitVec.getLsbD_or, BitVec.getLsbD_shiftLeft, BitVec.getLsbD_setWidth]
    by_cases hlow : i < 8
    · simp [hlow, hi, Nat.div_eq_of_lt hlow, Nat.mod_eq_of_lt hlow]
    · obtain ⟨j, rfl⟩ : ∃ j, i = j + 8 := ⟨i - 8, by omega⟩
      simp [hi, ih j (by omega)]

theorem bytesOfWord_getElem? (v : Word) {k : Nat} (hk : k < 8) :
    (bytesOfWord v)[k]? = some (v.extractLsb' (8 * k) 8) := by
  simp [bytesOfWord, hk]

theorem length_bytesOfWord (v : Word) : (bytesOfWord v).length = 8 := by simp [bytesOfWord]

theorem wordOfBytes_bytesOfWord (v : Word) : wordOfBytes (bytesOfWord v) = v := by
  refine BitVec.eq_of_getLsbD_eq fun i hi => ?_
  have hbyte : (bytesOfWord v).getD (i / 8) 0 = v.extractLsb' (8 * (i / 8)) 8 := by
    rw [List.getD_eq_getElem?_getD, bytesOfWord_getElem? v (by omega), Option.getD_some]
  rw [getLsbD_wordOfBytes _ i hi, hbyte, BitVec.getLsbD_extractLsb', Nat.div_add_mod]
  simp [Nat.mod_lt]

/-- Settles O5: the eight bytes put together again are the word, so the byte decoder sees the word. -/
theorem bytesDecodeAsTheirWord : Obligations.BytesDecodeAsTheirWord := by
  intro v
  refine ⟨length_bytesOfWord v, fun k => bytesOfWord_getElem? v, wordOfBytes_bytesOfWord v, ?_⟩
  rw [decodeBytes, if_pos (length_bytesOfWord v), wordOfBytes_bytesOfWord]

/-! ## The offsets of the register map (R72, R77) -/

theorem regAtOffset_misaligned {off : Word} (h : off.toNat % 8 ≠ 0) : regAtOffset off = none := by
  unfold regAtOffset
  split
  case h_23 => rfl
  all_goals omega

/-- Settles O51: the listed offsets by computation, all others by the two reasons there are. -/
theorem registerMapOffsets : Obligations.RegisterMapOffsets :=
  ⟨rfl, fun _ h => h.elim regAtOffset_eq_none regAtOffset_misaligned⟩

/-! ## Refused writes (R73, R77, R79, R92) -/

/-- A write that reaches no register. -/
theorem hostWrite_no_register {size : Nat} {off : Word} (h : regOfAccess size off = none) (v : Word) (s : State) :
    hostWrite size off v s = s.raiseFault .access off := by
  rw [hostWrite, h]

/-- The registers, `CMD` apart, that take no write in any state. -/
def readOnlyRegs : List Reg :=
  [.status, .fault, .faultInfo, .txbits, .txK, .txN, .rxAvail, .rxK, .rxJ, .isum, .qsum, .rxbits]

theorem storeReg_readOnly : ∀ r ∈ readOnlyRegs, ∀ (s : State) (v : Word), s.storeReg r v = none := by
  simp [readOnlyRegs, State.storeReg]

theorem ne_cmd_of_readOnly : ∀ r ∈ readOnlyRegs, r ≠ .cmd := by decide

/-- The twelve read-only offsets of R72. -/
theorem regOfAccess_readOnly {off : Word}
    (h : off.toNat ∈ [0x08, 0x10, 0x18, 0x48, 0x60, 0x68, 0x70, 0x78, 0x80, 0x88, 0x90, 0xA8]) :
    ∃ r ∈ readOnlyRegs, regOfAccess 64 off = some r := by
  simp only [List.mem_cons, List.not_mem_nil, or_false] at h
  rcases h with h | h | h | h | h | h | h | h | h | h | h | h <;>
    obtain rfl := eq_of_toNat_eq_literal h <;> decide

/-- Settles O52: the access reaches no register, or it reaches a read-only one. -/
theorem hostWriteRefused : Obligations.HostWriteRefused := by
  intro s ts as size off v ht ha h
  by_cases hnone : size ≠ 64 ∨ off.toNat % 8 ≠ 0 ∨ 0xB0 ≤ off.toNat
  · rw [step_hostWrite ht ha, hostWrite_no_register (regOfAccess_eq_none hnone)]
  · obtain ⟨hsize, halign, hrange⟩ : size = 64 ∧ off.toNat % 8 = 0 ∧ off.toNat < 0xB0 := by omega
    have hoff := ((h.resolve_left (· hsize)).resolve_left (· halign)).resolve_left (Nat.not_le.mpr hrange)
    obtain ⟨r, hmem, hr⟩ := regOfAccess_readOnly hoff
    subst hsize
    exact step_hostWrite_refused ht ha hr (ne_cmd_of_readOnly r hmem) (storeReg_readOnly r hmem _ v)

/-! ## The ports (R80, R81) -/

theorem raiseFault_of_not_faulted {s : State} (h : s.faulted = false) (c : FaultCode) (info : Word) :
    s.raiseFault c info = faultedWith s c info := by
  simp [State.raiseFault, faultedWith, h]

theorem bgAccepts_iff (s : State) : s.bgAccepts = true ↔ s.faulted = false ∧ s.bgq.length < Config.bgqDepth := by
  simp [State.bgAccepts]

theorem sampleAccepts_iff (s : State) :
    s.sampleAccepts = true ↔ s.busy = false ∧ s.faulted = false ∧ s.rxAvail.toNat < Config.rxbufDepth := by
  simp [State.sampleAccepts, and_assoc, and_left_comm]

theorem step_bitSource {s : State} {ts : List Agent} (ht : s.turns = .bitSource :: ts) :
    step s = .next (bitSourceTurn { s with turns := ts }) := by
  simp [step, transition, ht]

theorem step_sampleSource {s : State} {ts : List Agent} (ht : s.turns = .sampleSource :: ts) :
    step s = .next (sampleSourceTurn { s with turns := ts }) := by
  simp [step, transition, ht]

theorem bitSourceTurn_accepted {s : State} {b : Beat} {rest : List Beat} (hb : s.bitSupply = b :: rest)
    (ha : s.bgAccepts = true) : bitSourceTurn s = { s.bgPush b with bitSupply := rest } := by
  simp [bitSourceTurn, hb, ha]

theorem bitSourceTurn_waits {s : State} (ha : s.bgAccepts = false) : bitSourceTurn s = s := by
  unfold bitSourceTurn
  split
  · rfl
  · simp [ha]

theorem sampleSourceTurn_accepted {s : State} {x : InBeat} {rest : List InBeat} (hx : s.sampleSupply = x :: rest)
    (ha : s.sampleAccepts = true) :
    sampleSourceTurn s = if x.err then { s.raiseFault .store 0 with sampleSupply := rest }
      else { s.memAppend ⟨x.time, x.amp⟩ with sampleSupply := rest } := by
  simp [sampleSourceTurn, hx, ha]

theorem sampleSourceTurn_waits {s : State} (ha : s.sampleAccepts = false) : sampleSourceTurn s = s := by
  unfold sampleSourceTurn
  split
  · rfl
  · simp [ha]

/-- Settles O56: the port accepts exactly without a fault and with room in BGQ. -/
theorem bitSourcePush : Obligations.BitSourcePush := by
  intro s ts b rest ht hb
  refine ⟨fun hf hroom => ?_, fun hclosed => ?_⟩
  · have ha : State.bgAccepts { s with turns := ts } = true := (bgAccepts_iff _).mpr ⟨hf, hroom⟩
    exact (step_bitSource ht).trans (congrArg _ (bitSourceTurn_accepted hb ha))
  · have ha : State.bgAccepts { s with turns := ts } = false := Bool.eq_false_iff.mpr fun ha => by
      obtain ⟨hf, hroom⟩ := (bgAccepts_iff _).mp ha
      exact hclosed.elim (fun h => absurd (hf.symm.trans h) (by decide)) (Nat.not_le.mpr hroom)
    exact (step_bitSource ht).trans (congrArg _ (bitSourceTurn_waits ha))

/-- Settles O57: the three answers of the port to a beat. -/
theorem sampleSourcePush : Obligations.SampleSourcePush := by
  intro s ts x rest ht hx taken
  have hiff : State.sampleAccepts { s with turns := ts } = true ↔ taken := sampleAccepts_iff _
  have hturn := step_sampleSource ht
  refine ⟨fun htaken herr => ?_, fun htaken herr => ?_, fun hnot => ?_⟩
  · rw [hturn, sampleSourceTurn_accepted (s := { s with turns := ts }) hx (hiff.mpr htaken), herr]
    rfl
  · have hraise := raiseFault_of_not_faulted (s := { s with turns := ts }) htaken.2.1 .store 0
    rw [hturn, sampleSourceTurn_accepted (s := { s with turns := ts }) hx (hiff.mpr htaken), herr, hraise]
    rfl
  · rw [hturn, sampleSourceTurn_waits (Bool.eq_false_iff.mpr (mt hiff.mp hnot))]

/-! ## RXBUF between resets (R75, R283) -/

theorem rxbuf_blockStep {s t : State} (h : blockStep s = .next t) : t.rxbuf = s.rxbuf := by
  rcases blockStep_performs_or_keeps h with ⟨p, s', hp, rfl⟩ | ⟨_, _, _, _, rfl⟩
  · obtain ⟨_, _, _, _, _, _, _, hrxbuf, _⟩ := primStep_done_frame hp
    exact hrxbuf
  · rfl

theorem rxbuf_blockRun {n : Nat} {s t : State} (h : blockRun n s = .next t) : t.rxbuf = s.rxbuf :=
  blockRun_induction (R := fun a b => b.rxbuf = a.rxbuf) (fun _ => rfl) (fun _ _ _ hab hbc => hbc.trans hab)
    (fun _ _ => rxbuf_blockStep) n h

theorem rxbuf_turnedAway (i : Instr) (s : State) : (s.turnedAway i).rxbuf = s.rxbuf := by
  unfold State.turnedAway
  split <;> rfl

theorem rxbuf_illegalWord (v : Word) (s : State) : (s.illegalWord v).rxbuf = s.rxbuf := by
  unfold State.illegalWord
  split_ifs <;> rfl

theorem rxbuf_exec {i : Instr} {s t : State} (hi : i ≠ .sreset) (h : exec i s = .next t) : t.rxbuf = s.rxbuf := by
  rw [exec_eq_runCommand s hi] at h
  cases ha : accepts i s
  · rw [runCommand_turnedAway ha] at h
    exact Host.Outcome.next.inj h ▸ rxbuf_turnedAway i s
  · rw [runCommand_accepted ha] at h
    exact (rxbuf_blockRun h).trans (accepted_rxbuf s i)

/-- A write of `CMD` keeps RXBUF, but where its value is `SRESET`'s word. -/
theorem rxbuf_writeCmd (v : Word) (s : State) : v = 2 ∨ (writeCmd v s).rxbuf = s.rxbuf := by
  rcases writeCmd_cases v s with ⟨hd, _⟩ | ⟨_, _, _, e⟩ | ⟨_, e⟩ | ⟨_, _, _, _, e⟩
  · exact .inl (decode_sreset hd)
  all_goals exact .inr (congrArg State.rxbuf e :)

theorem rxbuf_hostWrite (size : Nat) (off v : Word) (s : State) :
    (size = 64 ∧ off = 0 ∧ v = 2) ∨ (hostWrite size off v s).rxbuf = s.rxbuf := by
  rcases hostWrite_cases size off v s with ⟨hr, e⟩ | ⟨_, t, _, _, hs, e⟩ | e
  · obtain ⟨hsize, hoff⟩ := regOfAccess_cmd hr
    rw [e]
    exact (rxbuf_writeCmd v s).imp_left fun hv => ⟨hsize, hoff, hv⟩
  · right
    rw [e]
    rcases storeReg_cases hs with ⟨_, ⟨_, rfl⟩ | rfl | rfl | ⟨_, rfl⟩ | ⟨_, rfl⟩⟩ | ⟨_, rfl | rfl | rfl | rfl⟩ <;> rfl
  · exact .inr (congrArg State.rxbuf e :)

theorem rxbuf_hostCommand {v : Word} {s t : State} (h : hostCommand v s = .next t) : v = 2 ∨ t.rxbuf = s.rxbuf := by
  unfold hostCommand at h
  split at h
  case h_1 i hd =>
    by_cases hi : i = .sreset
    · exact .inl (decode_sreset (hi ▸ hd))
    · exact .inr (rxbuf_exec hi h)
  case h_2 => exact .inr (Host.Outcome.next.inj h ▸ rxbuf_illegalWord v s)

/-- A turn of the host keeps RXBUF, but where its action is `SRESET`. -/
theorem rxbuf_hostTurn {s t : State} (h : hostTurn s = .next t) :
    (∃ as, s.hostActs = .command 0x02 :: as ∨ s.hostActs = .write 64 0 0x02 :: as) ∨ t.rxbuf = s.rxbuf := by
  rcases hostTurn_cases h with ⟨_, rfl⟩ | ⟨size, off, as, _, rfl⟩ | ⟨size, off, v, as, ha, rfl⟩ | ⟨v, as, ha, h⟩ |
    ⟨as, _, rfl⟩
  · exact .inr rfl
  · rcases hostRead_cases size off { s with hostActs := as } with ⟨_, _, e⟩ | ⟨_, e⟩ <;>
      exact .inr (congrArg State.rxbuf e :)
  · refine (rxbuf_hostWrite size off v { s with hostActs := as }).imp_left ?_
    rintro ⟨rfl, rfl, rfl⟩
    exact ⟨as, .inr ha⟩
  · refine (rxbuf_hostCommand h).imp_left ?_
    rintro rfl
    exact ⟨as, .inl ha⟩
  · right
    unfold hostWait
    split <;> rfl

/-- Settles O22, agent by agent: the block, the bit source and the host, `SRESET` apart, keep RXBUF; the sample source
appends one sample where its port accepts, and so only while the block is idle. -/
theorem receiveBufferOnlyGrows : Obligations.ReceiveBufferOnlyGrows := by
  intro s t hreset hstep
  rcases transition_cases hstep with ⟨_, h⟩ | ⟨ts, _, h⟩ | ⟨ts, ht, h⟩ | ⟨ts, _, rfl⟩ | ⟨ts, ht, rfl⟩
  · exact .inl (rxbuf_blockStep h)
  · exact .inl (rxbuf_blockStep (s := { s with turns := ts }) h)
  · rcases rxbuf_hostTurn h with ⟨as, ha⟩ | hkeep
    · exact absurd ⟨ts, as, ht, ha⟩ hreset
    · exact .inl hkeep
  · rcases bitSourceTurn_cases { s with turns := ts } with e | ⟨_, _, _, _, e⟩ <;> exact .inl (congrArg State.rxbuf e :)
  · rcases sampleSourceTurn_cases { s with turns := ts } with e | ⟨x, _, _, ha, ⟨_, e⟩ | ⟨_, e⟩⟩
    · exact .inl (congrArg State.rxbuf e :)
    · exact .inl (congrArg State.rxbuf e :)
    · obtain ⟨hbusy, _⟩ := (sampleAccepts_iff _).mp ha
      exact .inr ⟨hbusy, ⟨ts, ht⟩, ⟨x.time, x.amp⟩, (congrArg State.rxbuf e :)⟩

/-! ## A primitive step and the queues of the other agents

A push on BG_IN and the prompt sink both change queues alone. A step that finds the same at the head of the changed
queues does the same, and leaves them changed in the same way. -/

/-- The answer of a step with its state changed. -/
def mapAnswer (f : State → State) : StepAnswer → StepAnswer
  | .done s => .done (f s)
  | .hold s => .hold (f s)
  | .raised s c info => .raised (f s) c info
  | .stuck e => .stuck e

/-- The state with BGQ, the coming beats of the bit source and the coming answers of the sink changed. -/
def mapQueues (a c : List Beat → List Beat) (r : List SinkReply → List SinkReply) (s : State) : State :=
  { s with bgq := a s.bgq, bitSupply := c s.bitSupply, sinkReplies := r s.sinkReplies }

section Queues

variable {p : Prim} {s : State} {a c : List Beat → List Beat} {r : List SinkReply → List SinkReply}

theorem stepMap_mapQueues
    (h : (s.bgq = [] ∧ a [] = []) ∨ ∃ b rest, s.bgq = b :: rest ∧ a (b :: rest) = b :: a rest) :
    stepMap (mapQueues a c r s) = mapAnswer (mapQueues a c r) (stepMap s) := by
  have hm : (mapQueues a c r s).modulation = s.modulation := rfl
  have hq : (mapQueues a c r s).bgq = a s.bgq := rfl
  rcases h with ⟨hs, ha⟩ | ⟨b, rest, hs, ha⟩ <;> rw [hs, ha] at hq <;> simp only [stepMap, hq, hs, hm]
  · rfl
  · split
    · rfl
    · split <;> rfl

theorem stepMix_mapQueues (hhead : (r s.sinkReplies).headD .ok = s.sinkReply)
    (htail : (r s.sinkReplies).tail = r s.sinkReplies.tail) :
    stepMix (mapQueues a c r s) = mapAnswer (mapQueues a c r) (stepMix s) := by
  have hreply : (mapQueues a c r s).sinkReply = s.sinkReply := hhead
  have hreplied : (mapQueues a c r s).sinkReplied = mapQueues a c r s.sinkReplied := by
    simp only [State.sinkReplied, mapQueues, htail]
  simp only [stepMix, hreply, hreplied]
  split <;> rfl

/-- A step does the same over changed queues, where `MAP` finds the same head of BGQ and `MIX` the same answer. -/
theorem primStep_mapQueues
    (hmap : p = .map → (s.bgq = [] ∧ a [] = []) ∨ ∃ b rest, s.bgq = b :: rest ∧ a (b :: rest) = b :: a rest)
    (hmix : p = .mix → (r s.sinkReplies).headD .ok = s.sinkReply ∧ (r s.sinkReplies).tail = r s.sinkReplies.tail) :
    primStep p (mapQueues a c r s) = mapAnswer (mapQueues a c r) (primStep p s) := by
  have hmask : configMask (mapQueues a c r s) = configMask s := rfl
  have hwindow : (mapQueues a c r s).samplesPerSymbol = s.samplesPerSymbol ∧ (mapQueues a c r s).rxJ = s.rxJ :=
    ⟨rfl, rfl⟩
  have hoperands : (mapQueues a c r s).modulation = s.modulation ∧ (mapQueues a c r s).iavg = s.iavg ∧
      (mapQueues a c r s).qavg = s.qavg := ⟨rfl, rfl, rfl⟩
  cases p <;> simp only [primStep]
  case map => exact stepMap_mapQueues (hmap rfl)
  case mix => exact stepMix_mapQueues (hmix rfl).1 (hmix rfl).2
  case configure => simp only [stepConfigure, hmask]; split <;> rfl
  case corr => simp only [stepCorr, hwindow]; split <;> rfl
  case decideStep =>
    simp only [stepDecide, hoperands]
    split
    · rfl
    · split <;> rfl
  all_goals rfl

end Queues

/-! ## A push on BG_IN beside an action of the block (R87) -/

/-- The state after a push of the bit source that is accepted. -/
def pushed (b : Beat) (rest : List Beat) (s : State) : State := { s.bgPush b with bitSupply := rest }

/-- A beat pushed behind those queued is not seen by a step that does not wait for it. -/
theorem primStep_pushed {p : Prim} {s : State} (h : ¬ (s.bgq = [] ∧ p = .map)) (b : Beat) (rest : List Beat) :
    primStep p (pushed b rest s) = mapAnswer (pushed b rest) (primStep p s) := by
  refine primStep_mapQueues (s := s) (a := (· ++ [b])) (c := fun _ => rest) (r := id) (fun hp => .inr ?_)
    fun _ => ⟨rfl, rfl⟩
  obtain ⟨x, l, hs⟩ := List.exists_cons_of_ne_nil fun hs => h ⟨hs, hp⟩
  exact ⟨x, l, hs, rfl⟩

theorem pushed_retire (b : Beat) (rest : List Beat) (s : State) :
    (pushed b rest s).retire = pushed b rest s.retire := rfl

theorem blockStep_pushed {s t : State} (hwait : ¬ (s.bgq = [] ∧ s.cur.todo.head? = some .map))
    (h : blockStep s = .next t) (hf : t.faulted = false) (b : Beat) (rest : List Beat) :
    blockStep (pushed b rest s) = .next (pushed b rest t) := by
  rcases blockStep_cases h with ⟨hc, rfl⟩ | ⟨p, l, hc, hcase⟩
  · exact blockStep_idle hc
  · have hp := primStep_pushed (p := p) (s := s) (fun ⟨hs, hp⟩ => hwait ⟨hs, by rw [hc, hp]; rfl⟩) b rest
    rcases hcase with ⟨s', hdone, rfl⟩ | hhold | ⟨s', c, info, hraised, rfl⟩
    · rw [hdone] at hp
      rw [blockStep_done (s := pushed b rest s) hc hp, pushed_retire]
    · rw [hhold] at hp
      exact blockStep_hold (s := pushed b rest s) hc hp
    · rw [raiseFault_faulted s' c info (primStep_raised_code hraised)] at hf
      cases hf

/-- An action of the block that does not fault keeps BG_IN open, and what the bit source will push. -/
theorem bitPort_blockStep {s t : State} (ha : s.bgAccepts = true) (h : blockStep s = .next t) (hf : t.faulted = false) :
    t.bgAccepts = true ∧ t.bitSupply = s.bitSupply := by
  obtain ⟨_, hroom⟩ := (bgAccepts_iff s).mp ha
  rcases blockStep_performs_or_keeps h with ⟨p, s', hp, rfl⟩ | ⟨_, _, _, _, rfl⟩
  · obtain ⟨_, _, _, _, _, _, _, _, _, _, _, _, hsupply, _⟩ := primStep_done_frame hp
    have hlength := (stepWrites_of_done hp).bgq_suffix.length_le
    exact ⟨(bgAccepts_iff _).mpr ⟨hf, hlength.trans_lt hroom⟩, hsupply⟩
  · exact ⟨(bgAccepts_iff _).mpr ⟨hf, hroom⟩, rfl⟩

/-- Settles O58: the port accepts the same beat before and after the action, and the action does not see it. -/
theorem bitPushCommutesWithBlock : Obligations.BitPushCommutesWithBlock := by
  intro s t ha hwait h hf
  obtain ⟨ha', hsupply⟩ := bitPort_blockStep ha h hf
  cases hb : s.bitSupply with
  | nil =>
    have hnothing : ∀ u : State, u.bitSupply = [] → bitSourceTurn u = u := fun u hu => by simp [bitSourceTurn, hu]
    rw [hnothing s hb, hnothing t (hsupply.trans hb), h]
  | cons b rest =>
    rw [bitSourceTurn_accepted hb ha, bitSourceTurn_accepted (hsupply.trans hb) ha']
    exact blockStep_pushed hwait h hf b rest

/-! ## A slow sink (R82) -/

/-- A step that finds no late answer does the same once all of them are left out. -/
theorem primStep_promptSink {p : Prim} {s : State} (h : p = .mix → s.sinkReply ≠ .pending) :
    primStep p (promptSink s) = mapAnswer promptSink (primStep p s) := by
  refine primStep_mapQueues (s := s) (a := id) (c := id) (r := (·.filter (· ≠ .pending))) (fun _ => ?_) fun hp => ?_
  · cases hs : s.bgq with
    | nil => exact .inl ⟨rfl, rfl⟩
    | cons b rest => exact .inr ⟨b, rest, rfl, rfl⟩
  · have hreply := h hp
    unfold State.sinkReply at hreply ⊢
    cases hs : s.sinkReplies with
    | nil => exact ⟨rfl, rfl⟩
    | cons x rs =>
      rw [hs] at hreply
      have hx : x ≠ .pending := hreply
      simp [hx]

theorem promptSink_sinkReplied {s : State} (h : s.sinkReply = .pending) : promptSink s.sinkReplied = promptSink s := by
  obtain ⟨rs, hs⟩ := sinkReplies_of_pending h
  simp [promptSink, State.sinkReplied, hs]

/-- A step before a late answer neither is performed, nor raises, nor stays as it is. -/
theorem sinkReply_ne_pending_of_done {p : Prim} {s s' : State} (h : primStep p s = .done s') :
    p = .mix → s.sinkReply ≠ .pending := by
  rintro rfl hs
  rw [primStep_late hs] at h
  cases h

theorem sinkReply_ne_pending_of_raised {p : Prim} {s s' : State} {c : FaultCode} {info : Word}
    (h : primStep p s = .raised s' c info) : p = .mix → s.sinkReply ≠ .pending := by
  rintro rfl hs
  rw [primStep_late hs] at h
  cases h

theorem sinkReply_ne_pending_of_stays {p : Prim} {s : State} (h : primStep p s = .hold s) :
    p = .mix → s.sinkReply ≠ .pending := by
  rintro rfl hs
  obtain ⟨rs, hrs⟩ := sinkReplies_of_pending hs
  rw [primStep_late hs] at h
  have htail : s.sinkReplies.tail = s.sinkReplies := congrArg State.sinkReplies (StepAnswer.hold.inj h)
  simp [hrs] at htail

theorem performs_promptSink {l : List Prim} {s t : State} (h : Performs l s t) :
    Performs l (promptSink s) (promptSink t) := by
  induction h with
  | nil s => exact .nil _
  | cons hp _ ih => exact .cons (by rw [primStep_promptSink (sinkReply_ne_pending_of_done hp), hp]; rfl) ih
  | late hs _ ih => exact promptSink_sinkReplied hs ▸ ih

theorem promptSink_eq_of_awaits {p : Prim} {s u : State} (h : Awaits p s u) : promptSink s = promptSink u := by
  induction h with
  | refl => rfl
  | late _ hs _ ih => rw [← ih, promptSink_sinkReplied hs]

theorem accepts_promptSink (i : Instr) (s : State) : accepts i (promptSink s) = accepts i s := by
  unfold accepts
  rw [lockAdmits_congr i (s := s) (t := promptSink s) rfl]
  rfl

theorem expand_promptSink (i : Instr) (s : State) : expand i (promptSink s) = expand i s := expand_congr i rfl rfl

theorem turnedAway_promptSink (i : Instr) (s : State) :
    (promptSink s).turnedAway i = promptSink (s.turnedAway i) := by
  have hf : (promptSink s).faulted = s.faulted := rfl
  simp only [State.turnedAway, hf]
  split <;> rfl

/-- A command that is accepted and answers a next state has performed steps up to its end, to one that raises, or to one
at which it waits; without the late answers it does the same. -/
theorem runCommand_promptSink {i : Instr} {s t : State} (ha : accepts i s = true) (hne : expand i s ≠ [])
    (h : runCommand i s = .next t) : runCommand i (promptSink s) = .next (promptSink t) := by
  have ha' : accepts i (promptSink s) = true := (accepts_promptSink i s).trans ha
  have hx := expand_promptSink i s
  rcases runCommand_outcome ha hne h with
    ⟨l1, p, l2, u, v, hl, hperforms, hawaits, hp, rfl⟩ | ⟨u, hperforms, rfl⟩ |
    ⟨l1, p, l2, u, v, u', c, info, hl, hperforms, hawaits, hp, rfl⟩
  · have hp' := primStep_promptSink (sinkReply_ne_pending_of_stays hp)
    rw [hp] at hp'
    exact runCommand_holds ha' (hx.trans hl) (performs_promptSink hperforms)
      (promptSink_eq_of_awaits hawaits ▸ .refl _) hp'
  · exact runCommand_performs ha' (hx ▸ hne) (hx ▸ performs_promptSink hperforms)
  · have hp' := primStep_promptSink (sinkReply_ne_pending_of_raised hp)
    rw [hp] at hp'
    exact runCommand_raises ha' (hx.trans hl) (performs_promptSink hperforms)
      (promptSink_eq_of_awaits hawaits ▸ .refl _) hp'

/-- Settles O60: a command turned away, or accepted and run, sees no late answer. -/
theorem slowSinkChangesNoValue : Obligations.SlowSinkChangesNoValue := by
  intro i s t h
  by_cases hi : i = .sreset
  · subst hi
    obtain rfl := Host.Outcome.next.inj h
    rfl
  · rw [exec_eq_runCommand _ hi] at h ⊢
    cases ha : accepts i s with
    | true => exact runCommand_promptSink ha (expand_ne_nil i s hi) h
    | false =>
      rw [runCommand_turnedAway ha] at h
      rw [runCommand_turnedAway ((accepts_promptSink i s).trans ha), turnedAway_promptSink, Host.Outcome.next.inj h]

/-! ## A late answer, used up -/

/-- More actions than enough lead no further. -/
theorem blockRun_of_enough (op : Option Instr) (l : List Prim) (s : State) {n : Nat}
    (h : l.length + s.sinkReplies.length ≤ n) :
    blockRun n (s.withCur ⟨op, l⟩) = blockRun (l.length + s.sinkReplies.length) (s.withCur ⟨op, l⟩) := by
  induction n, h using Nat.le_induction with
  | base => rfl
  | succ n hn ih => rw [blockRun_enough op n l s hn, ih]

/-- A command whose steps `l` are performed goes on as the rest of it from the state they lead to. -/
theorem runCommand_resumes {i : Instr} {s t : State} {l rest : List Prim} (ha : accepts i s = true)
    (hx : expand i s = l ++ rest) (hrest : rest ≠ []) (h : Performs l s t) :
    runCommand i s = blockRun (rest.length + t.sinkReplies.length) (t.withCur ⟨some i, rest⟩) := by
  have hs : s.accepted i = s.withCur ⟨some i, l ++ rest⟩ := by rw [← hx]; rfl
  have hn : enoughActions i s = l.length + rest.length + s.sinkReplies.length := by
    rw [enoughActions, hx, List.length_append]
  rw [runCommand_accepted ha, hs, hn]
  by_cases hl : l = []
  · subst hl
    cases h
    simp
  · obtain ⟨k, hk, _, hrun⟩ := h.blockRun (some i) rest hl
    obtain ⟨m, hm⟩ : ∃ m, l.length + rest.length + s.sinkReplies.length = k + m := Nat.exists_eq_add_of_le (by omega)
    have hleft : Cur.left (some i) rest = ⟨some i, rest⟩ := by
      obtain ⟨q, r, rfl⟩ := List.exists_cons_of_ne_nil hrest
      rfl
    rw [hm, blockRun_add _ _ hrun, hleft, blockRun_of_enough _ _ _ (by omega)]

/-- A command that comes to a `MIX` with a late answer ends as from a state that comes there with the answer used up. -/
theorem runCommand_late {i : Instr} {s s' t : State} {l rest : List Prim} (ha : accepts i s = true)
    (ha' : accepts i s' = true) (hx : expand i s = l ++ .mix :: rest) (hx' : expand i s' = l ++ .mix :: rest)
    (h : Performs l s t) (hlate : t.sinkReply = .pending) (h' : Performs l s' t.sinkReplied) :
    runCommand i s = runCommand i s' := by
  obtain ⟨rs, hrs⟩ := sinkReplies_of_pending hlate
  have hcount : (Prim.mix :: rest).length + t.sinkReplies.length =
      (Prim.mix :: rest).length + t.sinkReplied.sinkReplies.length + 1 := by
    simp [hrs, Nat.add_assoc]
  rw [runCommand_resumes ha hx (List.cons_ne_nil _ _) h, runCommand_resumes ha' hx' (List.cons_ne_nil _ _) h', hcount,
    blockRun_succ _ (blockStep_withCur_hold (some i) rest (primStep_late hlate))]

theorem primStep_mix_error {s : State} (h : s.sinkReply = .error) :
    primStep .mix s = .raised s.sinkReplied .store 1 := by
  simp [primStep, stepMix, h]

theorem primStep_mix_never {s : State} (h : s.sinkReply = .never) : primStep .mix s = .hold s := by
  simp [primStep, stepMix, h]

theorem sinkReply_of_cons {s : State} {r : SinkReply} {rs : List SinkReply} (h : s.sinkReplies = r :: rs) :
    s.sinkReply = r ∧ s.sinkReplied = { s with sinkReplies := rs } := by
  simp [State.sinkReply, State.sinkReplied, h]

/-- Settles O29: the three answers at which `MIX` is not performed at once. -/
theorem mixWhenSinkRefuses : Obligations.MixWhenSinkRefuses := by
  intro s rs hready
  have ha : accepts .mix s = true := accepts_of_ready hready rfl
  have hx : expand .mix s = [] ++ [.mix] := rfl
  obtain ⟨hf, _, _⟩ := hready
  refine ⟨fun hs => ?_, fun hs => ?_, fun hs => ?_⟩ <;> obtain ⟨hreply, hreplied⟩ := sinkReply_of_cons hs
  · rw [exec_mix, runCommand_raises ha hx (.nil s) (.refl s) (primStep_mix_error hreply), hreplied,
      raiseFault_of_not_faulted (s := { s with sinkReplies := rs }) hf]
    rfl
  · have ha' : accepts .mix { s with sinkReplies := rs } = true := ha
    rw [exec_mix, exec_mix, runCommand_late ha ha' hx rfl (.nil s) hreply (hreplied ▸ .nil _)]
  · have hhold := primStep_mix_never hreply
    rw [exec_mix, runCommand_holds ha hx (.nil s) (.refl s) hhold]
    exact ⟨rfl, blockRun_stays (blockStep_withCur_hold (some .mix) [] hhold)⟩

/-! ## GENSYM (R172) -/

theorem exec_gensym (s : State) : exec .gensym s = runCommand .gensym s := exec_eq_runCommand s (by decide)

/-- The state after a `MAP` step that pops the beat `b` and leaves `rest` (R150). -/
def mapped (sch : Scheme) (b : Beat) (rest : List Beat) (s : State) : State :=
  { s with bgq := rest, txbits := b, lvlI := (beatLevels sch b).1, lvlQ := (beatLevels sch b).2 }

/-- The state after `k` `MIX` steps whose samples the sink takes (R171). -/
def mixed (k : Nat) (s : State) : State :=
  { s with
    txout := s.txout ++ symbolSamples s.lvlI s.lvlQ s.txN k s.fc s.fs
    txN := s.txN + BitVec.ofNat 64 k
    sinkReplies := s.sinkReplies.drop k }

section Mapper

variable {s : State} {sch : Scheme} {b : Beat} {rest : List Beat}

theorem primStep_map_empty (hq : s.bgq = []) : primStep .map s = .hold s := by
  simp [primStep, stepMap, hq]

theorem primStep_map_done (hq : s.bgq = b :: rest) (hsch : schemeOfCode s.modulation = some sch)
    (hlen : (beatLen b).toNat = bitsPerSymbol sch) : primStep .map s = .done (mapped sch b rest s) := by
  simp only [primStep, stepMap, hq, hsch, hlen, if_true]
  rfl

theorem primStep_map_wrongLength (hq : s.bgq = b :: rest) (hsch : schemeOfCode s.modulation = some sch)
    (hlen : (beatLen b).toNat ≠ bitsPerSymbol sch) :
    primStep .map s = .raised s .bitgroupLen (bitgroupLenInfo b (bitsPerSymbol sch)) := by
  simp [primStep, stepMap, hq, hsch, hlen]

end Mapper

theorem symbolSamples_succ (i q : F64) (n : Word) (k : Nat) (fc fs : F64) :
    symbolSamples i q n (k + 1) fc fs =
      symbolSamples i q n k fc fs ++ [mixSample i q (n + BitVec.ofNat 64 k).toNat fc fs] := by
  simp only [symbolSamples, List.range_succ, List.map_append]
  rfl

theorem sinkTakes_of_le {j k : Nat} {s : State} (h : SinkTakes k s) (hjk : j ≤ k) : SinkTakes j s := fun r hr =>
  h r (List.mem_of_mem_take (i := j) (by rwa [List.take_take, Nat.min_eq_left hjk]))

/-- What the sink answers to the beat after the first `k`. -/
theorem sinkReply_mixed (k : Nat) (s : State) : (mixed k s).sinkReply = (s.sinkReplies[k]?).getD .ok := by
  rw [State.sinkReply, mixed, List.headD_eq_head?_getD, List.head?_drop]

theorem sinkReplied_mixed (k : Nat) (s : State) :
    (mixed k s).sinkReplied = { mixed k s with sinkReplies := s.sinkReplies.drop (k + 1) } := by
  simp only [State.sinkReplied, mixed, List.tail_drop]

theorem sinkReply_mixed_ok {k : Nat} {s : State} (h : SinkTakes (k + 1) s) : (mixed k s).sinkReply = .ok := by
  rw [sinkReply_mixed]
  cases hr : s.sinkReplies[k]? with
  | none => rfl
  | some r =>
    refine h r (List.mem_of_getElem? (i := k) ?_)
    rw [List.getElem?_take_of_lt (Nat.lt_succ_self k), hr]

/-- `k` `MIX` steps before a sink that takes the samples are performed (R171, R172). -/
theorem performs_mixes {k : Nat} {s : State} (h : SinkTakes k s) :
    Performs (List.replicate k .mix) s (mixed k s) := by
  induction k with
  | zero =>
    have hnone : mixed 0 s = s := by simp [mixed, symbolSamples]
    rw [hnone]
    exact .nil s
  | succ k ih =>
    have hlast : mixed (k + 1) s =
        { (mixed k s).sinkReplied with
          txout := (mixed k s).txout ++ [(mixed k s).nextSample], txN := (mixed k s).txN + 1 } := by
      rw [sinkReplied_mixed]
      simp only [mixed, symbolSamples_succ, BitVec.ofNat_add, ← BitVec.add_assoc, ← List.append_assoc]
      rfl
    rw [List.replicate_succ', hlast]
    exact (ih (sinkTakes_of_le h (Nat.le_succ k))).append (.one (primStep_mix_ok (sinkReply_mixed_ok h)))

/-- The steps of a `GENSYM` up to the `MIX` of its sample `j`, and from there on. -/
theorem expand_gensym_split {j : Nat} {s : State} (h : j < s.samplesPerSymbol.toNat) :
    expand .gensym s = (Prim.map :: List.replicate j Prim.mix) ++
      (Prim.mix :: (List.replicate (s.samplesPerSymbol.toNat - j - 1) Prim.mix ++ [Prim.txkinc])) := by
  obtain ⟨m, hm⟩ := Nat.exists_eq_add_of_lt h
  have hrest : s.samplesPerSymbol.toNat - j - 1 = m := by omega
  rw [hrest, expand, gensymSteps, hm, Nat.add_assoc, List.replicate_add, List.replicate_succ]
  simp

section Gensym

variable {s : State} {sch : Scheme} {b : Beat} {rest : List Beat} {j : Nat}

/-- `MAP` and then `j` samples taken: the state in which the statement's `emitted j` is written. -/
theorem performs_map_mixes (hq : s.bgq = b :: rest) (hsch : schemeOfCode s.modulation = some sch)
    (hlen : (beatLen b).toNat = bitsPerSymbol sch) (hsink : SinkTakes j s) :
    Performs (.map :: List.replicate j .mix) s (mixed j (mapped sch b rest s)) :=
  .cons (primStep_map_done hq hsch hlen) (performs_mixes hsink)

theorem performs_gensym (hq : s.bgq = b :: rest) (hsch : schemeOfCode s.modulation = some sch)
    (hlen : (beatLen b).toNat = bitsPerSymbol sch) (hsink : SinkTakes j s) :
    Performs (gensymSteps j) s { mixed j (mapped sch b rest s) with txK := s.txK + 1 } :=
  (performs_map_mixes hq hsch hlen hsink).append (.one rfl)

theorem sinkReply_of_getElem? {u : State} {r : SinkReply} (h : u.sinkReplies[j]? = some r) :
    (mixed j u).sinkReply = r := by
  rw [sinkReply_mixed, h, Option.getD_some]

/-! The answer to sample `j` that is not `ok`, under the hypotheses of the statement's last clauses. -/

variable (hready : Ready s) (hsch : schemeOfCode s.modulation = some sch) (hq : s.bgq = b :: rest)
  (hlen : (beatLen b).toNat = bitsPerSymbol sch) (hj : j < s.samplesPerSymbol.toNat) (hsink : SinkTakes j s)

include hready hsch hq hlen hj hsink

theorem gensym_sink_error (hreply : s.sinkReplies[j]? = some .error) :
    exec .gensym s = .next
      { faultedWith (mixed j (mapped sch b rest s)) .store 1 with sinkReplies := s.sinkReplies.drop (j + 1) } := by
  have herror := primStep_mix_error (sinkReply_of_getElem? (u := mapped sch b rest s) hreply)
  have hfaulted : (mixed j (mapped sch b rest s)).sinkReplied.faulted = false := hready.1
  rw [exec_gensym, runCommand_raises (accepts_of_ready hready rfl) (expand_gensym_split hj)
    (performs_map_mixes hq hsch hlen hsink) (.refl _) herror, raiseFault_of_not_faulted hfaulted, sinkReplied_mixed]
  rfl

theorem gensym_sink_never (hreply : s.sinkReplies[j]? = some .never) :
    exec .gensym s = .next { mixed j (mapped sch b rest s) with
      cur := ⟨some .gensym, List.replicate (s.samplesPerSymbol.toNat - j) .mix ++ [.txkinc]⟩ } := by
  have hnever := primStep_mix_never (sinkReply_of_getElem? (u := mapped sch b rest s) hreply)
  have htodo : List.replicate (s.samplesPerSymbol.toNat - j) Prim.mix =
      .mix :: List.replicate (s.samplesPerSymbol.toNat - j - 1) .mix := by
    rw [← List.replicate_succ, Nat.sub_add_cancel (Nat.sub_pos_of_lt hj)]
  rw [exec_gensym, runCommand_holds (accepts_of_ready hready rfl) (expand_gensym_split hj)
    (performs_map_mixes hq hsch hlen hsink) (.refl _) hnever, htodo]
  rfl

theorem gensym_sink_late (hreply : s.sinkReplies[j]? = some .pending) :
    exec .gensym s = exec .gensym { s with sinkReplies := s.sinkReplies.eraseIdx j } := by
  have hlate := sinkReply_of_getElem? (u := mapped sch b rest s) hreply
  have hsink' : SinkTakes j { s with sinkReplies := s.sinkReplies.eraseIdx j } := fun r hr =>
    hsink r (by rwa [List.take_eraseIdx_eq_take_of_le _ _ _ (Nat.le_refl j)] at hr)
  have hdrop : (s.sinkReplies.eraseIdx j).drop j = s.sinkReplies.drop (j + 1) := by
    obtain ⟨hlt, _⟩ := List.getElem?_eq_some_iff.mp hreply
    rw [List.eraseIdx_eq_take_drop_succ, List.drop_left' (List.length_take_of_le hlt.le)]
  have hsame : mixed j (mapped sch b rest { s with sinkReplies := s.sinkReplies.eraseIdx j }) =
      (mixed j (mapped sch b rest s)).sinkReplied := by
    rw [sinkReplied_mixed]
    simp only [mixed, mapped, hdrop]
  have hperforms := performs_map_mixes (s := { s with sinkReplies := s.sinkReplies.eraseIdx j }) hq hsch hlen hsink'
  rw [hsame] at hperforms
  rw [exec_gensym, exec_gensym]
  exact runCommand_late (accepts_of_ready hready rfl) (accepts_of_ready hready rfl) (expand_gensym_split hj)
    (expand_gensym_split (s := { s with sinkReplies := s.sinkReplies.eraseIdx j }) hj)
    (performs_map_mixes hq hsch hlen hsink) hlate hperforms

end Gensym

/-- Settles O32: `GENSYM` holds or raises at its `MAP`, completes, or comes to an answer of the sink that is not `ok`. -/
theorem gensymEmitsOneSymbol : Obligations.GensymEmitsOneSymbol := by
  intro s sch hready hsch SPS
  have ha : accepts .gensym s = true := accepts_of_ready hready rfl
  have hx : expand .gensym s = [] ++ (Prim.map :: (List.replicate SPS Prim.mix ++ [Prim.txkinc])) := rfl
  refine ⟨fun hq => ?_, fun b rest hq => ⟨fun hlen => ?_, fun hlen => ?_⟩⟩
  · rw [exec_gensym, runCommand_holds ha hx (.nil s) (.refl s) (primStep_map_empty hq)]
    rfl
  · rw [exec_gensym, runCommand_raises ha hx (.nil s) (.refl s) (primStep_map_wrongLength hq hsch hlen),
      raiseFault_of_not_faulted hready.1]
    rfl
  · intro emitted
    have hemitted : emitted = fun j => mixed j (mapped sch b rest s) := rfl
    rw [hemitted]
    refine ⟨fun hsink => ?_, ?_⟩
    · rw [exec_gensym,
        runCommand_performs ha (expand_ne_nil .gensym s (by decide)) (performs_gensym hq hsch hlen hsink)]
      rfl
    · intro j hj hsink
      refine ⟨?_, ?_, ?_⟩
      · exact gensym_sink_error hready hsch hq hlen hj hsink
      · exact gensym_sink_late hready hsch hq hlen hj hsink
      · exact gensym_sink_never hready hsch hq hlen hj hsink

/-! ## What a sequence of performed steps keeps -/

/-- The configuration, the fault code and the receive buffer. -/
def setting (s : State) : Count × F64 × F64 × Count × BitVec 2 × FaultCode × Memory :=
  (s.symbolCount, s.fc, s.fs, s.samplesPerSymbol, s.modulation, s.faultCode, s.rxbuf)

/-- `t` has the configuration, the fault code and the receive buffer of `s`. -/
def SameSetting (s t : State) : Prop := setting t = setting s

section SameSetting

variable {s t : State}

theorem sameSetting_iff :
    SameSetting s t ↔ t.symbolCount = s.symbolCount ∧ t.fc = s.fc ∧ t.fs = s.fs ∧
      t.samplesPerSymbol = s.samplesPerSymbol ∧ t.modulation = s.modulation ∧ t.faultCode = s.faultCode ∧
      t.rxbuf = s.rxbuf := by
  simp only [SameSetting, setting, Prod.mk.injEq]

theorem SameSetting.trans {u : State} (h : SameSetting s t) (g : SameSetting t u) : SameSetting s u := Eq.trans g h

theorem SameSetting.symbolCount (h : SameSetting s t) : t.symbolCount = s.symbolCount := congrArg (·.1) h

theorem SameSetting.fc (h : SameSetting s t) : t.fc = s.fc := congrArg (·.2.1) h

theorem SameSetting.fs (h : SameSetting s t) : t.fs = s.fs := congrArg (·.2.2.1) h

theorem SameSetting.samplesPerSymbol (h : SameSetting s t) : t.samplesPerSymbol = s.samplesPerSymbol :=
  congrArg (·.2.2.2.1) h

theorem SameSetting.modulation (h : SameSetting s t) : t.modulation = s.modulation := congrArg (·.2.2.2.2.1) h

theorem SameSetting.faultCode (h : SameSetting s t) : t.faultCode = s.faultCode := congrArg (·.2.2.2.2.2.1) h

theorem SameSetting.rxbuf (h : SameSetting s t) : t.rxbuf = s.rxbuf := congrArg (·.2.2.2.2.2.2) h

end SameSetting

theorem sameSetting_of_performs {l : List Prim} {s t : State} (h : Performs l s t) : SameSetting s t := by
  induction h with
  | nil s => exact Eq.refl (setting s)
  | cons hp _ ih =>
    obtain ⟨hn, hfc, hfs, hsps, hm, hcode, _, hrxbuf, _⟩ := primStep_done_frame hp
    exact SameSetting.trans (sameSetting_iff.mpr ⟨hn, hfc, hfs, hsps, hm, hcode, hrxbuf⟩) ih
  | late _ _ ih => exact ih

theorem locked_of_performs {l : List Prim} {s t : State} (h : Performs l s t) (hl : s.locked = true) :
    t.locked = true := by
  induction h with
  | nil => exact hl
  | cons hp _ ih => exact ih (primStep_done_locked hp hl)
  | late _ _ ih => exact ih hl

theorem faulted_congr {s t : State} (h : t.faultCode = s.faultCode) : t.faulted = s.faulted := by
  rw [State.faulted, State.faulted, h]

/-- A ready block is ready again once its steps are performed and it is idle. -/
theorem ready_of_performs {l : List Prim} {s t : State} (h : Performs l s t) (hready : Ready s) :
    Ready (t.withCur Cur.idle) := by
  obtain ⟨hf, _, hl⟩ := hready
  exact ⟨(faulted_congr (sameSetting_of_performs h).faultCode).trans hf, rfl, (locked_of_performs h hl :)⟩

theorem repeatSteps_add (m n : Nat) (l : List Prim) : repeatSteps (m + n) l = repeatSteps m l ++ repeatSteps n l := by
  rw [repeatSteps, List.replicate_add, List.flatten_append]
  rfl

theorem repeatSteps_one (l : List Prim) : repeatSteps 1 l = l := by simp [repeatSteps]

/-! ## The transmit side of a run (R173) -/

/-- The samples of the `k`-th symbol from a state on: group `k` of BGQ over the indices that follow those of the symbols
before it. -/
def symbolRun (sch : Scheme) (s : State) (k : Nat) : List Sample :=
  symbolSamples (beatLevels sch (s.bgq.getD k 0)).1 (beatLevels sch (s.bgq.getD k 0)).2
    (s.txN + BitVec.ofNat 64 (k * s.samplesPerSymbol.toNat)) s.samplesPerSymbol.toNat s.fc s.fs

/-- `t` is `s` after `n` symbols, as far as a later symbol and the receive side see it. -/
def AfterSymbols (sch : Scheme) (n : Nat) (s t : State) : Prop :=
  t.txout = s.txout ++ (List.range n).flatMap (symbolRun sch s) ∧
  t.txN = s.txN + BitVec.ofNat 64 (n * s.samplesPerSymbol.toNat) ∧
  t.bgq = s.bgq.drop n ∧
  t.sinkReplies = s.sinkReplies.drop (n * s.samplesPerSymbol.toNat) ∧
  t.bitout = s.bitout ∧
  t.runStart = s.runStart

/-- The sink goes on taking beats after the first `m`. -/
theorem sinkTakes_drop {m n : Nat} {s t : State} (h : SinkTakes (m + n) s)
    (ht : t.sinkReplies = s.sinkReplies.drop m) : SinkTakes n t := fun r hr => by
  rw [ht, List.take_drop] at hr
  exact h r (List.mem_of_mem_drop hr)

/-- One more symbol: `GENSYM` on the group at the head of what is left of BGQ. -/
theorem AfterSymbols.gensym {sch : Scheme} {n : Nat} {s t : State} (h : AfterSymbols sch n s t)
    (hset : SameSetting s t) :
    AfterSymbols sch (n + 1) s
      { mixed s.samplesPerSymbol.toNat (mapped sch (s.bgq.getD n 0) (s.bgq.drop (n + 1)) t) with
        txK := t.txK + 1 } := by
  obtain ⟨htxout, htxN, _, hreplies, hbitout, hstart⟩ := h
  refine ⟨?_, ?_, rfl, ?_, hbitout, hstart⟩
  · rw [List.range_succ, List.flatMap_append, List.flatMap_singleton, ← List.append_assoc, ← htxout, symbolRun,
      ← htxN, ← hset.fc, ← hset.fs]
    rfl
  · rw [Nat.succ_mul, BitVec.ofNat_add, ← BitVec.add_assoc, ← htxN]
    rfl
  · have hdrop : s.sinkReplies.drop ((n + 1) * s.samplesPerSymbol.toNat) =
        t.sinkReplies.drop s.samplesPerSymbol.toNat := by
      rw [hreplies, List.drop_drop, Nat.succ_mul]
    exact hdrop.symm

/-- The steps of `n` `GENSYM`s are performed, where `n` groups of the right length are queued and the sink takes the
samples. -/
theorem performs_symbols {sch : Scheme} {n : Nat} {s : State} (hsch : schemeOfCode s.modulation = some sch)
    (hn : n ≤ s.bgq.length) (hlen : ∀ b ∈ s.bgq.take n, (beatLen b).toNat = bitsPerSymbol sch)
    (hsink : SinkTakes (n * s.samplesPerSymbol.toNat) s) :
    ∃ t, Performs (repeatSteps n (gensymSteps s.samplesPerSymbol.toNat)) s t ∧ AfterSymbols sch n s t := by
  induction n with
  | zero => exact ⟨s, .nil s, by simp, by simp, rfl, by simp, rfl, rfl⟩
  | succ n ih =>
    have hhead : s.bgq.drop n = s.bgq.getD n 0 :: s.bgq.drop (n + 1) := by
      rw [List.drop_eq_getElem_cons hn, List.getD_eq_getElem _ _ hn]
    have hlen' : ∀ b ∈ s.bgq.take n, (beatLen b).toNat = bitsPerSymbol sch := fun b hb =>
      hlen b (List.mem_of_mem_take (i := n) (by rwa [List.take_take, Nat.min_eq_left (Nat.le_succ n)]))
    have hgroup : (beatLen (s.bgq.getD n 0)).toNat = bitsPerSymbol sch := by
      refine hlen _ (List.mem_of_getElem? (i := n) ?_)
      rw [List.getElem?_take_of_lt (Nat.lt_succ_self n), List.getD_eq_getElem _ _ hn, List.getElem?_eq_getElem hn]
    rw [Nat.succ_mul] at hsink
    obtain ⟨t, hperforms, hafter⟩ := ih (Nat.le_of_succ_le hn) hlen' (sinkTakes_of_le hsink (Nat.le_add_right _ _))
    have hset := sameSetting_of_performs hperforms
    have ⟨_, _, hbgq, hreplies, _⟩ := hafter
    have hlast := performs_gensym (hbgq.trans hhead) (hset.modulation ▸ hsch) hgroup (sinkTakes_drop hsink hreplies)
    refine ⟨_, ?_, hafter.gensym hset⟩
    rw [repeatSteps_add, repeatSteps_one]
    exact hperforms.append hlast

/-- The state that the `TXINIT` at the head of `GENRUN` leaves (R170). -/
def txInitialised (s : State) : State := { s with txN := 0, txK := 0, runStart := s.txout.length }

/-- `GENRUN` completes, under the hypotheses of R173. -/
theorem exec_genrun {s : State} {sch : Scheme} (hready : Ready s) (hsch : schemeOfCode s.modulation = some sch)
    (hn : s.symbolCount.toNat ≤ s.bgq.length)
    (hlen : ∀ b ∈ s.bgq.take s.symbolCount.toNat, (beatLen b).toNat = bitsPerSymbol sch)
    (hsink : SinkTakes (s.symbolCount.toNat * s.samplesPerSymbol.toNat) s) :
    ∃ t, exec .genrun s = .next (t.withCur Cur.idle) ∧ Performs (expand .genrun s) s t ∧
      AfterSymbols sch s.symbolCount.toNat (txInitialised s) t := by
  obtain ⟨t, hperforms, hafter⟩ := performs_symbols (s := txInitialised s) hsch hn hlen hsink
  have hall : Performs (expand .genrun s) s t := .cons rfl hperforms
  refine ⟨t, ?_, hall, hafter⟩
  rw [exec_eq_runCommand s (by decide),
    runCommand_performs (accepts_of_ready hready rfl) (expand_ne_nil .genrun s (by decide)) hall]

/-! ## The receive side of a run (R195, R230, R231) -/

/-- The sum over the first `j` samples of the window of symbol `k` (R193). -/
def partialSum (f : F64 → F64) (s : State) (k j : Nat) : F64 :=
  (List.range j).foldl
    (fun acc j =>
      let n := k * s.samplesPerSymbol.toNat + j
      match sampleAt s n with
      | some x => fadd acc (fmul x.amp (carrier f n s.fc s.fs))
      | none => acc)
    (fzero false)

theorem windowSum_eq_partialSum (f : F64 → F64) (s : State) (k : Nat) :
    windowSum f s k = partialSum f s k s.samplesPerSymbol.toNat := rfl

theorem partialSum_succ (f : F64 → F64) (s : State) (k j : Nat) :
    partialSum f s k (j + 1) =
      match sampleAt s (k * s.samplesPerSymbol.toNat + j) with
      | some x => fadd (partialSum f s k j) (fmul x.amp (carrier f (k * s.samplesPerSymbol.toNat + j) s.fc s.fs))
      | none => partialSum f s k j := by
  rw [partialSum, List.range_succ, List.foldl_append]
  rfl

theorem memRead_eq_sampleAt (s : State) (n : Word) : s.memRead n = sampleAt s n.toNat := by
  simp only [State.memRead, sampleAt, BitVec.lt_def]

/-- The state after `ACCLR` and the first `j` steps of the window of symbol `RX_K`. -/
def correlated (j : Nat) (s : State) : State :=
  { s with
    rxJ := BitVec.ofNat 32 j
    isum := partialSum Config.cos s s.rxK.toNat j
    qsum := partialSum Config.sin s s.rxK.toNat j }

theorem primStep_corr_done {s : State} (h : s.rxJ < s.samplesPerSymbol) :
    primStep .corr s =
      .done { s with isum := s.isumAfter s.rxIndex, qsum := s.qsumAfter s.rxIndex, rxJ := s.rxJ + 1 } :=
  if_neg (BitVec.not_le.mpr h)

theorem rxIndex_correlated {j : Nat} {s : State} (h : j < 2 ^ 32) :
    (correlated j s).rxIndex.toNat = s.rxK.toNat * s.samplesPerSymbol.toNat + j := by
  rw [rxIndex_toNat]
  simp only [correlated, BitVec.toNat_ofNat, Nat.mod_eq_of_lt h]

/-- One more sample of the window. -/
theorem performs_corr {j : Nat} {s : State} (h : j < s.samplesPerSymbol.toNat) :
    Performs [.corr] (correlated j s) (correlated (j + 1) s) := by
  have hj : j < 2 ^ 32 := h.trans s.samplesPerSymbol.isLt
  have hwindow : (correlated j s).rxJ < (correlated j s).samplesPerSymbol := by
    rwa [BitVec.lt_def, correlated, BitVec.toNat_ofNat, Nat.mod_eq_of_lt hj]
  have hread : (correlated j s).memRead (correlated j s).rxIndex =
      sampleAt s (s.rxK.toNat * s.samplesPerSymbol.toNat + j) := by
    rw [memRead_eq_sampleAt, rxIndex_correlated hj]
    rfl
  have hisum : (correlated j s).isumAfter (correlated j s).rxIndex = partialSum Config.cos s s.rxK.toNat (j + 1) := by
    rw [State.isumAfter, hread, rxIndex_correlated hj, partialSum_succ]
    rfl
  have hqsum : (correlated j s).qsumAfter (correlated j s).rxIndex = partialSum Config.sin s s.rxK.toNat (j + 1) := by
    rw [State.qsumAfter, hread, rxIndex_correlated hj, partialSum_succ]
    rfl
  have hstep := primStep_corr_done hwindow
  rw [hisum, hqsum] at hstep
  refine .one (hstep.trans ?_)
  simp only [correlated, BitVec.ofNat_add]
  rfl

theorem performs_corrs {j : Nat} {s : State} (h : j ≤ s.samplesPerSymbol.toNat) :
    Performs (.acclr :: List.replicate j .corr) s (correlated j s) := by
  induction j with
  | zero => exact .one rfl
  | succ j ih =>
    rw [List.replicate_succ', ← List.cons_append]
    exact (ih (Nat.le_of_succ_le h)).append (performs_corr h)

/-- The steps of `CORRWIN` are performed in every state (R195). -/
theorem performs_corrwin (s : State) :
    Performs (corrwinSteps s.samplesPerSymbol.toNat) s ((afterWindow s).withCur s.cur) := by
  have hlast : Performs [.avg] (correlated s.samplesPerSymbol.toNat s) ((afterWindow s).withCur s.cur) := by
    refine .one (congrArg StepAnswer.done ?_)
    simp only [correlated, afterWindow, windowAvg, windowSum_eq_partialSum, State.withCur, BitVec.ofNat_toNat,
      BitVec.setWidth_eq]
  exact (performs_corrs (Nat.le_refl _)).append hlast

/-- The state after `DEMSYM` decides the window of symbol `RX_K` (R230). -/
def demodulated (sch : Scheme) (s : State) : State :=
  { (afterWindow s).withCur s.cur with
    rxbits := beatOfGroup (windowGroup sch s s.rxK.toNat)
    bitout := s.bitout ++ windowGroup sch s s.rxK.toNat
    rxK := s.rxK + 1 }

theorem primStep_decide_done {s : State} {sch : Scheme} (hsch : schemeOfCode s.modulation = some sch)
    (h : nonFiniteMask sch s.iavg s.qavg = 0) :
    primStep .decideStep s = .done { s with
      rxbits := beatOfGroup (decideGroup sch s.iavg s.qavg), bitout := s.bitout ++ decideGroup sch s.iavg s.qavg } := by
  simp only [primStep, stepDecide, hsch, h, if_true]
  rfl

theorem primStep_decide_nonFinite {s : State} {sch : Scheme} (hsch : schemeOfCode s.modulation = some sch)
    (h : nonFiniteMask sch s.iavg s.qavg ≠ 0) :
    primStep .decideStep s = .raised s .nonfinite (BitVec.ofNat 64 (nonFiniteMask sch s.iavg s.qavg)) := by
  simp only [primStep, stepDecide, hsch, h, if_false]

theorem performs_demsym {s : State} {sch : Scheme} (hsch : schemeOfCode s.modulation = some sch)
    (h : WindowDecidable sch s s.rxK.toNat) :
    Performs (demsymSteps s.samplesPerSymbol.toNat) s (demodulated sch s) :=
  ((performs_corrwin s).append (.one (primStep_decide_done (s := (afterWindow s).withCur s.cur) hsch h))).append
    (.one rfl)

/-- What is seen in a window depends on the configuration and RXBUF alone (R198). -/
theorem windowAvg_congr {s t : State} (h : SameSetting s t) (f : F64 → F64) (k : Nat) :
    windowAvg f t k = windowAvg f s k := by
  have hsample : sampleAt t = sampleAt s := by
    funext n
    rw [sampleAt, sampleAt, State.rxAvail, State.rxAvail, h.rxbuf]
  rw [windowAvg, windowSum, hsample, h.samplesPerSymbol, h.fc, h.fs]
  rfl

theorem windowDecidable_congr {s t : State} (h : SameSetting s t) (sch : Scheme) (k : Nat) :
    WindowDecidable sch t k ↔ WindowDecidable sch s k := by
  simp only [WindowDecidable, windowAvg_congr h]

theorem windowGroup_congr {s t : State} (h : SameSetting s t) (sch : Scheme) :
    windowGroup sch t = windowGroup sch s := by
  funext k
  simp only [windowGroup, windowAvg_congr h]

/-- The steps of `n` `DEMSYM`s from symbol 0 on are performed, where the first `n` windows can be decided. -/
theorem performs_windows {sch : Scheme} {n : Nat} {s : State} (hsch : schemeOfCode s.modulation = some sch)
    (hn : n < 2 ^ 32) (hk : s.rxK = 0) (hdec : ∀ k, k < n → WindowDecidable sch s k) :
    ∃ t, Performs (repeatSteps n (demsymSteps s.samplesPerSymbol.toNat)) s t ∧ t.rxK = BitVec.ofNat 32 n ∧
      t.bitout = s.bitout ++ (List.range n).flatMap (windowGroup sch s) := by
  induction n with
  | zero => exact ⟨s, .nil s, hk, by simp⟩
  | succ n ih =>
    obtain ⟨t, hperforms, htk, hbits⟩ := ih (Nat.lt_of_succ_lt hn) fun k hkn => hdec k (Nat.lt_succ_of_lt hkn)
    have hset := sameSetting_of_performs hperforms
    have hkn : t.rxK.toNat = n := by rw [htk, BitVec.toNat_ofNat, Nat.mod_eq_of_lt (Nat.lt_of_succ_lt hn)]
    have hlast : WindowDecidable sch t t.rxK.toNat := by
      rw [hkn, windowDecidable_congr hset]
      exact hdec n (Nat.lt_succ_self n)
    have hdemsym := performs_demsym (hset.modulation ▸ hsch) hlast
    rw [hset.samplesPerSymbol] at hdemsym
    refine ⟨demodulated sch t, ?_, ?_, ?_⟩
    · rw [repeatSteps_add, repeatSteps_one]
      exact hperforms.append hdemsym
    · rw [BitVec.ofNat_add, ← htk]
      rfl
    · rw [List.range_succ, List.flatMap_append, List.flatMap_singleton, ← List.append_assoc, ← hbits,
        ← windowGroup_congr hset, ← hkn]
      rfl

/-- The state that the `RXINIT` at the head of `DEMRUN` leaves (R190). -/
def rxInitialised (s : State) : State :=
  { s with rxK := 0, rxJ := 0, isum := fzero false, qsum := fzero false }

theorem sameSetting_rxInitialised (s : State) : SameSetting s (rxInitialised s) := Eq.refl (setting s)

/-- The steps of `DEMRUN` up to the `DECIDE` of window `k`, and from there on. -/
theorem expand_demrun_split {k : Nat} {s : State} (h : k < s.symbolCount.toNat) :
    ∃ rest, expand .demrun s =
      (Prim.rxinit :: (repeatSteps k (demsymSteps s.samplesPerSymbol.toNat) ++
        corrwinSteps s.samplesPerSymbol.toNat)) ++ Prim.decideStep :: rest := by
  obtain ⟨m, hm⟩ := Nat.exists_eq_add_of_lt h
  refine ⟨Prim.rxkinc :: repeatSteps m (demsymSteps s.samplesPerSymbol.toNat), ?_⟩
  rw [expand, hm, Nat.add_right_comm, Nat.add_assoc, repeatSteps_add, Nat.add_comm, repeatSteps_succ]
  simp [demsymSteps]

section Demrun

variable {s : State} {sch : Scheme} (hready : Ready s) (hsch : schemeOfCode s.modulation = some sch)

include hready hsch

/-- `DEMRUN` completes where every window can be decided (R231). -/
theorem exec_demrun_decidable (hdec : ∀ k, k < s.symbolCount.toNat → WindowDecidable sch s k) :
    ∃ u, exec .demrun s = .next u ∧ u.busy = false ∧ u.faulted = false ∧
      u.bitout = s.bitout ++ (List.range s.symbolCount.toNat).flatMap (windowGroup sch s) := by
  have hset := sameSetting_rxInitialised s
  obtain ⟨u, hperforms, _, hbits⟩ := performs_windows (s := rxInitialised s) hsch s.symbolCount.isLt rfl
    fun k hk => (windowDecidable_congr hset sch k).mpr (hdec k hk)
  have hall : Performs (expand .demrun s) s u := .cons rfl hperforms
  refine ⟨u.withCur Cur.idle, ?_, rfl, (ready_of_performs hall hready).1, ?_⟩
  · rw [exec_eq_runCommand s (by decide),
      runCommand_performs (accepts_of_ready hready rfl) (expand_ne_nil .demrun s (by decide)) hall]
  · rw [← windowGroup_congr hset]
    exact hbits

/-- `DEMRUN` ends faulted where some window cannot be decided: at the first such window (R244). -/
theorem exec_demrun_undecidable (hundec : ∃ k, k < s.symbolCount.toNat ∧ ¬ WindowDecidable sch s k) :
    ∃ u, exec .demrun s = .next u ∧ u.busy = false ∧ u.faulted = true := by
  classical
  obtain ⟨hk, hfails⟩ := Nat.find_spec hundec
  have hfirst : ∀ j, j < Nat.find hundec → WindowDecidable sch s j := fun j hj =>
    not_not.mp fun hj' => Nat.find_min hundec hj ⟨hj.trans hk, hj'⟩
  generalize Nat.find hundec = k at hk hfails hfirst
  have hset := sameSetting_rxInitialised s
  have hk32 : k < 2 ^ 32 := hk.trans s.symbolCount.isLt
  obtain ⟨t, hperforms, htk, _⟩ := performs_windows (s := rxInitialised s) hsch hk32 rfl
    fun j hj => (windowDecidable_congr hset sch j).mpr (hfirst j hj)
  have hset' := hset.trans (sameSetting_of_performs hperforms)
  have hcorrwin := performs_corrwin t
  rw [hset'.samplesPerSymbol] at hcorrwin
  have htkn : t.rxK.toNat = k := by rw [htk, BitVec.toNat_ofNat, Nat.mod_eq_of_lt hk32]
  have hmask : ¬ WindowDecidable sch t t.rxK.toNat := by rwa [htkn, windowDecidable_congr hset']
  have hraise := primStep_decide_nonFinite (s := (afterWindow t).withCur t.cur) (hset'.modulation ▸ hsch) hmask
  obtain ⟨rest, hx⟩ := expand_demrun_split hk
  have hexec := runCommand_raises (accepts_of_ready hready rfl) hx (.cons rfl (hperforms.append hcorrwin))
    (.refl _) hraise
  rw [← exec_eq_runCommand s (by decide)] at hexec
  exact ⟨_, hexec, rfl, raiseFault_faulted _ .nonfinite _ (by decide)⟩

end Demrun

/-! ## One whole run (R234, R235) -/

/-- The amplitude of sample `n` rendered from group `k` alone (R171). -/
def renderedAmp (sch : Scheme) (s : State) (k n : Nat) : F64 :=
  fadd (fmul (beatLevels sch (s.bgq.getD k 0)).1 (carrier Config.cos n s.fc s.fs))
    (fmul (beatLevels sch (s.bgq.getD k 0)).2 (carrier Config.sin n s.fc s.fs))

/-- The average of window `k` rendered from group `k` alone. -/
def renderedAvg (f : F64 → F64) (sch : Scheme) (s : State) (k : Nat) : F64 :=
  let SPS := s.samplesPerSymbol.toNat
  fdiv ((List.range SPS).foldl
    (fun acc j => fadd acc (fmul (renderedAmp sch s k (k * SPS + j)) (carrier f (k * SPS + j) s.fc s.fs)))
    (fzero false)) (u2f SPS)

/-- The samples of a whole run, by index: index `n` belongs to symbol `n / SPS`. -/
def renderedRun (sch : Scheme) (s : State) : List Sample :=
  (List.range (s.symbolCount.toNat * s.samplesPerSymbol.toNat)).map fun n =>
    ⟨ncoTime n s.fs, renderedAmp sch s (n / s.samplesPerSymbol.toNat) n⟩

theorem index_div {j p : Nat} (k : Nat) (hj : j < p) : (k * p + j) / p = k := by
  rw [Nat.mul_comm, Nat.mul_add_div (Nat.zero_lt_of_lt hj), Nat.div_eq_of_lt hj, Nat.add_zero]

/-- Blocks of `p` indices one after another are all the indices. -/
theorem flatMap_range_blocks {α : Type} (f : Nat → Nat → α) (m p : Nat) :
    (List.range m).flatMap (fun k => (List.range p).map fun j => f k (k * p + j)) =
      (List.range (m * p)).map fun n => f (n / p) n := by
  induction m with
  | zero => simp
  | succ m ih =>
    have hblock : ∀ j ∈ List.range p, f m (m * p + j) = f ((m * p + j) / p) (m * p + j) := fun j hj => by
      rw [index_div m (List.mem_range.mp hj)]
    rw [List.range_succ, List.flatMap_append, List.flatMap_singleton, ih, Nat.succ_mul, List.range_add, List.map_append,
      List.map_map, List.map_congr_left hblock]
    rfl

theorem index_lt_run {k j m p : Nat} (hk : k < m) (hj : j < p) : k * p + j < m * p :=
  calc k * p + j < (k + 1) * p := by rw [Nat.succ_mul]; exact Nat.add_lt_add_left hj _
    _ ≤ m * p := Nat.mul_le_mul_right _ hk

/-- Symbol `k` of a run from index 0: no index wraps. -/
theorem symbolRun_txInitialised {sch : Scheme} {s : State} {k : Nat} (hk : k < s.symbolCount.toNat) :
    symbolRun sch (txInitialised s) k = (List.range s.samplesPerSymbol.toNat).map fun j =>
      ⟨ncoTime (k * s.samplesPerSymbol.toNat + j) s.fs,
        renderedAmp sch s k (k * s.samplesPerSymbol.toNat + j)⟩ := by
  refine List.map_congr_left fun j hj => ?_
  have hlt : k * s.samplesPerSymbol.toNat + j < 2 ^ 64 :=
    (index_lt_run hk (List.mem_range.mp hj)).trans_le (mul_counts_le _ _)
  have hindex : ((txInitialised s).txN + BitVec.ofNat 64 (k * s.samplesPerSymbol.toNat) + BitVec.ofNat 64 j).toNat =
      k * s.samplesPerSymbol.toNat + j := by
    rw [show (txInitialised s).txN = 0#64 from rfl, BitVec.zero_add, ← BitVec.ofNat_add, BitVec.toNat_ofNat,
      Nat.mod_eq_of_lt hlt]
  dsimp only
  rw [show (txInitialised s).samplesPerSymbol = s.samplesPerSymbol from rfl, hindex]
  rfl

theorem flatMap_symbolRun (sch : Scheme) (s : State) :
    (List.range s.symbolCount.toNat).flatMap (symbolRun sch (txInitialised s)) = renderedRun sch s := by
  rw [renderedRun, ← flatMap_range_blocks (fun k n => (⟨ncoTime n s.fs, renderedAmp sch s k n⟩ : Sample))]
  exact List.flatMap_congr fun k hk => symbolRun_txInitialised (List.mem_range.mp hk)

theorem length_renderedRun (sch : Scheme) (s : State) :
    (renderedRun sch s).length = s.symbolCount.toNat * s.samplesPerSymbol.toNat := by
  simp [renderedRun]

/-- Through `STORE_IDEAL` the samples come back as they are (R86). -/
theorem storeIdeal_samples (l : List Sample) : ((storeIdeal l).map fun x => (⟨x.time, x.amp⟩ : Sample)) = l := by
  rw [storeIdeal, List.map_map]
  exact List.map_id l

theorem mul_counts_lt (a b : Count) : a.toNat * b.toNat < 2 ^ 64 :=
  calc a.toNat * b.toNat < 2 ^ 32 * 2 ^ 32 := Nat.mul_lt_mul'' a.isLt b.isLt
    _ = 2 ^ 64 := by decide

/-- The state with the whole run in RXBUF. -/
def loaded (sch : Scheme) (s : State) : State := { s with rxbuf := renderedRun sch s }

section Loaded

variable {sch : Scheme} {s r : State} (hset : SameSetting (loaded sch s) r) {k : Nat}
  (hk : k < s.symbolCount.toNat)

include hset hk

/-- The sample of window `k` at position `j`, in a state loaded with the whole run. -/
theorem sampleAt_loaded {j : Nat} (hj : j < s.samplesPerSymbol.toNat) :
    sampleAt r (k * s.samplesPerSymbol.toNat + j) =
      some ⟨ncoTime (k * s.samplesPerSymbol.toNat + j) s.fs,
        renderedAmp sch s k (k * s.samplesPerSymbol.toNat + j)⟩ := by
  have hlt := index_lt_run hk hj
  have hbuf : r.rxbuf = renderedRun sch s := hset.rxbuf
  have havail : k * s.samplesPerSymbol.toNat + j < r.rxAvail.toNat := by
    have hfits : (renderedRun sch s).length < 2 ^ 64 := by
      rw [length_renderedRun]
      exact mul_counts_lt _ _
    rw [State.rxAvail, hbuf, BitVec.toNat_ofNat, Nat.mod_eq_of_lt hfits, length_renderedRun]
    exact hlt
  rw [sampleAt, if_pos havail, hbuf, renderedRun, List.getElem?_map, List.getElem?_range hlt, Option.map_some,
    index_div k hj]

theorem windowAvg_loaded (f : F64 → F64) : windowAvg f r k = renderedAvg f sch s k := by
  have hsps : r.samplesPerSymbol = s.samplesPerSymbol := hset.samplesPerSymbol
  have hfc : r.fc = s.fc := hset.fc
  have hfs : r.fs = s.fs := hset.fs
  rw [windowAvg, windowSum, renderedAvg, hsps, hfc, hfs]
  refine congrArg (fdiv · _) (List.foldl_ext _ _ _ fun acc j hj => ?_)
  dsimp only
  rw [sampleAt_loaded hset hk (List.mem_range.mp hj)]

/-- Whether window `k` can be decided, and what is decided, is said by the averages rendered from group `k`. -/
theorem windowDecidable_loaded :
    WindowDecidable sch r k ↔
      nonFiniteMask sch (renderedAvg Config.cos sch s k) (renderedAvg Config.sin sch s k) = 0 := by
  rw [WindowDecidable, windowAvg_loaded hset hk, windowAvg_loaded hset hk]

theorem windowGroup_loaded :
    windowGroup sch r k = decideGroup sch (renderedAvg Config.cos sch s k) (renderedAvg Config.sin sch s k) := by
  rw [windowGroup, windowAvg_loaded hset hk, windowAvg_loaded hset hk]

end Loaded

/-- `DEMRUN` on a buffer loaded with the whole run: it ends unfaulted exactly where every window can be decided, and
then with the bits decided window by window. -/
theorem exec_demrun_loaded {sch : Scheme} {s r : State} (hset : SameSetting (loaded sch s) r)
    (hready : Ready r) (hsch : schemeOfCode s.modulation = some sch) :
    ∃ u, exec .demrun r = .next u ∧ u.busy = false ∧
      (u.faulted = false ↔ ∀ k, k < s.symbolCount.toNat →
        nonFiniteMask sch (renderedAvg Config.cos sch s k) (renderedAvg Config.sin sch s k) = 0) ∧
      (u.faulted = false → u.bitout = r.bitout ++ (List.range s.symbolCount.toNat).flatMap fun k =>
        decideGroup sch (renderedAvg Config.cos sch s k) (renderedAvg Config.sin sch s k)) := by
  have hcount : r.symbolCount = s.symbolCount := hset.symbolCount
  have hsch' : schemeOfCode r.modulation = some sch := (congrArg schemeOfCode hset.modulation).trans hsch
  by_cases hdec : ∀ k, k < s.symbolCount.toNat → WindowDecidable sch r k
  · obtain ⟨u, hexec, hbusy, hfaulted, hbits⟩ := exec_demrun_decidable hready hsch' (hcount ▸ hdec)
    rw [hcount] at hbits
    have hall := fun k hk => (windowDecidable_loaded hset hk).mp (hdec k hk)
    refine ⟨u, hexec, hbusy, iff_of_true hfaulted hall, fun _ => ?_⟩
    rw [hbits]
    exact congrArg _ (List.flatMap_congr fun k hk => windowGroup_loaded hset (List.mem_range.mp hk))
  · push Not at hdec
    obtain ⟨k, hk, hfails⟩ := hdec
    obtain ⟨u, hexec, hbusy, hfaulted⟩ := exec_demrun_undecidable hready hsch' ⟨k, hcount ▸ hk, hfails⟩
    have hnot : ¬ u.faulted = false := by rw [hfaulted]; decide
    exact ⟨u, hexec, hbusy, iff_of_false hnot fun h => hfails ((windowDecidable_loaded hset hk).mpr (h k hk)),
      fun h => absurd h hnot⟩

/-- Settles O59: the run emits `renderedRun`, the store brings it back, and `DEMRUN` decides each window of it on what
was rendered from that window's group. -/
theorem wholeRunRecoversByWindow : Obligations.WholeRunRecoversByWindow := by
  intro s sch hready hsch _ N SPS levels amp avg hn hlen hsink
  have havg : avg = fun f k => renderedAvg f sch s k := rfl
  obtain ⟨t, hexec, hperforms, hafter⟩ := exec_genrun hready hsch hn hlen hsink
  obtain ⟨htxout, _, _, _, hbitout, hstart⟩ := hafter
  have hset := sameSetting_of_performs hperforms
  have hlast : (t.withCur Cur.idle).lastRun = renderedRun sch s := by
    change t.txout.drop t.runStart = renderedRun sch s
    rw [htxout, hstart, flatMap_symbolRun]
    exact List.drop_left
  have hloaded : SameSetting (loaded sch s) { t.withCur Cur.idle with rxbuf := renderedRun sch s } :=
    sameSetting_iff.mpr
      ⟨hset.symbolCount, hset.fc, hset.fs, hset.samplesPerSymbol, hset.modulation, hset.faultCode, rfl⟩
  have hready' : Ready { t.withCur Cur.idle with rxbuf := renderedRun sch s } :=
    (ready_of_performs hperforms hready :)
  obtain ⟨u, hdemrun, hbusy, hfaulted, hbits⟩ := exec_demrun_loaded hloaded hready' hsch
  have hbits' : t.bitout = s.bitout := hbitout
  refine ⟨t.withCur Cur.idle, u, hexec, ?_, hbusy, ?_, fun hu => ?_⟩
  · rw [storeIdeal_samples, hlast, hdemrun]
  · rw [havg]; exact hfaulted
  · rw [havg, hbits hu, ← hbits']; rfl

end Sys2Proof.Proofs
end

section
/-! PROOFS of the family 30_encoding.md: the opcode map and the command word (O3, O4), the bit-group beat (O6). -/

namespace Sys2Proof.Proofs

open Sys2Proof.Machine Sys2Proof.Claims

/-! ## The opcode map and the command word (R101 to R103) -/

theorem decodeOpcode_opcode (i : Instr) : decodeOpcode i.opcode = some i := by cases i <;> rfl

/-- R102: an opcode that the map reads as a command is that command's opcode, so no two opcodes share a command. -/
theorem decodeOpcode_eq_some_iff (op : BitVec 8) (i : Instr) : decodeOpcode op = some i ↔ op = i.opcode := by
  constructor
  · intro h
    unfold decodeOpcode at h
    split at h
    case h_17 => cases h
    all_goals
      obtain rfl := Option.some.inj h
      exact BitVec.eq_of_toNat_eq ‹op.toNat = _›
  · rintro rfl
    exact decodeOpcode_opcode i

/-- What a word that decodes to a command looks like (R101): the upper bits are clear and the map reads the low byte. -/
theorem decode_eq_ok_iff (v : Word) (i : Instr) :
    decode v = .ok i ↔ zeroFieldClear v = true ∧ decodeOpcode (v.extractLsb' 0 8) = some i := by
  unfold decode
  by_cases hzero : zeroFieldClear v = true
  · cases hop : decodeOpcode (v.extractLsb' 0 8) <;> simp [hzero]
  · simp [hzero]

/-- R101: a word whose upper bits are clear holds nothing but its low byte. -/
theorem eq_setWidth_of_zeroFieldClear {v : Word} (h : zeroFieldClear v = true) :
    v = (v.extractLsb' 0 8).setWidth 64 := by
  have hupper : (v.extractLsb' 8 56).toNat = 0 := congrArg BitVec.toNat (eq_of_beq h)
  apply BitVec.eq_of_toNat_eq
  rw [BitVec.extractLsb'_toNat, Nat.shiftRight_eq_div_pow] at hupper
  rw [BitVec.toNat_setWidth, BitVec.extractLsb'_toNat, Nat.shiftRight_eq_div_pow]
  have hlt := v.isLt
  omega

/-- Settles O4: a word that decodes has clear upper bits and its command's opcode below them, which is what `encode`
writes; the other direction is `decode_encode`. -/
theorem decodeIsInverseOfEncode : Obligations.DecodeIsInverseOfEncode := by
  intro v i _
  constructor
  · intro h
    obtain ⟨hzero, hop⟩ := (decode_eq_ok_iff v i).mp h
    rw [eq_setWidth_of_zeroFieldClear hzero, (decodeOpcode_eq_some_iff _ i).mp hop, encode]
  · rintro rfl
    exact decode_encode i

/-- Settles O3: the seven accepted words are those that `encode` writes; `0x11` has clear upper bits and no row in the
map, `0x100000010` a 1 above the opcode. -/
theorem listedWordsDecode : Obligations.ListedWordsDecode :=
  ⟨decode_encode .nop, decode_encode .sreset, decode_encode .map, decode_encode .genrun, decode_encode .corr,
    decode_encode .decideCmd, decode_encode .demrun, rfl, rfl⟩

/-! ## The bit-group beat (R104) -/

/-- Of `n` bits shifted in one after another, bit `k` of the result is the one shifted in `k` before the last. -/
theorem testBit_foldl_bits (f : Nat → Bool) {n k : Nat} (hk : k < n) :
    ((List.range n).foldl (fun acc m => acc * 2 + (f m).toNat) 0).testBit k = f (n - 1 - k) := by
  induction n generalizing k with
  | zero => omega
  | succ n ih =>
    rw [List.range_succ, List.foldl_append, List.foldl_cons, List.foldl_nil]
    generalize (List.range n).foldl (fun acc m => acc * 2 + (f m).toNat) 0 = acc at ih
    have hbit := Bool.toNat_lt (f n)
    cases k with
    | zero =>
      rw [Nat.testBit_zero, Nat.mul_add_mod_self_right, Nat.mod_eq_of_lt hbit, Nat.add_sub_cancel, Nat.sub_zero]
      cases f n <;> rfl
    | succ k =>
      have hhalf : (acc * 2 + (f n).toNat) / 2 = acc := by omega
      rw [Nat.testBit_add_one, hhalf, ih (by omega)]
      exact congrArg f (by omega)

/-- Below the length field stands the group's field of six bits. -/
theorem getLsbD_beatOfGroup (g : BitGroup) {k : Nat} (hk : k < 6) :
    (beatOfGroup g).getLsbD k = g.getD (5 - k) false := by
  have hbits := foldl_bits_lt (fun m => g.getD m false) (List.range 6) 0
  rw [List.length_range] at hbits
  rw [beatOfGroup, BitVec.getLsbD_ofNat, Nat.mul_comm, show (64 : Nat) = 2 ^ 6 from rfl,
    Nat.testBit_two_pow_mul_add _ hbits, if_pos hk, testBit_foldl_bits _ hk, decide_eq_true (by omega), Bool.true_and]

/-- Settles O6: the length field is `beatLen_beatOfGroup`, the bit field is `getLsbD_beatOfGroup` at `5 - m`. -/
theorem beatLayout : Obligations.BeatLayout := by
  intro g hg
  constructor
  · apply BitVec.eq_of_toNat_eq
    rw [BitVec.toNat_ofNat, Nat.mod_eq_of_lt (by omega)]
    exact beatLen_beatOfGroup hg
  · intro m hm
    rw [getLsbD_beatOfGroup g (by omega), Nat.sub_sub_self (by omega)]

end Sys2Proof.Proofs
end

section
/-! PROOFS of the family 40_control.md. The acceptance of a command first, line by line of R130 (O11, O12); then the
block's action (O16) and the three control commands (O17, O18, O19); last, a run and its parts (O49). -/

namespace Sys2Proof.Proofs

open Sys2Proof.Machine Sys2Proof.Claims

/-! ## The thirteen datapath commands (R102) -/

/-- The command's opcode is one of the thirteen of the datapath. -/
abbrev IsDatapath (i : Instr) : Prop := (encode i).toNat ∈ datapathOpcodes

theorem isDatapath_iff (i : Instr) : IsDatapath i ↔ i ≠ .nop ∧ i ≠ .configure ∧ i ≠ .sreset := by
  unfold IsDatapath
  cases i <;> decide

theorem IsDatapath.ne_sreset {i : Instr} (h : IsDatapath i) : i ≠ .sreset := ((isDatapath_iff i).mp h).2.2

/-- A datapath command is let in exactly while locked (R130 line 5). -/
theorem IsDatapath.lockAdmits_eq {i : Instr} (h : IsDatapath i) (s : State) : lockAdmits i s = s.locked := by
  obtain ⟨hnop, hconfigure, hsreset⟩ := (isDatapath_iff i).mp h
  cases i
  case nop => exact absurd rfl hnop
  case configure => exact absurd rfl hconfigure
  case sreset => exact absurd rfl hsreset
  all_goals rfl

theorem eq_of_encode_eq {i j : Instr} (h : encode i = encode j) : i = j :=
  Except.ok.inj ((decode_encode i).symm.trans (h ▸ decode_encode j))

/-- The lock turns away `CONFIGURE` while locked and a datapath command while unlocked (R130 line 5). -/
theorem lockAdmits_eq_false_iff {i : Instr} (hi : i ≠ .sreset) (s : State) :
    lockAdmits i s = false ↔ (i = .configure ∧ s.locked = true) ∨ (IsDatapath i ∧ s.locked = false) := by
  by_cases hdatapath : IsDatapath i
  · have hne : i ≠ .configure := ((isDatapath_iff i).mp hdatapath).2.1
    simp [hdatapath.lockAdmits_eq, hdatapath, hne]
  · by_cases hconfigure : i = .configure
    · subst hconfigure
      simp [lockAdmits, hdatapath]
    · have hnop : i = .nop := by
        by_contra hnop
        exact hdatapath ((isDatapath_iff i).mpr ⟨hnop, hconfigure, hi⟩)
      subst hnop
      simp [lockAdmits, hdatapath]

/-! ## Acceptance (R130) -/

theorem turnedAway_of_faulted {s : State} (h : s.faulted = true) (i : Instr) : s.turnedAway i = s := if_pos h

theorem turnedAway_of_not_faulted {s : State} (h : s.faulted = false) (i : Instr) :
    s.turnedAway i = faultedWith s .sequence (encode i) := by
  rw [State.turnedAway, if_neg (by simp [h]), raiseFault_of_not_faulted h]

theorem accepts_of_faulted {s : State} (h : s.faulted = true) (i : Instr) : accepts i s = false := by
  simp [accepts, h]

theorem accepts_of_busy {s : State} (h : s.busy = true) (i : Instr) : accepts i s = false := by
  simp [accepts, h]

theorem accepts_of_lock {i : Instr} {s : State} (h : lockAdmits i s = false) : accepts i s = false := by
  simp [accepts, h]

theorem issue_eq {i : Instr} (hi : i ≠ .sreset) (s : State) :
    issue i s = if accepts i s then s.accepted i else s.turnedAway i := by
  cases i
  case sreset => exact absurd rfl hi
  all_goals rfl

theorem writeCmd_encode (i : Instr) (s : State) : writeCmd (encode i) s = issue i s := by
  rw [writeCmd, decode_encode]

/-- The lines of R130 for the write of a command's word, `SRESET` apart: lines 2, 3, 5 and 6. -/
theorem issue_lines {i : Instr} (hi : i ≠ .sreset) (s : State) :
    issue i s =
      if s.faulted then s
      else if s.busy then faultedWith s .sequence (encode i)
      else if i = .configure ∧ s.locked = true then faultedWith s .sequence (encode i)
      else if IsDatapath i ∧ s.locked = false then faultedWith s .sequence (encode i)
      else s.accepted i := by
  rw [issue_eq hi]
  by_cases hfaulted : s.faulted = true
  · rw [accepts_of_faulted hfaulted, if_pos hfaulted]
    exact turnedAway_of_faulted hfaulted i
  rw [if_neg hfaulted, turnedAway_of_not_faulted (Bool.eq_false_iff.mpr hfaulted)]
  by_cases hbusy : s.busy = true
  · rw [accepts_of_busy hbusy, if_pos hbusy]
    rfl
  rw [if_neg hbusy]
  have hlock := lockAdmits_eq_false_iff hi s
  cases hadmits : lockAdmits i s with
  | false =>
    rw [accepts_of_lock hadmits, if_neg Bool.false_ne_true]
    rcases hlock.mp hadmits with hconfigure | hdatapath
    · rw [if_pos hconfigure]
    · rw [if_pos hdatapath, ite_self]
  | true =>
    have haccepts : accepts i s = true :=
      (accepts_iff i s).mpr ⟨Bool.eq_false_iff.mpr hfaulted, Bool.eq_false_iff.mpr hbusy, hadmits⟩
    obtain ⟨hconfigure, hdatapath⟩ := not_or.mp (mt hlock.mpr (by rw [hadmits]; decide))
    rw [haccepts, if_pos rfl, if_neg hconfigure, if_neg hdatapath]

/-- The lines of R130 for the write of a word that is no command: lines 2 to 4. -/
theorem illegalWord_lines (v : Word) (s : State) :
    s.illegalWord v =
      if s.faulted then s
      else if s.busy then faultedWith s .sequence v
      else faultedWith s .illegalCmd v := by
  unfold State.illegalWord
  cases hfaulted : s.faulted with
  | true => rfl
  | false => rw [raiseFault_of_not_faulted hfaulted, raiseFault_of_not_faulted hfaulted]

/-- The commands but `SRESET`, in the order of their opcodes (R102). -/
def otherCommands : List Instr :=
  [.nop, .configure, .map, .txinit, .mix, .gensym, .genrun, .rxinit, .acclr, .corr, .avg, .corrwin, .decideCmd, .demsym,
    .demrun]

theorem map_encode_otherCommands :
    otherCommands.map (fun i => (encode i).toNat) = [0x00, 0x01] ++ datapathOpcodes := by decide

theorem mem_otherCommands {i : Instr} (hi : i ≠ .sreset) : i ∈ otherCommands := by
  cases i
  case sreset => exact absurd rfl hi
  all_goals decide

/-- Line 4 of R130 lets pass exactly the words of these commands. -/
theorem mem_opcodes_iff (v : Word) : v.toNat ∈ [0x00, 0x01] ++ datapathOpcodes ↔ ∃ i ∈ otherCommands, encode i = v := by
  rw [← map_encode_otherCommands, List.mem_map]
  simp only [BitVec.toNat_inj]

/-- A write of the whole word at offset 0 is a write of `CMD` (R72). -/
theorem hostWrite_cmd (v : Word) (s : State) : hostWrite 64 0 v s = writeCmd v s := rfl

/-- Settles O11: a word that is a command goes through `issue_lines`, any other through `illegalWord_lines`. -/
theorem commandAcceptanceOrder : Obligations.CommandAcceptanceOrder := by
  intro v s₀ ts as ht ha s
  rw [step_hostWrite ht ha, hostWrite_cmd]
  congr 1
  cases hdecode : decode v with
  | ok i =>
    obtain rfl : v = encode i := (decodeIsInverseOfEncode v i (by cases i <;> rfl)).mp hdecode
    rw [writeCmd_encode]
    by_cases hi : i = .sreset
    · subst hi
      rfl
    · have hsreset : encode i ≠ 0x02 := fun h => hi (eq_of_encode_eq (j := .sreset) h)
      have hconfigure : encode i = 0x01 ↔ i = .configure :=
        ⟨fun h => eq_of_encode_eq (j := .configure) h, fun h => h ▸ rfl⟩
      have hmem : (encode i).toNat ∈ [0x00, 0x01] ++ datapathOpcodes :=
        (mem_opcodes_iff _).mpr ⟨i, mem_otherCommands hi, rfl⟩
      rw [issue_lines hi, if_neg hsreset, if_neg (not_not_intro hmem)]
      simp only [hconfigure]
      rfl
  | error e =>
    have hnone : ∀ i, encode i ≠ v := by
      rintro i rfl
      cases (decode_encode i).symm.trans hdecode
    have hsreset : v ≠ 0x02 := (hnone .sreset).symm
    have hmem : ¬ v.toNat ∈ [0x00, 0x01] ++ datapathOpcodes := fun h => by
      obtain ⟨i, _, hi⟩ := (mem_opcodes_iff v).mp h
      exact hnone i hi
    rw [if_neg hsreset, if_pos hmem, writeCmd, hdecode]
    exact illegalWord_lines v s

/-- A command that is not accepted is no more than its turning away. -/
theorem exec_turnedAway {i : Instr} {s : State} (hi : i ≠ .sreset) (h : accepts i s = false) :
    exec i s = .next (s.turnedAway i) := by
  rw [exec_eq_runCommand s hi, runCommand_turnedAway h]

theorem exec_of_faulted {i : Instr} {s : State} (hi : i ≠ .sreset) (h : s.faulted = true) : exec i s = .next s := by
  rw [exec_turnedAway hi (accepts_of_faulted h i), turnedAway_of_faulted h]

theorem exec_of_lock {i : Instr} {s : State} (hi : i ≠ .sreset) (hf : s.faulted = false)
    (h : lockAdmits i s = false) : exec i s = .next (faultedWith s .sequence (encode i)) := by
  rw [exec_turnedAway hi (accepts_of_lock h), turnedAway_of_not_faulted hf]

/-- Settles O12, by the reason for which the command is turned away. -/
theorem commandTurnedAway : Obligations.CommandTurnedAway := by
  intro i s hi
  refine ⟨exec_of_faulted hi, fun hf hb => ?_, fun hf _ hconfigure hl => ?_, fun hf _ hnop hconfigure hl => ?_⟩
  · rw [exec_turnedAway hi (accepts_of_busy hb i), turnedAway_of_not_faulted hf]
  · subst hconfigure
    exact exec_of_lock hi hf ((lockAdmits_eq_false_iff hi s).mpr (.inl ⟨rfl, hl⟩))
  · have hdatapath : IsDatapath i := (isDatapath_iff i).mpr ⟨hnop, hconfigure, hi⟩
    exact exec_of_lock hi hf ((lockAdmits_eq_false_iff hi s).mpr (.inr ⟨hdatapath, hl⟩))

/-! ## The block's action (R134, R257, R258) -/

theorem retire_todo (s : State) : s.retire.cur.todo = s.cur.todo.tail := by
  unfold State.retire
  rcases s.cur.todo with _ | ⟨_, _ | ⟨_, _⟩⟩ <;> rfl

/-- Settles O16: a step performed leaves the tail of the work, a fault none of it, and a step held is one of the two that
wait. -/
theorem blockMakesProgress : Obligations.BlockMakesProgress := by
  intro s t hbusy h
  rcases blockStep_cases h with ⟨hnil, _⟩ | ⟨p, rest, htodo, ⟨s', hp, rfl⟩ | hp | ⟨s', c, info, hp, rfl⟩⟩
  · exact absurd hnil ((busy_eq_true_iff s).mp hbusy)
  · obtain ⟨_, _, _, _, _, _, _, _, hcur, _⟩ := primStep_done_frame hp
    left
    rw [retire_todo, hcur, htodo]
    exact Nat.lt_succ_self rest.length
  · right
    rw [htodo]
    rcases primStep_hold hp with ⟨rfl, hbgq, rfl⟩ | ⟨rfl, hlate, rfl⟩ | ⟨rfl, hnever, rfl⟩
    · exact ⟨rfl, .inl ⟨rfl, hbgq⟩⟩
    · exact ⟨rfl, .inr ⟨rfl, .inl hlate⟩⟩
    · exact ⟨rfl, .inr ⟨rfl, .inr hnever⟩⟩
  · left
    rw [htodo]
    exact Nat.succ_pos rest.length

/-! ## The control commands (R131 to R133) -/

/-- Settles O17: `NOP` needs no lock, and its one step is performed and writes nothing. -/
theorem nopChangesNothing : Obligations.NopChangesNothing := by
  intro s hf hb
  have haccepts : accepts .nop s = true := (accepts_iff .nop s).mpr ⟨hf, hb, rfl⟩
  rw [exec_eq_runCommand s (by decide)]
  exact runCommand_performs haccepts (expand_ne_nil .nop s (by decide)) (.one rfl)

theorem primStep_configure_done {s : State} (h : configMask s = 0) :
    primStep .configure s = .done { s with locked := true } := if_pos h

theorem primStep_configure_raised {s : State} (h : configMask s ≠ 0) :
    primStep .configure s = .raised s .config (BitVec.ofNat 64 (configMask s)) := if_neg h

/-- Settles O18: the written-out mask is `configMask`, by which the one step of `CONFIGURE` decides. -/
theorem configureChecksAndLocks : Obligations.ConfigureChecksAndLocks := by
  intro s hf hb hl e
  have haccepts : accepts .configure s = true :=
    (accepts_iff .configure s).mpr ⟨hf, hb, by rw [lockAdmits, hl]; rfl⟩
  have he : e = configMask s := by simp [e, configMask]
  rw [exec_eq_runCommand s (by decide), he]
  refine ⟨fun hzero => ?_, fun hmask => ?_⟩
  · exact runCommand_performs haccepts (expand_ne_nil .configure s (by decide)) (.one (primStep_configure_done hzero))
  · rw [← raiseFault_of_not_faulted hf]
    exact runCommand_raises (l := []) haccepts rfl (.nil s) (.refl s) (primStep_configure_raised hmask)

/-- Settles O19: `SRESET` is performed in every state; each register of the state it leaves has the word it has after
power-on reset. -/
theorem sresetRestoresReset : Obligations.SresetRestoresReset := by
  intro s
  have hread : ∀ r, s.softReset.readReg r = State.reset.readReg r := fun r => by cases r <;> rfl
  obtain ⟨hzero, _⟩ := resetReadsZero
  exact ⟨s.softReset, exec_sreset s, rfl, fun r => (hread r).trans (hzero r), rfl, rfl, rfl, rfl, rfl, rfl, rfl⟩

/-! ## Sequences of steps that end -/

theorem awaits_withCur {p : Prim} {s u : State} (h : Awaits p s u) (c : Cur) :
    Awaits p (s.withCur c) (u.withCur c) := by
  induction h with
  | refl => exact .refl _
  | late hp hs _ ih => exact .late hp hs ih

/-- Where a sequence of steps ends does not depend on the command in flight. -/
theorem ends_withCur {l : List Prim} {s t : State} (h : Ends l s t) (c : Cur) : Ends l (s.withCur c) t := by
  rcases h with ⟨u, hperforms, rfl⟩ | ⟨l1, p, l2, u, v, u', code, info, hl, hperforms, hawaits, hp, rfl⟩
  · exact .inl ⟨u.withCur c, hperforms.withCur c, rfl⟩
  · have hp' : primStep p (v.withCur c) = .raised (u'.withCur c) code info := by rw [primStep_withCur, hp]
    exact .inr ⟨l1, p, l2, u.withCur c, v.withCur c, u'.withCur c, code, info, hl, hperforms.withCur c,
      awaits_withCur hawaits c, hp', rfl⟩

/-- Steps in two parts end in the second part, the first performed, or raise a fault in the first. -/
theorem ends_append {l m : List Prim} {s t : State} (h : Ends (l ++ m) s t) :
    (∃ u, Performs l s u ∧ Ends m u t) ∨ (Ends l s t ∧ t.faulted = true) := by
  rcases h with ⟨u, hperforms, rfl⟩ | ⟨l1, p, l2, u, v, u', c, info, hsplit, hperforms, hawaits, hp, rfl⟩
  · obtain ⟨w, hl, hm⟩ := hperforms.split
    exact .inl ⟨w, hl, .inl ⟨u, hm, rfl⟩⟩
  · have hraised : (u'.raiseFault c info).faulted = true := raiseFault_faulted u' c info (primStep_raised_code hp)
    rcases List.append_eq_append_iff.mp hsplit with ⟨m1, rfl, rfl⟩ | ⟨r, rfl, hr⟩
    · obtain ⟨w, hl, hm⟩ := hperforms.split
      exact .inl ⟨w, hl, .inr ⟨m1, p, l2, u, v, u', c, info, rfl, hm, hawaits, hp, rfl⟩⟩
    · cases r with
      | nil =>
        rw [List.append_nil]
        exact .inl ⟨u, hperforms, .inr ⟨[], p, l2, u, v, u', c, info, hr.symm, .nil u, hawaits, hp, rfl⟩⟩
      | cons q r =>
        obtain ⟨rfl, _⟩ := List.cons.inj hr
        exact .inr ⟨.inr ⟨l1, p, r, u, v, u', c, info, rfl, hperforms, hawaits, hp, rfl⟩, hraised⟩

/-- A command whose steps end, ends there. -/
theorem runCommand_of_ends {i : Instr} {s t : State} (ha : accepts i s = true) (hne : expand i s ≠ [])
    (h : Ends (expand i s) s t) : runCommand i s = .next t := by
  rcases h with ⟨u, hperforms, rfl⟩ | ⟨l1, p, l2, u, v, u', c, info, hl, hperforms, hawaits, hp, rfl⟩
  · exact runCommand_performs ha hne hperforms
  · exact runCommand_raises ha hl hperforms hawaits hp

/-- A command that leaves the block idle has come to the end of its steps. -/
theorem ends_of_not_busy {i : Instr} {s t : State} (ha : accepts i s = true) (hne : expand i s ≠ [])
    (h : runCommand i s = .next t) (hb : t.busy = false) : Ends (expand i s) s t := by
  rcases runCommand_outcome ha hne h with ⟨_, _, _, _, _, _, _, _, _, rfl⟩ | hends
  · cases hb
  · exact hends

/-! ## A run and its parts (R134, R173, R231) -/

/-- Steps that begin with those of a datapath command: the command ends unfaulted, ready for the rest of the steps, or it
ends where they end, in a fault. -/
theorem exec_first_part {i : Instr} {m : List Prim} {s t : State} (hi : IsDatapath i) (hready : Ready s)
    (h : Ends (expand i s ++ m) s t) :
    (∃ u, exec i s = .next u ∧ Ready u ∧ u.cur = Cur.idle ∧ SameSetting s u ∧ Ends m u t) ∨
    (exec i s = .next t ∧ t.faulted = true) := by
  have haccepts := accepts_of_ready hready (hi.lockAdmits_eq s)
  have hne := expand_ne_nil i s hi.ne_sreset
  rw [exec_eq_runCommand s hi.ne_sreset]
  rcases ends_append h with ⟨u, hperforms, hends⟩ | ⟨hends, hfaulted⟩
  · exact .inl ⟨u.withCur Cur.idle, runCommand_performs haccepts hne hperforms, ready_of_performs hperforms hready, rfl,
      (sameSetting_of_performs hperforms :), ends_withCur hends Cur.idle⟩
  · exact .inr ⟨runCommand_of_ends haccepts hne hends, hfaulted⟩

theorem execTimes_of_faulted {i : Instr} {s : State} (hi : i ≠ .sreset) (h : s.faulted = true) (n : Nat) :
    execTimes i n s = .next s := by
  induction n with
  | zero => rfl
  | succ n ih => rw [execTimes, exec_of_faulted hi h, andThen, ih]

/-- The steps of a datapath command repeated end where the command issued as often ends. -/
theorem execTimes_of_ends {i : Instr} (hi : IsDatapath i) {n : Nat} {s t : State} (hready : Ready s)
    (hidle : s.cur = Cur.idle) (h : Ends (repeatSteps n (expand i s)) s t) : execTimes i n s = .next t := by
  induction n generalizing s with
  | zero =>
    rcases h with ⟨u, hperforms, rfl⟩ | ⟨l1, _, _, _, _, _, _, _, hnil, _⟩
    · cases hperforms
      rw [← hidle]
      rfl
    · cases l1 <;> cases hnil
  | succ n ih =>
    rw [repeatSteps_succ] at h
    rcases exec_first_part hi hready h with ⟨u, hexec, hready', hidle', hset, hends⟩ | ⟨hexec, hfaulted⟩
    · rw [← expand_congr i hset.symbolCount hset.samplesPerSymbol] at hends
      rw [execTimes, hexec, andThen, ih hready' hidle' hends]
    · rw [execTimes, hexec, andThen, execTimes_of_faulted hi.ne_sreset hfaulted]

/-- A command whose steps are those of `init` and then, `SYMBOL_COUNT` times, those of `part`. -/
theorem exec_eq_parts {run init part : Instr} {s t : State} (hrun : IsDatapath run) (hinit : IsDatapath init)
    (hpart : IsDatapath part)
    (hexpand : expand run s = expand init s ++ repeatSteps s.symbolCount.toNat (expand part s))
    (hready : Ready s) (hb : t.busy = false) (h : exec run s = .next t) :
    andThen (exec init s) (execTimes part s.symbolCount.toNat) = .next t := by
  rw [exec_eq_runCommand s hrun.ne_sreset] at h
  have hends := ends_of_not_busy (accepts_of_ready hready (hrun.lockAdmits_eq s))
    (expand_ne_nil run s hrun.ne_sreset) h hb
  rw [hexpand] at hends
  rcases exec_first_part hinit hready hends with ⟨u, hexec, hready', hidle, hset, hrest⟩ | ⟨hexec, hfaulted⟩
  · rw [← expand_congr part hset.symbolCount hset.samplesPerSymbol] at hrest
    rw [hexec, andThen, execTimes_of_ends hpart hready' hidle hrest]
  · rw [hexec, andThen, execTimes_of_faulted hpart.ne_sreset hfaulted]

/-- Settles O49: both expansions (R134) are those of the parts, one after another. -/
theorem runsAreTheirParts : Obligations.RunsAreTheirParts := by
  intro s t hready hb
  exact ⟨exec_eq_parts (run := .genrun) (init := .txinit) (part := .gensym) (by decide) (by decide) (by decide) rfl
      hready hb,
    exec_eq_parts (run := .demrun) (init := .rxinit) (part := .demsym) (by decide) (by decide) (by decide) rfl
      hready hb⟩

end Sys2Proof.Proofs
end

section
/-! PROOFS of the family 41_symbol_mapper.md: `MAP` on a group of the right length (O23), of the wrong length (O24),
and on an empty BGQ (O25); the decisions that invert the QAM mappings (O43, O44); and that in a good state, where the
reserved modulation code of `MAP` and `DECIDE` cannot be locked in, no step stops the model (O10). -/

namespace Sys2Proof.Proofs

open Sys2Proof.Machine Sys2Proof.Claims

/-! ## The bits of a group and its levels (R104, R151 to R153) -/

theorem groupBit_beatBits (b : Beat) {m : Nat} (hm : m < 6) : groupBit (beatBits b) m = b.getLsbD (5 - m) := by
  simp [groupBit, beatBits, show 5 - m < 6 by omega]

theorem beatLevels_qpsk (b : Beat) : beatLevels .qpsk b = mapQpsk (b.getLsbD 5) (b.getLsbD 4) := by
  rw [← groupBit_beatBits b (m := 0) (by decide), ← groupBit_beatBits b (m := 1) (by decide)]
  rfl

theorem beatLevels_qam16 (b : Beat) :
    beatLevels .qam16 b = (lev2 (b.getLsbD 5) (b.getLsbD 4), lev2 (b.getLsbD 3) (b.getLsbD 2)) := by
  rw [← groupBit_beatBits b (m := 0) (by decide), ← groupBit_beatBits b (m := 1) (by decide),
    ← groupBit_beatBits b (m := 2) (by decide), ← groupBit_beatBits b (m := 3) (by decide)]
  rfl

theorem beatLevels_qam64 (b : Beat) :
    beatLevels .qam64 b =
      (lev3 (b.getLsbD 5) (b.getLsbD 4) (b.getLsbD 3), lev3 (b.getLsbD 2) (b.getLsbD 1) (b.getLsbD 0)) := by
  rw [← groupBit_beatBits b (m := 0) (by decide), ← groupBit_beatBits b (m := 1) (by decide),
    ← groupBit_beatBits b (m := 2) (by decide), ← groupBit_beatBits b (m := 3) (by decide),
    ← groupBit_beatBits b (m := 4) (by decide), ← groupBit_beatBits b (m := 5) (by decide)]
  rfl

/-! ## The levels of QAM64 as binary64 values (R15, R153) -/

theorem roundMag_units_one {x : F64} (hx : isfinite x = true) : roundMag (units x) 1 = fmag x := by
  simpa using roundMag_units x hx Nat.one_pos

/-- A finite pattern with the sign and the exact value of an integer is the conversion of that integer. -/
theorem i2f_eq_of_units {z : Int} {x : F64} (hx : isfinite x = true) (hsign : fsign x = decide (z < 0))
    (hunits : units x = z.natAbs * unitsPerOne) : i2f z = x := by
  rw [i2f, ← hunits, roundMag_units_one hx, ← hsign, pack_fsign_fmag]

/-- The value of a normal pattern is the integer `n` when its significand is `n` shifted by what its exponent lacks of
52. -/
theorem units_eq_of_fields {x : F64} {n k : Nat} (hk : k ≤ 52) (hexp : fmag x / 2 ^ 52 = 1023 + k)
    (hsig : 2 ^ 52 + fmag x % 2 ^ 52 = n * 2 ^ (52 - k)) : units x = n * unitsPerOne := by
  have hone : 2 ^ (52 - k + (1023 + k - 1)) = unitsPerOne := congrArg (2 ^ ·) (by omega)
  rw [units_eq, hexp, if_neg (by omega), hsig, Nat.mul_assoc, ← Nat.pow_add, hone]

/-- The binary64 patterns of -7, -5, -3, -1, 1, 3, 5 and 7, by the three bits that select them (R153). -/
def lev3Pattern (x0 x1 x2 : Bool) : F64 :=
  match x0, x1, x2 with
  | false, false, false => 0xC01C000000000000
  | false, false, true => 0xC014000000000000
  | false, true, false => 0xC008000000000000
  | false, true, true => 0xBFF0000000000000
  | true, false, false => 0x3FF0000000000000
  | true, false, true => 0x4008000000000000
  | true, true, false => 0x4014000000000000
  | true, true, true => 0x401C000000000000

/-- The same by their index, whose bits these are (R15). -/
def levelPattern (idx : Nat) : F64 := lev3Pattern (idx.testBit 2) (idx.testBit 1) (idx.testBit 0)

theorem isfinite_levelPattern : ∀ idx < 8, isfinite (levelPattern idx) = true := by decide

theorem fsign_levelPattern : ∀ idx < 8, fsign (levelPattern idx) = decide (-7 + 2 * (idx : Int) < 0) := by decide

theorem units_levelPattern (idx : Nat) (h : idx < 8) :
    units (levelPattern idx) = (-7 + 2 * (idx : Int)).natAbs * unitsPerOne := by
  have hfields : ∀ idx < 8, ∃ k ≤ 2, fmag (levelPattern idx) / 2 ^ 52 = 1023 + k ∧
      2 ^ 52 + fmag (levelPattern idx) % 2 ^ 52 = (-7 + 2 * (idx : Int)).natAbs * 2 ^ (52 - k) := by decide
  obtain ⟨k, hk, hexp, hsig⟩ := hfields idx h
  exact units_eq_of_fields (by omega) hexp hsig

theorem levelOfIndex_eq_pattern (idx : Nat) (h : idx < 8) : levelOfIndex idx = levelPattern idx :=
  i2f_eq_of_units (isfinite_levelPattern idx h) (fsign_levelPattern idx h) (units_levelPattern idx h)

theorem isfinite_levelOfIndex {idx : Nat} (h : idx < 8) : isfinite (levelOfIndex idx) = true := by
  rw [levelOfIndex_eq_pattern idx h, isfinite_levelPattern idx h]

theorem signedUnits_levelOfIndex {idx : Nat} (h : idx < 8) :
    signedUnits (levelOfIndex idx) = (-7 + 2 * (idx : Int)) * unitsPerOne := by
  rw [levelOfIndex_eq_pattern idx h, signedUnits, fsign_levelPattern idx h, units_levelPattern idx h, Nat.cast_mul,
    ← Int.neg_mul]
  by_cases hz : -7 + 2 * (idx : Int) < 0
  · rw [if_pos (decide_eq_true hz)]
    congr 1
    omega
  · rw [if_neg (by simpa using hz)]
    congr 1
    omega

theorem indexOfBits_lt : ∀ x0 x1 x2, indexOfBits x0 x1 x2 < 8 := by decide

theorem levelPattern_indexOfBits : ∀ x0 x1 x2, levelPattern (indexOfBits x0 x1 x2) = lev3Pattern x0 x1 x2 := by decide

theorem lev3_eq_pattern (x0 x1 x2 : Bool) : lev3 x0 x1 x2 = lev3Pattern x0 x1 x2 := by
  rw [lev3, levelOfIndex_eq_pattern _ (indexOfBits_lt x0 x1 x2), levelPattern_indexOfBits]

/-! ## MAP (R150, R154, R257) -/

theorem exec_map (s : State) : exec .map s = runCommand .map s := exec_eq_runCommand s (by decide)

section Map

variable {s : State} {sch : Scheme} {b : Beat} {rest : List Beat}

theorem exec_map_done (hready : Ready s) (hq : s.bgq = b :: rest) (hsch : schemeOfCode s.modulation = some sch)
    (hlen : (beatLen b).toNat = bitsPerSymbol sch) :
    exec .map s = .next { s with
      bgq := rest, txbits := b, lvlI := (beatLevels sch b).1, lvlQ := (beatLevels sch b).2, cur := Cur.idle } := by
  have haccepted : accepts .map s = true := accepts_of_ready hready rfl
  rw [exec_map, runCommand_performs haccepted (expand_ne_nil .map s (by decide))
    (.one (primStep_map_done hq hsch hlen))]
  rfl

theorem exec_map_wrongLength (hready : Ready s) (hq : s.bgq = b :: rest)
    (hsch : schemeOfCode s.modulation = some sch) (hlen : (beatLen b).toNat ≠ bitsPerSymbol sch) :
    exec .map s = .next (s.raiseFault .bitgroupLen (bitgroupLenInfo b (bitsPerSymbol sch))) := by
  have haccepted : accepts .map s = true := accepts_of_ready hready rfl
  rw [exec_map, runCommand_raises haccepted (l := []) rfl (.nil s) (.refl s) (primStep_map_wrongLength hq hsch hlen)]

theorem exec_map_empty (hready : Ready s) (hq : s.bgq = []) :
    exec .map s = .next (s.withCur ⟨some .map, [.map]⟩) := by
  have haccepted : accepts .map s = true := accepts_of_ready hready rfl
  rw [exec_map, runCommand_holds haccepted (l := []) rfl (.nil s) (.refl s) (primStep_map_empty hq)]

end Map

/-- Settles O23, scheme by scheme: the levels are those of the bits at their places in the beat (R104). -/
theorem mapWritesLevels : Obligations.MapWritesLevels := by
  intro s b rest hready hq
  refine ⟨fun hm hlen => ?_, fun hm hlen => ?_, fun hm hlen => ?_⟩
  · have hdone := exec_map_done (sch := .qpsk) hready hq (by rw [hm]; rfl) (by rw [beatLen, hlen]; rfl)
    rw [hdone, beatLevels_qpsk]
    rfl
  · have hdone := exec_map_done (sch := .qam16) hready hq (by rw [hm]; rfl) (by rw [beatLen, hlen]; rfl)
    rw [hdone, beatLevels_qam16]
    rfl
  · have hdone := exec_map_done (sch := .qam64) hready hq (by rw [hm]; rfl) (by rw [beatLen, hlen]; rfl)
    rw [hdone, beatLevels_qam64, lev3_eq_pattern, lev3_eq_pattern]
    rfl

/-- Settles O24: the one step of `MAP` raises, and the information word is the one of R154. -/
theorem mapWrongLengthFaults : Obligations.MapWrongLengthFaults := by
  intro s b rest sch hready hq hsch hlen
  rw [exec_map_wrongLength hready hq hsch hlen]
  obtain ⟨hfaulted, _, _⟩ := hready
  rw [raiseFault_of_not_faulted hfaulted]
  rfl

/-- Settles O25: the step holds while BGQ is empty, and is performed at the block's action after a beat has arrived. -/
theorem mapHoldsUntilGroupArrives : Obligations.MapHoldsUntilGroupArrives := by
  intro s hready hq
  refine ⟨exec_map_empty hready hq, blockStep_withCur_hold (some .map) [] (primStep_map_empty hq),
    fun b sch hsch hlen => ?_⟩
  have hstep : primStep .map { s with bgq := [b] } = .done (mapped sch b [] { s with bgq := [b] }) :=
    primStep_map_done rfl hsch hlen
  have hended : (mapped sch b [] { s with bgq := [b] }).withCur Cur.idle =
      { s with txbits := b, lvlI := (beatLevels sch b).1, lvlQ := (beatLevels sch b).2, cur := Cur.idle } := by
    rw [hq]
    rfl
  rw [← hended]
  exact blockStep_withCur_done (some .map) [] hstep

/-! ## The decisions on the levels of a group (R216, R218) -/

theorem decQam16_lev2 (x0 x1 : Bool) : decQam16 (lev2 x0 x1) = [x0, x1] := by
  cases x0 <;> cases x1 <;> decide

/-- Settles O43: each half of the group is decided on its own. -/
theorem qam16RoundTrip : Obligations.Qam16RoundTrip := by
  intro b0 b1 b2 b3
  rw [decideGroup, decQam16_lev2, decQam16_lev2]
  rfl

/-! The search of R217: a value at distance `+0` from one reference level and away from the others. -/

theorem fmag_fneg (x : F64) : fmag (fneg x) = fmag x := fmag_pack _ (fmag_lt x)

theorem fsign_fneg (x : F64) : fsign (fneg x) = !fsign x := fsign_pack _ (fmag_lt x)

theorem fmag_fabs (x : F64) : fmag (fabs x) = fmag x := fmag_pack _ (fmag_lt x)

theorem fsign_fabs (x : F64) : fsign (fabs x) = false := fsign_pack _ (fmag_lt x)

theorem isnan_fabs (x : F64) : isnan (fabs x) = isnan x := congrArg (fun m => decide (infMag < m)) (fmag_fabs x)

theorem isfinite_fneg (x : F64) : isfinite (fneg x) = isfinite x := congrArg (fun m => decide (m < infMag)) (fmag_fneg x)

theorem signedUnits_fneg (x : F64) : signedUnits (fneg x) = -signedUnits x := by
  have hunits : units (fneg x) = units x := by rw [units_eq, units_eq, fmag_fneg]
  cases hs : fsign x <;> simp [signedUnits, fsign_fneg, hunits, hs]

/-- The difference of two finite values that are not equal is their exact difference, narrowed once. -/
theorem fsub_finite {x y : F64} (hx : isfinite x = true) (hy : isfinite y = true)
    (hne : signedUnits x - signedUnits y ≠ 0) :
    fsub x y = pack (signedUnits x - signedUnits y < 0) (roundMag (signedUnits x - signedUnits y).natAbs 1) := by
  rw [Int.sub_eq_add_neg, ← signedUnits_fneg] at hne ⊢
  exact fadd_finite hx ((isfinite_fneg y).trans hy) hne

/-- R18: a finite value less itself is `+0`. -/
theorem fsub_self {x : F64} (hx : isfinite x = true) : fsub x x = fzero false := by
  have hneg : isfinite (fneg x) = true := (isfinite_fneg x).trans hx
  simp [fsub, fadd, isnan_eq_false_of_isfinite, isinf_eq_false_of_isfinite, hx, hneg, signedUnits_fneg, fsign_fneg]

/-- No difference of two unequal finite values underflows to a zero: the smallest is one unit. -/
theorem zero_flt_fabs_fsub {x y : F64} (hx : isfinite x = true) (hy : isfinite y = true)
    (hne : signedUnits x - signedUnits y ≠ 0) : flt (fzero false) (fabs (fsub x y)) = true := by
  have hunit : roundMag 1 1 = 1 := by decide
  have hpos : 0 < roundMag (signedUnits x - signedUnits y).natAbs 1 := by
    rw [Nat.lt_iff_add_one_le, Nat.zero_add, ← hunit]
    exact roundMag_mono Nat.one_pos (Int.natAbs_pos.mpr hne)
  rw [zero_flt, isnan_fabs, fsign_fabs, fmag_fabs, fsub_finite hx hy hne, not_isnan_pack_roundMag,
    fmag_pack _ (roundMag_lt _ _)]
  simpa using hpos

theorem fabs_not_flt_zero (x : F64) : flt (fabs x) (fzero false) = false := by
  rw [flt_zero, fsign_fabs]
  simp

/-- The step of the search (R217). -/
def nearer (v : F64) (best : Nat × F64) (m : Nat) : Nat × F64 :=
  if flt (refDistance v m) best.2 then (m, refDistance v m) else best

theorem nearestIndex_eq_foldl (v : F64) :
    nearestIndex v = ((List.range' 1 7).foldl (nearer v) (0, refDistance v 0)).1 := rfl

theorem nearer_of_flt {v : F64} {best : Nat × F64} {m : Nat} (h : flt (refDistance v m) best.2 = true) :
    nearer v best m = (m, refDistance v m) := if_pos h

theorem nearer_of_not_flt {v : F64} {best : Nat × F64} {m : Nat} (h : flt (refDistance v m) best.2 = false) :
    nearer v best m = best := if_neg (Bool.eq_false_iff.mp h)

/-- Nothing is nearer than a level at distance `+0`. -/
theorem foldl_nearer_of_zero (v : F64) (idx : Nat) (l : List Nat) :
    l.foldl (nearer v) (idx, fzero false) = (idx, fzero false) := by
  induction l with
  | nil => rfl
  | cons m l ih =>
    have hfar : flt (refDistance v m) (fzero false) = false := fabs_not_flt_zero (fsub v (levelOfIndex m))
    rw [List.foldl_cons, nearer_of_not_flt hfar, ih]

section Search

variable {v : F64} {idx : Nat} (hzero : refDistance v idx = fzero false)
  (haway : ∀ m < 8, m ≠ idx → flt (fzero false) (refDistance v m) = true)

include hzero haway

/-- Until the search comes to the level at distance `+0`, its best distance is greater than that. -/
theorem foldl_nearer_of_mem {l : List Nat} (hl : ∀ m ∈ l, m < 8) (hidx : idx ∈ l) {best : Nat × F64}
    (hbest : flt (fzero false) best.2 = true) : (l.foldl (nearer v) best).1 = idx := by
  induction l generalizing best with
  | nil => simp at hidx
  | cons m l ih =>
    rw [List.foldl_cons]
    by_cases hm : m = idx
    · subst hm
      rw [nearer_of_flt (hzero ▸ hbest), hzero, foldl_nearer_of_zero]
    · have hrest : idx ∈ l := by simpa [Ne.symm hm] using hidx
      have hpos : flt (fzero false) (nearer v best m).2 = true := by
        cases hd : flt (refDistance v m) best.2 with
        | true => rw [nearer_of_flt hd]; exact haway m (hl m List.mem_cons_self) hm
        | false => rw [nearer_of_not_flt hd]; exact hbest
      exact ih (fun k hk => hl k (List.mem_cons_of_mem m hk)) hrest hpos

theorem nearestIndex_eq (hlt : idx < 8) : nearestIndex v = idx := by
  rw [nearestIndex_eq_foldl]
  by_cases h0 : idx = 0
  · rw [← h0, hzero, foldl_nearer_of_zero]
  · refine foldl_nearer_of_mem hzero haway (fun m hm => ?_) ?_ (haway 0 (by decide) (Ne.symm h0))
    · rw [List.mem_range'_1] at hm; omega
    · rw [List.mem_range'_1]; omega

end Search

theorem nearestIndex_levelOfIndex {idx : Nat} (h : idx < 8) : nearestIndex (levelOfIndex idx) = idx := by
  have hfin := isfinite_levelOfIndex h
  refine nearestIndex_eq ?_ (fun m hm hne => ?_) h
  · have hself : refDistance (levelOfIndex idx) idx = fabs (fzero false) := congrArg fabs (fsub_self hfin)
    rw [hself]
    decide
  · refine zero_flt_fabs_fsub hfin (isfinite_levelOfIndex hm) ?_
    rw [signedUnits_levelOfIndex h, signedUnits_levelOfIndex hm, ← Int.sub_mul]
    exact Int.mul_ne_zero (by omega) (by exact_mod_cast unitsPerOne_pos.ne')

theorem bitsOfIndex_indexOfBits : ∀ x0 x1 x2, bitsOfIndex (indexOfBits x0 x1 x2) = [x0, x1, x2] := by decide

theorem decQam64_lev3 (x0 x1 x2 : Bool) : decQam64 (lev3 x0 x1 x2) = [x0, x1, x2] := by
  rw [decQam64, lev3, nearestIndex_levelOfIndex (indexOfBits_lt x0 x1 x2), bitsOfIndex_indexOfBits]

/-- Settles O44: the level of a triple is the reference level of its index (R153, R217), and the search finds that. -/
theorem qam64RoundTrip : Obligations.Qam64RoundTrip := by
  intro b0 b1 b2 b3 b4 b5
  rw [decideGroup, decQam64_lev3, decQam64_lev3]
  rfl

/-! ## No step of a good state stops the model (R150, R210: "`m = 3` cannot occur") -/

/-- Only code 3 selects no scheme (R38). -/
theorem eq_three_of_schemeOfCode_none : ∀ m : BitVec 2, schemeOfCode m = none → m = 3 := by decide

/-- R132: a configuration that passes the checks selects a scheme. -/
theorem schemeOfCode_ne_none {s : State} (h : configMask s = 0) : schemeOfCode s.modulation ≠ none := fun hnone => by
  have hm := eq_three_of_schemeOfCode_none _ hnone
  simp [configMask, hm] at h

/-- A `MAP` or `DECIDE` step of a command in flight runs under the lock, with a configuration that passed the checks. -/
theorem primStep_ne_stuck_of_good {s : State} (h : s.Good) {p : Prim} {rest : List Prim}
    (hc : s.cur.todo = p :: rest) (f : Fault) : primStep p s ≠ .stuck f := fun hstuck => by
  obtain ⟨hp, hnone⟩ := primStep_stuck hstuck
  obtain ⟨_, _, _, _, rfl | ⟨_, rfl⟩ | ⟨hlocked, _⟩⟩ := head_step_of_good h hc
  · simp at hp
  · simp at hp
  · exact schemeOfCode_ne_none (h.lockedConfigLegal hlocked) hnone

theorem blockStep_answers_of_good {s : State} (h : s.Good) : ∃ t, blockStep s = .next t := by
  cases hc : s.cur.todo with
  | nil => exact ⟨s, blockStep_idle hc⟩
  | cons p rest =>
    cases hp : primStep p s with
    | done s' => exact ⟨_, blockStep_done hc hp⟩
    | hold s' => exact ⟨_, blockStep_hold hc hp⟩
    | raised s' c info => exact ⟨_, blockStep_raised hc hp⟩
    | stuck f => exact absurd hp (primStep_ne_stuck_of_good h hc f)

theorem blockRun_answers_of_good (n : Nat) {s : State} (h : s.Good) : ∃ t, blockRun n s = .next t := by
  induction n generalizing s with
  | zero => exact ⟨s, rfl⟩
  | succ n ih =>
    obtain ⟨s', hstep⟩ := blockStep_answers_of_good h
    rw [blockRun_succ n hstep]
    exact ih (good_blockStep h hstep)

theorem exec_answers_of_good (i : Instr) {s : State} (h : s.Good) : ∃ t, exec i s = .next t := by
  by_cases hi : i = .sreset
  · exact ⟨s.softReset, hi ▸ rfl⟩
  rw [exec_eq_runCommand s hi]
  cases ha : accepts i s with
  | false => exact ⟨_, runCommand_turnedAway ha⟩
  | true =>
    rw [runCommand_accepted ha]
    exact blockRun_answers_of_good _ (good_accepted h ha hi)

theorem hostCommand_answers_of_good (v : Word) {s : State} (h : s.Good) : ∃ t, hostCommand v s = .next t := by
  unfold hostCommand
  split
  · exact exec_answers_of_good _ h
  · exact ⟨_, rfl⟩

/-- Of the host's actions only a command issued and waited for can stop the model. -/
theorem hostTurn_answers_of_good {s : State} (h : s.Good) : ∃ t, hostTurn s = .next t := by
  unfold hostTurn
  split
  case h_4 v rest _ => exact hostCommand_answers_of_good v (good_withInputs h _ rest _ _ _ _)
  all_goals exact ⟨_, rfl⟩

/-- Settles O10: of the agents only the block, and the host by a command, perform primitive steps, and none of these is
stuck in a good state. -/
theorem goodStatesNeverStop : Obligations.GoodStatesNeverStop := by
  intro s h
  have hturn (ts : List Agent) : State.Good { s with turns := ts } := good_withInputs h ts _ _ _ _ _
  unfold step transition
  split
  case h_1 => exact blockStep_answers_of_good h
  case h_2 ts _ => exact blockStep_answers_of_good (hturn ts)
  case h_3 ts _ => exact hostTurn_answers_of_good (hturn ts)
  all_goals exact ⟨_, rfl⟩

end Sys2Proof.Proofs
end

section
/-! PROOFS of the family 42_nco_mixer.md: `TXINIT`, `RXINIT` and `ACCLR` (O27); then what the steps of the `GENSYM`s of a
`GENRUN` leave behind, and the whole run (O33). -/

namespace Sys2Proof.Proofs

open Sys2Proof.Machine Sys2Proof.Claims

/-! ## TXINIT, RXINIT and ACCLR (R170, R190, R191) -/

/-- A datapath command of one step ends with what that step, performed, has written. -/
theorem exec_of_single_step {i : Instr} {p : Prim} {s s' : State} (hi : IsDatapath i) (hready : Ready s)
    (hexpand : expand i s = [p]) (hp : primStep p s = .done s') : exec i s = .next (s'.withCur Cur.idle) := by
  rw [exec_eq_runCommand s hi.ne_sreset]
  exact runCommand_performs (accepts_of_ready hready (hi.lockAdmits_eq s)) (expand_ne_nil i s hi.ne_sreset)
    (hexpand ▸ .one hp)

theorem fzero_false_eq_zero : fzero false = 0 := by decide

theorem primStep_rxinit_done (s : State) :
    primStep .rxinit s = .done { s with rxK := 0, rxJ := 0, isum := 0, qsum := 0 } := by
  rw [primStep, stepRxinit, fzero_false_eq_zero]

theorem primStep_acclr_done (s : State) : primStep .acclr s = .done { s with rxJ := 0, isum := 0, qsum := 0 } := by
  rw [primStep, stepAcclr, fzero_false_eq_zero]

/-- Settles O27: each of the three commands is one step, performed in every state; positive zero is the word 0. -/
theorem initCommandsClear : Obligations.InitCommandsClear := by
  intro s hready
  exact ⟨exec_of_single_step (p := .txinit) (by decide) hready rfl rfl,
    exec_of_single_step (by decide) hready rfl (primStep_rxinit_done s),
    exec_of_single_step (by decide) hready rfl (primStep_acclr_done s)⟩

/-! ## What the steps of GENSYMs leave behind (R172)

`AfterSymbols` says what a run does to the queues, the outputs and `TX_N`. What it leaves in `TX_K`, `TXBITS` and the
levels, and everything it does not touch, follows step by step. -/

/-- `s` with those fields of `t` that a step of a `GENSYM` may write. -/
def withTransmitOf (t s : State) : State :=
  { s with
    txout := t.txout, txN := t.txN, txK := t.txK, bgq := t.bgq, txbits := t.txbits, lvlI := t.lvlI, lvlQ := t.lvlQ
    sinkReplies := t.sinkReplies }

/-- The group being sent: `TXBITS` and the two levels. -/
def heldGroup (s : State) : Beat × F64 × F64 := (s.txbits, s.lvlI, s.lvlQ)

/-- A beat and the levels `MAP` makes of it (R151 to R153). -/
def mappedGroup (sch : Scheme) (b : Beat) : Beat × F64 × F64 := (b, beatLevels sch b)

/-- From `s` to `t`, `m` groups were mapped and `c` symbols counted: the last group mapped is the one held, and nothing
outside the transmit side changed. -/
def Transmitted (sch : Scheme) (m c : Nat) (s t : State) : Prop :=
  t = withTransmitOf t s ∧
  t.txK = s.txK + BitVec.ofNat 32 c ∧
  heldGroup t = (s.bgq.take m).getLast?.elim (heldGroup s) (mappedGroup sch)

theorem frame_trans {s s' t : State} (h : s' = withTransmitOf s' s) (g : t = withTransmitOf t s') :
    t = withTransmitOf t s :=
  calc t = withTransmitOf t s' := g
    _ = withTransmitOf t (withTransmitOf s' s) := congrArg (withTransmitOf t) h
    _ = withTransmitOf t s := rfl

section Transmitted

variable {sch : Scheme} {m c : Nat} {s s' t : State}

theorem Transmitted.refl (sch : Scheme) (s : State) : Transmitted sch 0 0 s s := ⟨rfl, (BitVec.add_zero _).symm, rfl⟩

theorem Transmitted.map_step (hsch : schemeOfCode s.modulation = some sch) (h : StepWrites .map s s')
    (g : Transmitted sch m c s' t) : Transmitted sch (m + 1) c s t := by
  obtain ⟨b, rest, sch', hbgq, hsch', _, rfl⟩ := h
  obtain rfl : sch = sch' := Option.some.inj (hsch.symm.trans hsch')
  obtain ⟨hframe, hsymbols, hheld⟩ := g
  refine ⟨frame_trans rfl hframe, hsymbols, ?_⟩
  rw [hheld, hbgq, List.take_succ_cons, List.getLast?_cons]
  change (rest.take m).getLast?.elim (mappedGroup sch b) (mappedGroup sch) = _
  cases (rest.take m).getLast? <;> rfl

theorem Transmitted.mix_step (h : StepWrites .mix s s') (g : Transmitted sch m c s' t) : Transmitted sch m c s t := by
  obtain rfl := h
  obtain ⟨hframe, hrest⟩ := g
  exact ⟨frame_trans rfl hframe, hrest⟩

theorem Transmitted.txkinc_step (h : StepWrites .txkinc s s') (g : Transmitted sch m c s' t) :
    Transmitted sch m (c + 1) s t := by
  obtain rfl := h
  obtain ⟨hframe, hsymbols, hheld⟩ := g
  refine ⟨frame_trans rfl hframe, ?_, hheld⟩
  rw [hsymbols, BitVec.add_assoc, Nat.add_comm c 1, BitVec.ofNat_add]
  rfl

/-- A late answer of the sink is on the transmit side too. -/
theorem Transmitted.of_sinkReplied (g : Transmitted sch m c s.sinkReplied t) : Transmitted sch m c s t := by
  obtain ⟨hframe, hrest⟩ := g
  exact ⟨frame_trans rfl hframe, hrest⟩

end Transmitted

/-- Steps of `GENSYM`s that are performed map a group for each `MAP` and count a symbol for each `TXKINC`. -/
theorem transmitted_of_performs {sch : Scheme} {l : List Prim} {s t : State} (h : Performs l s t)
    (hl : ∀ p ∈ l, IsGensymPrim p) (hsch : schemeOfCode s.modulation = some sch) :
    Transmitted sch (l.count .map) (l.count .txkinc) s t := by
  induction h with
  | nil s => exact .refl sch s
  | @cons p l s s' t hp _ ih =>
    obtain ⟨_, _, _, _, hm, _⟩ := primStep_done_frame hp
    have hrest := ih (fun q hq => hl q (List.mem_cons_of_mem p hq)) (hm ▸ hsch)
    have hwrites := stepWrites_of_done hp
    rcases hl p List.mem_cons_self with rfl | rfl | rfl
    · simpa using hrest.map_step hsch hwrites
    · simpa using hrest.mix_step hwrites
    · simpa using hrest.txkinc_step hwrites
  | late _ _ ih => exact (ih hl hsch).of_sinkReplied

theorem count_txkinc_gensymSteps (k : Nat) : (gensymSteps k).count .txkinc = 1 := by
  simp [gensymSteps, List.count_replicate]

/-! ## The whole run (R173) -/

/-- The steps of `GENRUN` performed: each of the `SYMBOL_COUNT` symbols is mapped and counted. -/
theorem transmitted_genrun {sch : Scheme} {s t : State} (hsch : schemeOfCode s.modulation = some sch)
    (h : Performs (expand .genrun s) s t) :
    Transmitted sch s.symbolCount.toNat s.symbolCount.toNat (txInitialised s) t := by
  have hsymbols := transmitted_of_performs (performs_genrun h) (fun p => isGensymPrim_of_mem) hsch
  rw [count_repeatSteps, count_repeatSteps, count_map_gensymSteps, count_txkinc_gensymSteps, Nat.mul_one] at hsymbols
  exact hsymbols

/-- After `TXINIT` the indices of symbol `k` are those from `k * SAMPLES_PER_SYMBOL` on. -/
theorem symbolRun_from_zero (sch : Scheme) (s : State) (k : Nat) :
    symbolRun sch (txInitialised s) k =
      symbolSamples (beatLevels sch (s.bgq.getD k 0)).1 (beatLevels sch (s.bgq.getD k 0)).2
        (BitVec.ofNat 64 (k * s.samplesPerSymbol.toNat)) s.samplesPerSymbol.toNat s.fc s.fs :=
  congrArg (symbolSamples _ _ · _ _ _) (BitVec.zero_add _)

/-- Settles O33: `exec_genrun` gives the completed run with its samples and queues, by induction over the symbols
(`performs_symbols`) and the samples of each (`performs_mixes`); `transmitted_genrun` gives the count, the last group and
the frame. -/
theorem genrunEmitsWholeRun : Obligations.GenrunEmitsWholeRun := by
  intro s sch hready hsch N SPS hn hlen hsink
  obtain ⟨t, hexec, hperforms, htxout, htxN, hbgq, hreplies, _, _⟩ := exec_genrun hready hsch hn hlen hsink
  obtain ⟨hframe, hsymbols, hheld⟩ := transmitted_genrun hsch hperforms
  refine ⟨t.withCur Cur.idle, hexec, ?_, htxN.trans (BitVec.zero_add _), ?_, hbgq, fun b hb => ?_, ?_⟩
  · rw [funext (symbolRun_from_zero sch s)] at htxout
    exact htxout
  · have hcount : t.txK = 0#32 + BitVec.ofNat 32 s.symbolCount.toNat := hsymbols
    rw [BitVec.zero_add, BitVec.ofNat_toNat, BitVec.setWidth_eq] at hcount
    exact hcount
  · have hlast : ((txInitialised s).bgq.take s.symbolCount.toNat).getLast? = some b := hb
    rw [hlast] at hheld
    obtain ⟨htxbits, hlevels⟩ := Prod.mk.inj hheld
    obtain ⟨hi, hq⟩ := Prod.ext_iff.mp hlevels
    exact ⟨htxbits, hi, hq⟩
  · have hreplies' : t.sinkReplies = s.sinkReplies.drop (N * SPS) := hreplies
    calc t.withCur Cur.idle
        = (withTransmitOf t (txInitialised s)).withCur Cur.idle := congrArg (·.withCur Cur.idle) hframe
      _ = _ := by rw [← hreplies']; rfl

end Sys2Proof.Proofs
end

section
/-! PROOFS of the family 43_correlator.md: the steps of `CORR` (O35) and `AVG` (O36), the window (O37), a window without a
sample (O38, and O48 for a whole run over an empty RXBUF), and what the result of a window depends on (O39). -/

namespace Sys2Proof.Proofs

open Sys2Proof.Machine Sys2Proof.Claims

/-! ## CORR and AVG (R192, R194) -/

theorem sampleAt_eq_none {s : State} {n : Nat} (h : s.rxAvail.toNat ≤ n) : sampleAt s n = none :=
  if_neg (Nat.not_lt.mpr h)

/-- An index below `RX_AVAIL` is an index of RXBUF (R47, R74). -/
theorem sampleAt_eq_some {s : State} {n : Nat} (h : n < s.rxAvail.toNat) :
    ∃ x, s.rxbuf[n]? = some x ∧ sampleAt s n = some x := by
  have hlt : n < s.rxbuf.length := h.trans_le (by rw [State.rxAvail, BitVec.toNat_ofNat]; exact Nat.mod_le _ _)
  exact ⟨s.rxbuf[n], List.getElem?_eq_getElem hlt, (if_pos h).trans (List.getElem?_eq_getElem hlt)⟩

/-- The sums take in the sample at `n`, its amplitude against the two carriers. -/
theorem sumsAfter_of_sample {s : State} {n : Word} {x : Sample} (h : sampleAt s n.toNat = some x) :
    s.isumAfter n = fadd s.isum (fmul x.amp (carrier Config.cos n.toNat s.fc s.fs)) ∧
    s.qsumAfter n = fadd s.qsum (fmul x.amp (carrier Config.sin n.toNat s.fc s.fs)) := by
  rw [State.isumAfter, State.qsumAfter, memRead_eq_sampleAt, h]
  exact ⟨rfl, rfl⟩

/-- Without a sample at `n` nothing is added, not even a zero (R196). -/
theorem sumsAfter_of_no_sample {s : State} {n : Word} (h : sampleAt s n.toNat = none) :
    s.isumAfter n = s.isum ∧ s.qsumAfter n = s.qsum := by
  rw [State.isumAfter, State.qsumAfter, memRead_eq_sampleAt, h]
  exact ⟨rfl, rfl⟩

theorem primStep_corr_past_window {s : State} (h : s.samplesPerSymbol ≤ s.rxJ) :
    primStep .corr s = .raised s .sequence 0x32 :=
  if_pos h

/-- Settles O35: the one step of `CORR` with the sample of index `RX_K * SAMPLES_PER_SYMBOL + RX_J` present, with it
absent, and past the window. -/
theorem corrAccumulatesOneSample : Obligations.CorrAccumulatesOneSample := by
  intro s hready n t theta
  have hindex : s.rxIndex.toNat = n := rxIndex_toNat s
  refine ⟨fun hwindow havail => ?_, fun hwindow habsent => ?_, fun hpast => ?_⟩
  · obtain ⟨x, hx, hsample⟩ := sampleAt_eq_some havail
    obtain ⟨hisum, hqsum⟩ := sumsAfter_of_sample (n := s.rxIndex) (hindex ▸ hsample)
    rw [hindex] at hisum hqsum
    have hstep := primStep_corr_done hwindow
    rw [hisum, hqsum] at hstep
    exact ⟨x, hx, exec_of_single_step (by decide) hready rfl hstep⟩
  · obtain ⟨hisum, hqsum⟩ := sumsAfter_of_no_sample (hindex ▸ sampleAt_eq_none habsent)
    have hstep := primStep_corr_done hwindow
    rw [hisum, hqsum] at hstep
    exact exec_of_single_step (by decide) hready rfl hstep
  · have hexpand : expand .corr s = [] ++ [Prim.corr] := rfl
    rw [exec_eq_runCommand s (by decide), runCommand_raises (accepts_of_ready hready rfl) hexpand (.nil s) (.refl s)
      (primStep_corr_past_window hpast), raiseFault_of_not_faulted hready.1]

/-- Settles O36: `AVG` is one step, performed in every state. -/
theorem avgDividesBySamplesPerSymbol : Obligations.AvgDividesBySamplesPerSymbol := fun _ hready =>
  exec_of_single_step (p := .avg) (by decide) hready rfl rfl

/-! ## CORRWIN (R195) -/

theorem exec_corrwin {s : State} (hready : Ready s) : exec .corrwin s = .next (afterWindow s) := by
  rw [exec_eq_runCommand s (by decide), runCommand_performs (accepts_of_ready hready rfl)
    (expand_ne_nil .corrwin s (by decide)) (performs_corrwin s)]
  rfl

/-- Settles O37: `performs_corrwin` performs the steps, by induction over the samples of the window; none of them raises,
since `RX_J` stays below `SAMPLES_PER_SYMBOL` until the last. -/
theorem corrwinCorrelatesWindow : Obligations.CorrwinCorrelatesWindow := fun _ => exec_corrwin

/-! ## A window with no sample present (R196) -/

theorem partialSum_empty (f : F64 → F64) {s : State} {k : Nat}
    (h : s.rxAvail.toNat ≤ k * s.samplesPerSymbol.toNat) (j : Nat) : partialSum f s k j = fzero false := by
  induction j with
  | zero => rfl
  | succ j ih => rw [partialSum_succ, sampleAt_eq_none (h.trans (Nat.le_add_right _ j)), ih]

theorem windowSum_empty (f : F64 → F64) {s : State} {k : Nat}
    (h : s.rxAvail.toNat ≤ k * s.samplesPerSymbol.toNat) : windowSum f s k = fzero false :=
  partialSum_empty f h _

theorem finitePositive_u2f {n : Nat} (hpos : 0 < n) (hle : n ≤ 2 ^ 64) : FinitePositive (u2f n) :=
  (finitePositive_iff _).mpr ⟨(u2f_mag n).2, u2f_pos hpos, u2f_lt hle⟩

/-- Positive zero divided by a positive finite value, as in the time of sample 0. -/
theorem fzero_fdiv {b : F64} (h : FinitePositive b) : fdiv (fzero false) b = fzero false := by
  have htime : fdiv (u2f 0) b = fzero false := ncoTime_zero h
  rwa [u2f_zero] at htime

/-- The average is a division by `SAMPLES_PER_SYMBOL` all the same, and a zero where that is not 0. -/
theorem windowAvg_empty (f : F64 → F64) {s : State} {k : Nat} (hsps : s.samplesPerSymbol ≠ 0)
    (h : s.rxAvail.toNat ≤ k * s.samplesPerSymbol.toNat) : windowAvg f s k = fzero false := by
  have hpos : 0 < s.samplesPerSymbol.toNat := Nat.pos_of_ne_zero fun h0 => hsps (BitVec.eq_of_toNat_eq h0)
  have hle : s.samplesPerSymbol.toNat ≤ 2 ^ 64 := s.samplesPerSymbol.isLt.le.trans (by decide)
  rw [windowAvg, windowSum_empty f h, fzero_fdiv (finitePositive_u2f hpos hle)]

/-- Settles O38: `CORRWIN` leaves the sums and averages of the window, and positive zero is the word 0. -/
theorem emptyWindowGivesZero : Obligations.EmptyWindowGivesZero := by
  intro s hready hsps hempty
  have hsum (f : F64 → F64) : windowSum f s s.rxK.toNat = 0 := (windowSum_empty f hempty).trans fzero_false_eq_zero
  have havg (f : F64 → F64) : windowAvg f s s.rxK.toNat = 0 := (windowAvg_empty f hsps hempty).trans fzero_false_eq_zero
  exact ⟨afterWindow s, exec_corrwin hready, hsum _, hsum _, havg _, havg _⟩

/-! ## What the result of a window depends on (R198) -/

/-- Of the samples in the window only the amplitudes count; their stored times are not read. -/
theorem windowSum_congr_amp (f : F64 → F64) {s₁ s₂ : State} {k : Nat} (hfc : s₁.fc = s₂.fc) (hfs : s₁.fs = s₂.fs)
    (hsps : s₁.samplesPerSymbol = s₂.samplesPerSymbol)
    (hamp : ∀ j, j < s₁.samplesPerSymbol.toNat →
      (sampleAt s₁ (k * s₁.samplesPerSymbol.toNat + j)).map (·.amp) =
      (sampleAt s₂ (k * s₁.samplesPerSymbol.toNat + j)).map (·.amp)) :
    windowSum f s₁ k = windowSum f s₂ k := by
  rw [windowSum, windowSum, ← hfc, ← hfs, ← hsps]
  refine List.foldl_ext _ _ _ fun acc j hj => ?_
  have hsame := hamp j (List.mem_range.mp hj)
  dsimp only
  generalize sampleAt s₁ (k * s₁.samplesPerSymbol.toNat + j) = o₁ at hsame ⊢
  generalize sampleAt s₂ (k * s₁.samplesPerSymbol.toNat + j) = o₂ at hsame ⊢
  cases o₁ with
  | none => rw [Option.map_eq_none_iff.mp hsame.symm]
  | some x =>
    obtain ⟨y, rfl, hy⟩ := Option.map_eq_some_iff.mp hsame.symm
    dsimp only at hy ⊢
    rw [hy]

/-- Settles O39: both results are those of `CORRWIN`, the sums over equal amplitudes and the quotients of equal sums. -/
theorem windowsAreIndependent : Obligations.WindowsAreIndependent := by
  intro s₁ s₂ t₁ t₂ hready₁ hready₂ hk hfc hfs hsps hamp hexec₁ hexec₂
  obtain rfl := Host.Outcome.next.inj ((exec_corrwin hready₁).symm.trans hexec₁)
  obtain rfl := Host.Outcome.next.inj ((exec_corrwin hready₂).symm.trans hexec₂)
  have hsum (f : F64 → F64) : windowSum f s₁ s₁.rxK.toNat = windowSum f s₂ s₂.rxK.toNat :=
    hk ▸ windowSum_congr_amp f hfc hfs hsps hamp
  have havg (f : F64 → F64) : windowAvg f s₁ s₁.rxK.toNat = windowAvg f s₂ s₂.rxK.toNat := by
    rw [windowAvg, windowAvg, hsum f, hsps]
  exact ⟨hsum _, hsum _, havg _, havg _⟩

/-! ## DEMRUN over an empty RXBUF (R196, R231) -/

theorem signedUnits_levelOfIndex_ne_zero {idx : Nat} (h : idx < 8) : signedUnits (levelOfIndex idx) ≠ 0 := by
  rw [signedUnits_levelOfIndex h]
  exact Int.mul_ne_zero (by omega) (Int.natCast_ne_zero_iff_pos.mpr unitsPerOne_pos)

/-- The distance from zero to a level is the level without its sign: nothing is rounded. -/
theorem refDistance_origin {idx : Nat} (h : idx < 8) : refDistance (fzero false) idx = fabs (levelPattern idx) := by
  have hfin := isfinite_levelOfIndex h
  have hne : signedUnits (fzero false) - signedUnits (levelOfIndex idx) ≠ 0 := by
    rw [signedUnits_fzero, Int.zero_sub]
    exact Int.neg_ne_zero.mpr (signedUnits_levelOfIndex_ne_zero h)
  have hmag : fmag (fsub (fzero false) (levelOfIndex idx)) = fmag (levelOfIndex idx) := by
    rw [fsub_finite (isfinite_fzero false) hfin hne, signedUnits_fzero, Int.zero_sub, Int.natAbs_neg,
      natAbs_signedUnits, roundMag_units_one hfin, fmag_pack _ (fmag_lt _)]
  rw [refDistance, fabs, hmag, levelOfIndex_eq_pattern idx h, fabs]

/-- From zero the search of R217 comes nearer level by level up to -1, index 3; +1 is no nearer, and the rest are
farther. -/
theorem foldl_nearer_origin (m : Nat) (h : m < 8) :
    (List.range' 1 m).foldl (nearer (fzero false)) (0, refDistance (fzero false) 0) =
      (min m 3, refDistance (fzero false) (min m 3)) := by
  have hcloser : ∀ m < 7, flt (fabs (levelPattern (1 + m))) (fabs (levelPattern (min m 3))) = decide (m < 3) := by decide
  induction m with
  | zero => rfl
  | succ m ih =>
    have hdist : flt (refDistance (fzero false) (1 + m)) (refDistance (fzero false) (min m 3)) = decide (m < 3) := by
      rw [refDistance_origin (by omega), refDistance_origin (by omega), hcloser m (by omega)]
    rw [List.range'_1_concat, List.foldl_append, ih (by omega), List.foldl_cons, List.foldl_nil]
    simp only [nearer, hdist, decide_eq_true_eq]
    by_cases hm : m < 3
    · rw [if_pos hm, show min (m + 1) 3 = 1 + m by omega]
    · rw [if_neg hm, show min (m + 1) 3 = min m 3 by omega]

theorem nearestIndex_origin : nearestIndex (fzero false) = 3 := by
  rw [nearestIndex_eq_foldl, foldl_nearer_origin 7 (by decide)]
  rfl

/-- The angle `+0` is in the first quadrant (R213, R214). -/
theorem decideGroup_origin_qpsk : decideGroup .qpsk (fzero false) (fzero false) = [true, false] := by decide

/-- Zero is the lower end of the third interval (R215). -/
theorem decideGroup_origin_qam16 : decideGroup .qam16 (fzero false) (fzero false) = [true, true, true, true] := by
  decide

theorem decideGroup_origin_qam64 :
    decideGroup .qam64 (fzero false) (fzero false) = [false, true, true, false, true, true] := by
  rw [decideGroup, decQam64, nearestIndex_origin]
  decide

theorem nonFiniteMask_origin (sch : Scheme) : nonFiniteMask sch (fzero false) (fzero false) = 0 := by
  cases sch <;> decide

/-- Settles O48: every window is without a sample, so its averages are at the origin, where every scheme decides. -/
theorem demrunOnEmptyBuffer : Obligations.DemrunOnEmptyBuffer := by
  intro s sch hready hsch hbuf hsps origin
  have horigin : decideGroup sch (fzero false) (fzero false) = origin := by
    cases sch with
    | qpsk => exact decideGroup_origin_qpsk
    | qam16 => exact decideGroup_origin_qam16
    | qam64 => exact decideGroup_origin_qam64
  have hnone (k : Nat) : s.rxAvail.toNat ≤ k * s.samplesPerSymbol.toNat := by
    rw [State.rxAvail, hbuf]
    exact Nat.zero_le _
  have havg (f : F64 → F64) (k : Nat) : windowAvg f s k = fzero false := windowAvg_empty f hsps (hnone k)
  have hdec (k : Nat) : WindowDecidable sch s k := by
    rw [WindowDecidable, havg, havg, nonFiniteMask_origin]
  have hgroup : windowGroup sch s = fun _ => origin := by
    funext k
    rw [windowGroup, havg, havg, horigin]
  obtain ⟨t, hexec, _, hfaulted, hbits⟩ := exec_demrun_decidable hready hsch fun k _ => hdec k
  refine ⟨t, hexec, hfaulted, ?_⟩
  rw [hbits, hgroup, List.flatMap_def, List.map_const', List.length_range]

end Sys2Proof.Proofs
end

section
/-! PROOFS of the family 44_decision_quantizer.md: `DECIDE` on operands that fail the test (O41) and on operands that pass
it (O40), and QPSK at the origin (O42). -/

namespace Sys2Proof.Proofs

open Sys2Proof.Machine Sys2Proof.Claims

/-! ## The operand test (R212) -/

/-- The mask of two operands' badness is zero exactly when neither is bad. -/
theorem badMask_eq_zero_iff (badI badQ : Bool) :
    badI.toNat + 2 * badQ.toNat = 0 ↔ badI = false ∧ badQ = false := by
  cases badI <;> cases badQ <;> decide

theorem nonFiniteMask_qpsk_eq_zero_iff (i q : F64) :
    nonFiniteMask .qpsk i q = 0 ↔ isfinite i = true ∧ isfinite q = true := by
  rw [nonFiniteMask, badMask_eq_zero_iff, Bool.not_eq_false', Bool.not_eq_false']

theorem nonFiniteMask_qam16_eq_zero_iff (i q : F64) :
    nonFiniteMask .qam16 i q = 0 ↔ isnan i = false ∧ isnan q = false :=
  badMask_eq_zero_iff (isnan i) (isnan q)

/-- QAM64 tests its operands as QPSK does. -/
theorem nonFiniteMask_qam64 (i q : F64) : nonFiniteMask .qam64 i q = nonFiniteMask .qpsk i q := rfl

theorem nonFiniteMask_qam64_eq_zero_iff (i q : F64) :
    nonFiniteMask .qam64 i q = 0 ↔ isfinite i = true ∧ isfinite q = true := by
  rw [nonFiniteMask_qam64, nonFiniteMask_qpsk_eq_zero_iff]

/-! ## DECIDE (R210, R212) -/

section Decide

variable {s : State} {sch : Scheme}

theorem exec_decide_done (hready : Ready s) (hsch : schemeOfCode s.modulation = some sch)
    (hmask : nonFiniteMask sch s.iavg s.qavg = 0) :
    exec .decideCmd s = .next { s with
      rxbits := beatOfGroup (decideGroup sch s.iavg s.qavg), bitout := s.bitout ++ decideGroup sch s.iavg s.qavg,
      cur := Cur.idle } :=
  exec_of_single_step (by decide) hready rfl (primStep_decide_done hsch hmask)

theorem exec_decide_nonFinite (hready : Ready s) (hsch : schemeOfCode s.modulation = some sch)
    (hmask : nonFiniteMask sch s.iavg s.qavg ≠ 0) :
    exec .decideCmd s =
      .next (faultedWith s .nonfinite (BitVec.ofNat 64 (nonFiniteMask sch s.iavg s.qavg))) := by
  have hexpand : expand .decideCmd s = [] ++ [Prim.decideStep] := rfl
  rw [exec_eq_runCommand s (by decide), runCommand_raises (accepts_of_ready hready rfl) hexpand (.nil s) (.refl s)
    (primStep_decide_nonFinite hsch hmask), raiseFault_of_not_faulted hready.1]

end Decide

/-- Settles O41: the one step of `DECIDE` raises, and the mask is the one of R212 for the scheme. -/
theorem decideNonFiniteFaults : Obligations.DecideNonFiniteFaults := by
  intro s hready
  refine ⟨fun hmod hbad => ?_, fun hmod hbad => ?_⟩
  · rcases hmod with hmod | hmod
    · exact exec_decide_nonFinite (sch := .qpsk) hready (by rw [hmod]; rfl)
        (mt (nonFiniteMask_qpsk_eq_zero_iff _ _).mp hbad)
    · exact exec_decide_nonFinite (sch := .qam64) hready (by rw [hmod]; rfl)
        (mt (nonFiniteMask_qam64_eq_zero_iff _ _).mp hbad)
  · exact exec_decide_nonFinite (sch := .qam16) hready (by rw [hmod]; rfl)
      (mt (nonFiniteMask_qam16_eq_zero_iff _ _).mp hbad)

/-! ## The QPSK decision (R213, R214) -/

theorem bits_quadrantOfAngle (a : F64) :
    qpskQuadrantBits.getD (quadrantOfAngle a) [] =
      if flt a constHALF_PI then [true, false]
      else if flt a constPI then [false, false]
      else if flt a constTHREE_HALF_PI then [false, true]
      else [true, true] := by
  unfold quadrantOfAngle
  split_ifs <;> rfl

/-- The normalised angle with positive zero written as the word 0. -/
theorem qpskAngle_eq (i q : F64) :
    qpskAngle i q = if feq i 0 = true ∧ feq q 0 = true then 0
      else if flt (Config.atan2 q i) 0 = true then fadd (Config.atan2 q i) constTWO_PI else Config.atan2 q i := by
  simp only [qpskAngle, fzero_false_eq_zero, Bool.and_eq_true]

theorem isfinite_of_iszero {x : F64} (h : iszero x = true) : isfinite x = true := by
  rw [isfinite_iff, beq_iff_eq.mp h]
  decide

/-- R18: zeros of either sign are equal. -/
theorem feq_zero_of_iszero {x : F64} (h : iszero x = true) : feq x (fzero false) = true := by
  have hmag : fmag x = 0 := beq_iff_eq.mp h
  have hkey : orderKey x = 0 := by simp [orderKey, hmag]
  have hkey0 : orderKey (fzero false) = 0 := by decide
  simp [feq, isnan_eq_false_of_isfinite, isfinite_of_iszero h, isfinite_fzero, hkey, hkey0]

theorem qpskAngle_of_iszero {i q : F64} (hi : iszero i = true) (hq : iszero q = true) :
    qpskAngle i q = fzero false := by
  rw [qpskAngle, feq_zero_of_iszero hi, feq_zero_of_iszero hq]
  rfl

/-- Whatever the signs, the decision at the origin is the one between positive zeros. -/
theorem decideGroup_qpsk_of_iszero {i q : F64} (hi : iszero i = true) (hq : iszero q = true) :
    decideGroup .qpsk i q = [true, false] := by
  have hzero : iszero (fzero false) = true := by decide
  rw [← decideGroup_origin_qpsk, decideGroup, decideGroup, decQpsk, decQpsk, qpskAngle_of_iszero hi hq,
    qpskAngle_of_iszero hzero hzero]

/-- Settles O42: zeros pass the operand test, and their angle is `+0`, whose quadrant decides for `(1,0)`. -/
theorem qpskOriginDecision : Obligations.QpskOriginDecision := by
  intro s hready hmod hi hq
  have hmask : nonFiniteMask .qpsk s.iavg s.qavg = 0 :=
    (nonFiniteMask_qpsk_eq_zero_iff _ _).mpr ⟨isfinite_of_iszero hi, isfinite_of_iszero hq⟩
  have hdone := exec_decide_done hready (by rw [hmod]; rfl) hmask
  have hbeat : beatOfGroup [true, false] = 0x0A0 := by decide
  rw [hdone, decideGroup_qpsk_of_iszero hi hq, hbeat]

/-! ## The QAM16 decision (R215) -/

theorem decQam16_eq (v : F64) :
    decQam16 v = if flt v 0xC000000000000000 then [false, false]
      else if flt v 0 then [false, true]
      else if flt v 0x4000000000000000 then [true, true]
      else [true, false] := by
  rw [decQam16, fzero_false_eq_zero]

/-! ## The order of values that are not a NaN (R17) -/

theorem flt_iff (a b : F64) :
    flt a b = true ↔ isnan a = false ∧ isnan b = false ∧ orderKey a < orderKey b := by
  simp only [flt, Bool.and_eq_true, Bool.not_eq_true', decide_eq_true_eq, and_assoc]

theorem flt_trans {a b c : F64} (hab : flt a b = true) (hbc : flt b c = true) : flt a c = true := by
  obtain ⟨ha, -, hlt⟩ := (flt_iff a b).mp hab
  obtain ⟨-, hc, hlt'⟩ := (flt_iff b c).mp hbc
  exact (flt_iff a c).mpr ⟨ha, hc, hlt.trans hlt'⟩

/-- A value less than `b` is less than everything that `b` is not greater than. -/
theorem flt_of_flt_of_not_flt {a b c : F64} (hc : isnan c = false) (hab : flt a b = true) (hcb : flt c b = false) :
    flt a c = true := by
  obtain ⟨ha, hb, hlt⟩ := (flt_iff a b).mp hab
  have hle : orderKey b ≤ orderKey c :=
    not_lt.mp fun h => Bool.eq_false_iff.mp hcb ((flt_iff c b).mpr ⟨hc, hb, h⟩)
  exact (flt_iff a c).mpr ⟨ha, hc, hlt.trans_le hle⟩

theorem isnan_fadd_of_isfinite {a b : F64} (ha : isfinite a = true) (hb : isfinite b = true) :
    isnan (fadd a b) = false := by
  by_cases h0 : signedUnits a + signedUnits b = 0
  · have hzero : fadd a b = fzero (fsign a && fsign b) := by
      simp [fadd, isnan_eq_false_of_isfinite, isinf_eq_false_of_isfinite, ha, hb, h0]
    rw [hzero]
    exact isnan_eq_false_of_isfinite (isfinite_fzero _)
  · rw [fadd_finite ha hb h0, not_isnan_pack_roundMag]

/-! ## The QAM64 decision (R217) -/

theorem isnan_refDistance {v : F64} (hv : isfinite v = true) {m : Nat} (hm : m < 8) :
    isnan (refDistance v m) = false := by
  rw [refDistance, isnan_fabs]
  exact isnan_fadd_of_isfinite hv ((isfinite_fneg _).trans (isfinite_levelOfIndex hm))

/-- Of the reference levels below `n`, level `m` is the first of those at the smallest distance. -/
def FirstNearest (v : F64) (n m : Nat) : Prop :=
  m < n ∧ (∀ k, k < m → flt (refDistance v m) (refDistance v k) = true) ∧
    ∀ k, m < k → k < n → flt (refDistance v k) (refDistance v m) = false

section FirstNearest

variable {v : F64} {n m : Nat}

theorem firstNearest_one : FirstNearest v 1 0 :=
  ⟨Nat.one_pos, fun k hk => absurd hk k.not_lt_zero, fun _ hpos hlt => absurd hlt (Nat.not_lt.mpr hpos)⟩

/-- A next level that is not nearer does not replace the best. -/
theorem FirstNearest.keep (h : FirstNearest v n m) (hfar : flt (refDistance v n) (refDistance v m) = false) :
    FirstNearest v (n + 1) m := by
  obtain ⟨hmn, hbelow, habove⟩ := h
  refine ⟨Nat.lt_succ_of_lt hmn, hbelow, fun k hmk hkn => ?_⟩
  rcases Nat.lt_succ_iff_lt_or_eq.mp hkn with hlt | rfl
  · exact habove k hmk hlt
  · exact hfar

/-- A next level that is nearer than the best is nearer than every level before. -/
theorem FirstNearest.replace (h : FirstNearest v n m) (hnan : ∀ k < n, isnan (refDistance v k) = false)
    (hnear : flt (refDistance v n) (refDistance v m) = true) : FirstNearest v (n + 1) n := by
  obtain ⟨_, hbelow, habove⟩ := h
  refine ⟨Nat.lt_succ_self n, fun k hkn => ?_, fun k hnk hkn => absurd hkn (Nat.not_lt.mpr hnk)⟩
  rcases Nat.lt_trichotomy k m with hlt | rfl | hgt
  · exact flt_trans hnear (hbelow k hlt)
  · exact hnear
  · exact flt_of_flt_of_not_flt (hnan k hkn) hnear (habove k hgt hkn)

/-- After `n` steps the search holds the first nearest of the levels up to `n`, with its distance. -/
theorem foldl_nearer_firstNearest (n : Nat) (hnan : ∀ k < n, isnan (refDistance v k) = false) :
    ∃ m, FirstNearest v (n + 1) m ∧
      (List.range' 1 n).foldl (nearer v) (0, refDistance v 0) = (m, refDistance v m) := by
  induction n with
  | zero => exact ⟨0, firstNearest_one, rfl⟩
  | succ n ih =>
    obtain ⟨m, hfirst, hfold⟩ := ih fun k hk => hnan k (Nat.lt_succ_of_lt hk)
    rw [List.range'_1_concat, List.foldl_append, hfold, List.foldl_cons, List.foldl_nil, Nat.add_comm 1 n]
    cases hd : flt (refDistance v (n + 1)) (refDistance v m) with
    | true => exact ⟨n + 1, hfirst.replace hnan hd, nearer_of_flt hd⟩
    | false => exact ⟨m, hfirst.keep hd, nearer_of_not_flt hd⟩

theorem nearestIndex_firstNearest (hv : isfinite v = true) : FirstNearest v 8 (nearestIndex v) := by
  obtain ⟨m, hfirst, hfold⟩ := foldl_nearer_firstNearest (v := v) 7 fun k hk => isnan_refDistance hv (by omega)
  rw [nearestIndex_eq_foldl, hfold]
  exact hfirst

end FirstNearest

/-- The reference levels of R217 as a list of patterns. -/
def referenceLevels : List F64 :=
  [0xC01C000000000000, 0xC014000000000000, 0xC008000000000000, 0xBFF0000000000000,
    0x3FF0000000000000, 0x4008000000000000, 0x4014000000000000, 0x401C000000000000]

theorem levelPattern_eq_getD : ∀ m < 8, levelPattern m = referenceLevels.getD m 0 := by decide

/-- The distance to reference level `m`, the level taken from the list. -/
def listedDistance (v : F64) (m : Nat) : F64 := fabs (fsub v (referenceLevels.getD m 0))

theorem refDistance_eq_listedDistance (v : F64) {m : Nat} (h : m < 8) : refDistance v m = listedDistance v m := by
  rw [refDistance, levelOfIndex_eq_pattern m h, levelPattern_eq_getD m h, listedDistance]

theorem nearestIndex_listedDistance {v : F64} (hv : isfinite v = true) :
    nearestIndex v < 8 ∧
      (∀ k, k < nearestIndex v → flt (listedDistance v (nearestIndex v)) (listedDistance v k) = true) ∧
      ∀ k, nearestIndex v < k → k < 8 → flt (listedDistance v k) (listedDistance v (nearestIndex v)) = false := by
  obtain ⟨hlt, hbelow, habove⟩ := nearestIndex_firstNearest hv
  refine ⟨hlt, fun k hk => ?_, fun k hk hk8 => ?_⟩
  · rw [← refDistance_eq_listedDistance v hlt, ← refDistance_eq_listedDistance v (hk.trans hlt)]
    exact hbelow k hk
  · rw [← refDistance_eq_listedDistance v hlt, ← refDistance_eq_listedDistance v hk8]
    exact habove k hk hk8

/-- Settles O40, scheme by scheme: the operands pass the test, and the group is the one of the scheme's decision; under
QAM64 the two indices are those the searches end with. -/
theorem decideEmitsGroup : Obligations.DecideEmitsGroup := by
  intro s hready
  refine ⟨fun hmod hi hq => ?_, fun hmod hi hq => ?_, fun hmod hi hq => ?_⟩
  · have hdone := exec_decide_done (sch := .qpsk) hready (by rw [hmod]; rfl)
      ((nonFiniteMask_qpsk_eq_zero_iff _ _).mpr ⟨hi, hq⟩)
    rw [decideGroup, decQpsk, bits_quadrantOfAngle, qpskAngle_eq] at hdone
    exact hdone
  · have hdone := exec_decide_done (sch := .qam16) hready (by rw [hmod]; rfl)
      ((nonFiniteMask_qam16_eq_zero_iff _ _).mpr ⟨hi, hq⟩)
    rw [decideGroup, decQam16_eq, decQam16_eq] at hdone
    exact hdone
  · have hdone := exec_decide_done (sch := .qam64) hready (by rw [hmod]; rfl)
      ((nonFiniteMask_qam64_eq_zero_iff _ _).mpr ⟨hi, hq⟩)
    exact ⟨nearestIndex s.iavg, nearestIndex s.qavg, nearestIndex_listedDistance hi, nearestIndex_listedDistance hq,
      hdone⟩

end Sys2Proof.Proofs
end

section
/-! PROOFS of the family 45_demod_sequencer.md: `DEMSYM` on one window (O45), `DEMRUN` over all of them (O46), and the
number of bits an unfaulted `DEMRUN` recovers (O47). -/

namespace Sys2Proof.Proofs

open Sys2Proof.Machine Sys2Proof.Claims

/-! ## DEMSYM (R230) -/

section Demsym

variable {s : State} {sch : Scheme} (hready : Ready s) (hsch : schemeOfCode s.modulation = some sch)

include hready hsch

theorem exec_demsym_done (h : WindowDecidable sch s s.rxK.toNat) :
    exec .demsym s = .next ((demodulated sch s).withCur Cur.idle) := by
  rw [exec_eq_runCommand s (by decide)]
  exact runCommand_performs (accepts_of_ready hready rfl) (expand_ne_nil .demsym s (by decide)) (performs_demsym hsch h)

/-- The `DECIDE` step raises after the window has been correlated, so neither the bits nor `RXKINC` come. -/
theorem exec_demsym_nonFinite (h : ¬ WindowDecidable sch s s.rxK.toNat) :
    exec .demsym s = .next (faultedWith (afterWindow s) .nonfinite (BitVec.ofNat 64
      (nonFiniteMask sch (windowAvg Config.cos s s.rxK.toNat) (windowAvg Config.sin s s.rxK.toNat)))) := by
  have hexpand : expand .demsym s =
      corrwinSteps s.samplesPerSymbol.toNat ++ Prim.decideStep :: [Prim.rxkinc] := List.append_assoc _ _ _
  have hunfaulted : ((afterWindow s).withCur s.cur).faulted = false := hready.1
  have hraised := primStep_decide_nonFinite (s := (afterWindow s).withCur s.cur) hsch h
  rw [exec_eq_runCommand s (by decide), runCommand_raises (accepts_of_ready hready rfl) hexpand (performs_corrwin s)
    (.refl _) hraised, raiseFault_of_not_faulted hunfaulted]
  rfl

end Demsym

/-- Settles O45: the steps of `CORRWIN` are performed in every state; the operand test of the `DECIDE` step decides
between completion and the fault. -/
theorem demsymDecidesOneWindow : Obligations.DemsymDecidesOneWindow := fun _ _ hready hsch =>
  ⟨exec_demsym_done hready hsch, exec_demsym_nonFinite hready hsch⟩

/-! ## What the steps of DEMSYMs leave unchanged -/

/-- `s` with those fields of `t` that a step of `DEMRUN` may write. -/
def withReceiveOf (t s : State) : State :=
  { s with
    rxK := t.rxK, rxJ := t.rxJ, isum := t.isum, qsum := t.qsum, iavg := t.iavg, qavg := t.qavg
    rxbits := t.rxbits, bitout := t.bitout }

/-- The steps of a `DEMRUN` (R134). -/
def IsReceivePrim (p : Prim) : Prop :=
  p = .rxinit ∨ p = .acclr ∨ p = .corr ∨ p = .avg ∨ p = .decideStep ∨ p = .rxkinc

theorem StepWrites.receive_frame {p : Prim} {s s' : State} (hp : IsReceivePrim p) (h : StepWrites p s s') :
    s' = withReceiveOf s' s := by
  rcases hp with rfl | rfl | rfl | rfl | rfl | rfl
  case inr.inr.inl => obtain ⟨_, rfl⟩ := h; rfl
  case inr.inr.inr.inr.inl => obtain ⟨_, _, rfl⟩ := h; rfl
  all_goals obtain rfl := h; rfl

theorem receive_frame_of_performs {l : List Prim} {s t : State} (h : Performs l s t)
    (hl : ∀ p ∈ l, IsReceivePrim p) : t = withReceiveOf t s := by
  induction h with
  | nil => rfl
  | @cons p l s s' t hp _ ih =>
    have hstep := StepWrites.receive_frame (hl p List.mem_cons_self) (stepWrites_of_done hp)
    calc t = withReceiveOf t s' := ih fun q hq => hl q (List.mem_cons_of_mem p hq)
      _ = withReceiveOf t (withReceiveOf s' s) := congrArg (withReceiveOf t) hstep
      _ = withReceiveOf t s := rfl
  | late => exact absurd (hl .mix List.mem_cons_self) (by unfold IsReceivePrim; decide)

theorem isReceivePrim_of_mem_demsymSteps {k : Nat} {p : Prim} (h : p ∈ demsymSteps k) : IsReceivePrim p := by
  simp only [demsymSteps, corrwinSteps, List.mem_append, List.mem_singleton, List.mem_replicate] at h
  unfold IsReceivePrim
  tauto

theorem isReceivePrim_of_mem_demrun {s : State} {p : Prim} (h : p ∈ expand .demrun s) : IsReceivePrim p := by
  rcases List.mem_append.mp h with hinit | hwindows
  · exact .inl (List.mem_singleton.mp hinit)
  · obtain ⟨_, hpart, hp⟩ := List.mem_flatten.mp hwindows
    obtain rfl := List.eq_of_mem_replicate hpart
    exact isReceivePrim_of_mem_demsymSteps hp

/-! ## DEMRUN (R231) -/

/-- What is at an index depends on RXBUF alone (R74). -/
theorem sampleAt_congr {s t : State} (h : t.rxbuf = s.rxbuf) (n : Nat) : sampleAt t n = sampleAt s n := by
  rw [sampleAt, sampleAt, State.rxAvail, State.rxAvail, h]

theorem windowSum_congr {s t : State} (h : SameSetting s t) (f : F64 → F64) (k : Nat) :
    windowSum f t k = windowSum f s k :=
  windowSum_congr_amp f h.fc h.fs h.samplesPerSymbol fun _ _ =>
    congrArg (Option.map (·.amp)) (sampleAt_congr h.rxbuf _)

/-- The `DEMSYM` of the last of `n + 1` windows begins in a state `v` with `RX_K` at `n`, and the steps end where it
ends. -/
theorem demodulated_last_window {sch : Scheme} {n : Nat} {s u : State} (hsch : schemeOfCode s.modulation = some sch)
    (hn : n + 1 < 2 ^ 32) (hk : s.rxK = 0) (hdec : ∀ k, k < n + 1 → WindowDecidable sch s k)
    (h : Performs (repeatSteps (n + 1) (demsymSteps s.samplesPerSymbol.toNat)) s u) :
    ∃ v, SameSetting s v ∧ v.rxK.toNat = n ∧ u = demodulated sch v := by
  rw [repeatSteps_add, repeatSteps_one] at h
  obtain ⟨v, hfirst, hlast⟩ := h.split
  obtain ⟨v', hfirst', hvk, _⟩ :=
    performs_windows hsch (Nat.lt_of_succ_lt hn) hk fun k hkn => hdec k (Nat.lt_succ_of_lt hkn)
  obtain rfl := hfirst.det hfirst'
  have hset := sameSetting_of_performs hfirst
  have hvn : v.rxK.toNat = n := by rw [hvk, BitVec.toNat_ofNat, Nat.mod_eq_of_lt (Nat.lt_of_succ_lt hn)]
  have hdecidable : WindowDecidable sch v v.rxK.toNat := by
    rw [hvn, windowDecidable_congr hset]
    exact hdec n (Nat.lt_succ_self n)
  rw [← hset.samplesPerSymbol] at hlast
  exact ⟨v, hset, hvn, hlast.det (performs_demsym (hset.modulation ▸ hsch) hdecidable)⟩

/-- `u` has in its receive registers what the `DEMSYM` of window `k` of `s` leaves there. -/
def HoldsWindow (sch : Scheme) (s : State) (k : Nat) (u : State) : Prop :=
  u.rxJ = s.samplesPerSymbol ∧ u.rxbits = beatOfGroup (windowGroup sch s k) ∧
  u.isum = windowSum Config.cos s k ∧ u.qsum = windowSum Config.sin s k ∧
  u.iavg = windowAvg Config.cos s k ∧ u.qavg = windowAvg Config.sin s k

theorem holdsWindow_demodulated (sch : Scheme) {s v : State} (h : SameSetting s v) :
    HoldsWindow sch s v.rxK.toNat (demodulated sch v) :=
  ⟨h.samplesPerSymbol, congrArg beatOfGroup (congrFun (windowGroup_congr h sch) _), windowSum_congr h _ _,
    windowSum_congr h _ _, windowAvg_congr h _ _, windowAvg_congr h _ _⟩

/-- The steps of `DEMRUN` are performed where every window can be decided. -/
theorem performs_demrun {s : State} {sch : Scheme} (hsch : schemeOfCode s.modulation = some sch)
    (hdec : ∀ k, k < s.symbolCount.toNat → WindowDecidable sch s k) :
    ∃ u, Performs (expand .demrun s) s u ∧ u.rxK = s.symbolCount ∧
      u.bitout = s.bitout ++ (List.range s.symbolCount.toNat).flatMap (windowGroup sch s) ∧
      (0 < s.symbolCount.toNat → HoldsWindow sch s (s.symbolCount.toNat - 1) u) := by
  have hset := sameSetting_rxInitialised s
  have hdec' : ∀ k, k < s.symbolCount.toNat → WindowDecidable sch (rxInitialised s) k := fun k hk =>
    (windowDecidable_congr hset sch k).mpr (hdec k hk)
  obtain ⟨u, hwindows, hk, hbits⟩ :=
    performs_windows (s := rxInitialised s) hsch s.symbolCount.isLt rfl hdec'
  refine ⟨u, .cons rfl hwindows, ?_, ?_, fun hpos => ?_⟩
  · rw [hk, BitVec.ofNat_toNat, BitVec.setWidth_eq]
  · rw [← windowGroup_congr hset]
    exact hbits
  · obtain ⟨n, hn⟩ := Nat.exists_eq_succ_of_ne_zero hpos.ne'
    have hlt : n + 1 < 2 ^ 32 := hn.symm.trans_lt s.symbolCount.isLt
    rw [hn] at hwindows hdec' ⊢
    obtain ⟨v, hset', hvn, rfl⟩ := demodulated_last_window (s := rxInitialised s) hsch hlt rfl hdec' hwindows
    exact hvn ▸ holdsWindow_demodulated sch (hset.trans hset')

/-- Settles O46: `performs_windows` decides the windows one after another, by induction; the last of them is what the
receive registers hold, and the frame is that of each step. -/
theorem demrunDecidesAllWindows : Obligations.DemrunDecidesAllWindows := by
  intro s sch hready hsch N hdec
  obtain ⟨u, hperforms, hk, hbits, hlast⟩ := performs_demrun hsch hdec
  refine ⟨u.withCur Cur.idle, ?_, hbits, hk, hlast, ?_⟩
  · rw [exec_eq_runCommand s (by decide)]
    exact runCommand_performs (accepts_of_ready hready rfl) (expand_ne_nil .demrun s (by decide)) hperforms
  · exact congrArg (·.withCur Cur.idle) (receive_frame_of_performs hperforms fun _ => isReceivePrim_of_mem_demrun)

/-! ## The length of the recovered sequence (R232) -/

theorem length_flatMap_windowGroup (sch : Scheme) (s : State) (n : Nat) :
    ((List.range n).flatMap (windowGroup sch s)).length = n * bitsPerSymbol sch := by
  have hlength : ∀ k, (windowGroup sch s k).length = bitsPerSymbol sch := fun k => length_decideGroup sch _ _
  simp [List.length_flatMap, hlength]

/-- Settles O47: with a window that cannot be decided the run ends faulted, so every window has been decided, and each
gives a whole group. -/
theorem demrunRecoveredLength : Obligations.DemrunRecoveredLength := by
  intro s t sch hready hsch hexec hunfaulted
  by_cases hdec : ∀ k, k < s.symbolCount.toNat → WindowDecidable sch s k
  · obtain ⟨u, hu, hidle, _, hbits⟩ := exec_demrun_decidable hready hsch hdec
    obtain rfl := Host.Outcome.next.inj (hexec.symm.trans hu)
    exact ⟨hidle, _, hbits, length_flatMap_windowGroup sch s _⟩
  · push Not at hdec
    obtain ⟨u, hu, _, hfaulted⟩ := exec_demrun_undecidable hready hsch hdec
    obtain rfl := Host.Outcome.next.inj (hexec.symm.trans hu)
    exact absurd (hunfaulted.symm.trans hfaulted) Bool.false_ne_true

end Sys2Proof.Proofs
end

section
/-! PROOFS of the family 60_exceptions.md: taking a fault (O13), the faulted state (O14), and what an action of the block
that ends in a fault has written (O15). -/

namespace Sys2Proof.Proofs

open Sys2Proof.Machine Sys2Proof.Claims

/-! ## Taking a fault (R248) -/

theorem raiseFault_of_faulted {s : State} (h : s.faulted = true) (c : FaultCode) (info : Word) :
    s.raiseFault c info = { s with cur := Cur.idle } := by
  simp [State.raiseFault, h]

/-- Settles O13, by whether a fault is already recorded. -/
theorem raiseRecordsFirstFault : Obligations.RaiseRecordsFirstFault := fun _ c info =>
  ⟨fun hclear => raiseFault_of_not_faulted hclear c info, fun hfaulted => raiseFault_of_faulted hfaulted c info⟩

/-! ## The faulted state (R249, R252) -/

/-- The block of `b` is the block of `a`, if `a` is faulted with no command in flight. -/
def KeepsHaltedBlock (a b : State) : Prop := a.faulted = true → a.cur = Cur.idle → b.blockPart = a.blockPart

theorem KeepsHaltedBlock.refl (s : State) : KeepsHaltedBlock s s := fun _ _ => rfl

/-- The fault code and `CUR` are of the block, so an unchanged block is still faulted and idle. -/
theorem KeepsHaltedBlock.trans (a b c : State) (h : KeepsHaltedBlock a b) (g : KeepsHaltedBlock b c) :
    KeepsHaltedBlock a c := by
  intro hfaulted hidle
  have hab := h hfaulted hidle
  have hfaulted' : b.faulted = true := (congrArg State.faulted hab :).trans hfaulted
  have hidle' : b.cur = Cur.idle := (congrArg State.cur hab :).trans hidle
  exact (g hfaulted' hidle').trans hab

theorem raiseFault_of_halted {s : State} (hfaulted : s.faulted = true) (hidle : s.cur = Cur.idle) (c : FaultCode)
    (info : Word) : s.raiseFault c info = s := by
  rw [raiseFault_of_faulted hfaulted, ← hidle]

theorem faulted_eq_false_of_storeReg {s t : State} {r : Reg} {v : Word} (h : s.storeReg r v = some t) :
    s.faulted = false := by
  rcases storeReg_cases h with ⟨hopen, _⟩ | ⟨hopen, _⟩
  · exact ((configOpen_iff s).mp hopen).2.2
  · exact ((dataOpen_iff s).mp hopen).2

/-- In the faulted state a fault raised is not recorded, the block rests, and every way in is closed. -/
theorem keepsHaltedBlock_change (s t : State) (h : Change s t) : KeepsHaltedBlock s t := by
  intro hfaulted hidle
  cases h with
  | blk hb =>
    have hrests : blockStep s = .next s := blockStep_idle (by rw [hidle]; rfl)
    cases hrests.symm.trans hb
    rfl
  | env | supp => rfl
  | raise c info _ => rw [raiseFault_of_halted hfaulted hidle]
  | acc i ha _ => cases (accepts_of_faulted hfaulted i).symm.trans ha
  | store hs => cases hfaulted.symm.trans (faulted_eq_false_of_storeReg hs)
  | push ha => cases hfaulted.symm.trans ((bgAccepts_iff s).mp ha).1
  | smp ha => cases hfaulted.symm.trans ((sampleAccepts_iff s).mp ha).2.1

/-- Settles O14: a step that is no `SRESET` of the host is a chain of changes that each keep the block as it is. -/
theorem faultedStateIsSticky : Obligations.FaultedStateIsSticky := by
  intro s t hfaulted hidle hreset hstep
  rcases step_chain hstep with ⟨h, _⟩ | hchain
  · exact absurd h hreset
  · exact hchain.lift KeepsHaltedBlock.refl KeepsHaltedBlock.trans keepsHaltedBlock_change hfaulted hidle

/-! ## An action of the block that ends in a fault (R250) -/

/-- Neither a step performed nor a step held records a fault. -/
theorem faulted_of_not_raised {p : Prim} {s s' : State} (h : primStep p s = .done s' ∨ primStep p s = .hold s') :
    s'.faulted = s.faulted := by
  rcases h with hdone | hhold
  · obtain ⟨_, _, _, _, _, hcode, _⟩ := primStep_done_frame hdone
    exact congrArg (· != .none) hcode
  · rcases primStep_hold hhold with ⟨_, _, rfl⟩ | ⟨_, _, rfl⟩ | ⟨_, _, rfl⟩ <;> rfl

/-- Settles O15: of what an action of the block can do only a raise ends in a fault, and a step that raises has at most
used a reply of the sink. -/
theorem blockFaultIsPrecise : Obligations.BlockFaultIsPrecise := by
  intro s t hclear hstep hfaulted
  rcases blockStep_cases hstep with ⟨_, rfl⟩ | ⟨p, _, _, ⟨s', hdone, rfl⟩ | hhold | ⟨s', c, info, hraised, rfl⟩⟩
  · cases hclear.symm.trans hfaulted
  · have hkept : s'.faulted = s.faulted := faulted_of_not_raised (.inl hdone)
    cases (hkept.trans hclear).symm.trans hfaulted
  · have hkept : t.faulted = s.faulted := faulted_of_not_raised (.inr hhold)
    cases (hkept.trans hclear).symm.trans hfaulted
  · refine ⟨c, info, ?_⟩
    rcases primStep_raised hraised with rfl | ⟨_, rfl⟩
    · exact .inl (raiseFault_of_not_faulted hclear c info)
    · exact .inr (raiseFault_of_not_faulted (s := s.sinkReplied) hclear c info)

end Sys2Proof.Proofs
end
